-- ==== Sys2Proof/Word.lean ====
section
/-! DEFINITION. The words the core works on, and the command record that names an operation (30_encoding.md R70, R71).
The arithmetic over them stands in Machine/Arith.lean. -/
namespace Sys2Proof

/-- A byte: an unsigned 8-bit value (R8). -/
abbrev Byte := BitVec 8

/-- A 2-bit pin sample `{A, B}`: line A is bit 1, line B is bit 0 (R80). -/
abbrev Pins := BitVec 2

/-- A touch channel index, operand `c`: one bit of the opcode byte, so 0 or 1 (R74). How many channels there are is `N_CH` (R6). -/
inductive Channel where
  | zero
  | one
  deriving DecidableEq, Repr, Inhabited

/-- The number of a channel index. -/
def Channel.index : Channel → Nat
  | .zero => 0
  | .one => 1

/-- A circular buffer, operand `u` (R74): 0 selects `S.tx`, 1 selects `S.rx`. -/
inductive BufSel where
  | tx
  | rx
  deriving DecidableEq, Repr, Inhabited

/-- The agents of R20. CB_WRITE and CB_READ belong to none of them. -/
inductive Agent where
  | app
  | isrTx
  | isrRx
  | isrTouch (c : Channel)
  | isrEnc
  | isrBtn
  | hw
  | peer
  | power
  deriving DecidableEq, Repr, Inhabited

/-- The mnemonics of the opcode map (R72): what a row of the table, or a fault record, names. -/
inductive Op where
  | uartInit | uartPut | uartGet | uartPump
  | frameSend | frameStep | parserStep
  | touchIsTouched
  | encGetPosition | encResetPosition | encButtonPressed
  | evTxComplete | evRxComplete | evTouchEdge | evEncEdge | evBtnPress
  | cbWrite | cbRead
  | hwTxDone | hwRxAccept | hwRxDrop
  | peerSend
  | reset
  deriving DecidableEq, Repr, Inhabited

/-- A command record (R70): the opcode byte and the typed operands, which are not serialised into bytes. A format that has no
such operand leaves it at its default (log 14). The clock reading `now` is a `TS_W`-bit unsigned value (R71), kept as the number it is: the
width is a parameter, so the bound is `Instr.wf`'s and not the type's. -/
structure Command where
  op : Byte
  d : Byte := 0#8
  now : Nat := 0
  len : Byte := 0#8
  payload : List Byte := []
  deriving DecidableEq, Repr, Inhabited

/-- One line of a schedule (95_test_vectors.md section 3): an agent offers a command. -/
structure Offer where
  agent : Agent
  cmd : Command
  deriving DecidableEq, Repr, Inhabited

end Sys2Proof
end

