-- ==== Sys2Proof/Config.lean ====
section
/-! DEFINITION. The configuration record `Cfg` (00_scope.md R6) and the free values: constants with no body, of which nothing can
be proved but that they exist. -/
namespace Sys2Proof

/-- `SEND_POLICY` (R6, 90_conflicts.md C4). -/
inductive SendPolicy where
  | twoPhase
  | asImplemented
  deriving DecidableEq, Repr, Inhabited

/-- `RX_UNARMED` (R6, R132): what may happen to a peer byte that finds no receive armed. -/
inductive RxUnarmed where
  | mayDrop
  | held
  deriving DecidableEq, Repr, Inhabited

/-- `TS_UNIT` (R6): the clock unit. No rule reads it. -/
inductive ClockUnit where
  | microsecond
  | millisecond
  deriving DecidableEq, Repr, Inhabited

/-- `ENC_FORWARD_DIR` (R6): which physical rotation is forward. No rule reads it; the two names are the model's (log 16). -/
inductive Rotation where
  | clockwise
  | counterClockwise
  deriving DecidableEq, Repr, Inhabited

/-- `BTN_ACTIVE_LEVEL` (R6): the pin level of a press. No rule reads it; the two names are the model's (log 16). -/
inductive PinLevel where
  | low
  | high
  deriving DecidableEq, Repr, Inhabited

/-- `TOUCH_EDGE_KIND` (R6): which pin transitions interrupt. No rule reads it; the three names are the model's (log 16). -/
inductive EdgeKind where
  | rising
  | falling
  | both
  deriving DecidableEq, Repr, Inhabited

/-- The configuration record of R6, but for the rows derived below. It is a field of State that no step writes (log 1), so a statement over all states quantifies over it. -/
structure Cfg where
  /-- `CAP`, the capacity of each circular buffer in bytes. -/
  cap : Nat
  /-- `N_CH`, how many touch channels there are. -/
  nCh : Nat
  /-- `WIN_N`, the touch window length. -/
  winN : Nat
  /-- `TS_W`, the width of a clock reading and of a sample. -/
  tsW : Nat
  /-- `THRESH[c]` for each channel, OPEN: `TS_W`-bit unsigned values (R6, R7). -/
  thresh : Vector (BitVec tsW) nCh
  /-- `ENC_LIMIT`. -/
  encLimit : Nat
  /-- `ENC_DIV`, raw transitions per detent. -/
  encDiv : Nat
  headByte : Byte
  tailByte : Byte
  crByte : Byte
  lfByte : Byte
  sendPolicy : SendPolicy
  rxUnarmed : RxUnarmed
  /-- `HW_COMPLETES`, OPEN: read by the fairness assumption of R134 alone (Safety.lean). -/
  hwCompletes : Bool
  /-- `BAUD`, OPEN; no rule reads it. -/
  baud : Nat
  tsUnit : ClockUnit
  encForwardDir : Rotation
  btnActiveLevel : PinLevel
  touchEdgeKind : EdgeKind
  deriving DecidableEq, Repr

/-- `ceil(log2 n)` (R6). -/
def clog2 (n : Nat) : Nat := if n ≤ 1 then 0 else (n - 1).log2 + 1

/-- `IDX_W`, the width of `head` and `tail` (R6). -/
def Cfg.idxW (c : Cfg) : Nat := clog2 c.cap

/-- `SUM_W`, the width of a touch channel's `sum` (R6, D11). -/
def Cfg.sumW (c : Cfg) : Nat := c.tsW + clog2 c.winN

/-- `MAX_PAYLOAD` (R6): the length field is one byte. -/
def maxPayload : Nat := 255

/-- `FRAME_OVERHEAD` (R6): head, length, tail, checksum, CR, LF. -/
def frameOverhead : Nat := 6

namespace Config

/-- `THRESH[0]`, OPEN in R6: no source gives it a value. -/
opaque thresh0 : BitVec 32
/-- `THRESH[1]`, OPEN in R6: no source gives it a value. -/
opaque thresh1 : BitVec 32
/-- `HW_COMPLETES`, OPEN in R6. -/
opaque hwCompletes : Bool
/-- `BAUD`, OPEN in R6. -/
opaque baud : Nat
/-- `TS_UNIT`, OPEN in R6. -/
opaque tsUnit : ClockUnit
/-- `ENC_FORWARD_DIR`, OPEN in R6. -/
opaque encForwardDir : Rotation
/-- `BTN_ACTIVE_LEVEL`, OPEN in R6. -/
opaque btnActiveLevel : PinLevel
/-- `TOUCH_EDGE_KIND`, OPEN in R6. -/
opaque touchEdgeKind : EdgeKind

/-- The n-th Boolean draw (`hw_ok` of R120, `cont` of R156), chosen by the environment under no law (R10; log 6). -/
opaque freeBool : Nat → Bool
/-- The n-th byte drawn by RESET for a byte whose reset value is unspecified (R260; log 7). -/
opaque freeByte : Nat → Byte
/-- The n-th clock reading drawn by RESET for an unspecified `prev_ts`, before it is cut to `TS_W` bits (R260; log 7). -/
opaque freeStamp : Nat → Nat
/-- What a slot outside its array would read as. There is no such slot (R51), and no reachable state reads one (log 9). -/
opaque noSlotByte : Nat → Byte
/-- The same for a touch window, and for the threshold of a channel there is not (log 9). -/
opaque noSlotStamp : Nat → Nat

/-- The values of R6: the document's, with the OPEN rows left open. -/
def default : Cfg where
  cap := 16
  nCh := 2
  winN := 10
  tsW := 32
  thresh := #v[thresh0, thresh1]
  encLimit := 96
  encDiv := 4
  headByte := 0xCC#8
  tailByte := 0xB9#8
  crByte := 0x0D#8
  lfByte := 0x0A#8
  sendPolicy := .twoPhase
  rxUnarmed := .mayDrop
  hwCompletes := hwCompletes
  baud := baud
  tsUnit := tsUnit
  encForwardDir := encForwardDir
  btnActiveLevel := btnActiveLevel
  touchEdgeKind := touchEdgeKind

end Config
end Sys2Proof
end

