-- ==== Sys2Proof/Syntax.lean ====
section
/-! DEFINITION. The instructions: one constructor per row of spec/opcode_table.json, with the operands of its format
(30_encoding.md R71, R72, R74). -/
namespace Sys2Proof

/-- The operations of the block (R72). -/
inductive Instr where
  | uartInit
  | uartPut (d : Byte)
  | uartGet
  | uartPump
  | frameSend (len : Byte) (payload : List Byte)
  | frameStep
  | parserStep
  | touchIsTouched (c : Channel)
  | encGetPosition
  | encResetPosition
  | encButtonPressed
  | evTxComplete
  | evRxComplete
  | evTouchEdge (c : Channel) (now : Nat)
  | evEncEdge (ab : Pins)
  | evBtnPress
  | cbWrite (u : BufSel) (d : Byte)
  | cbRead (u : BufSel)
  | hwTxDone
  | hwRxAccept
  | hwRxDrop
  | peerSend (d : Byte)
  | reset (ab : Pins)
  deriving DecidableEq, Repr

end Sys2Proof
end

