-- ==== Sys2Proof/WellFormed.lean ====
section
/-! DEFINITION. What a well-formed configuration (00_scope.md R7) and a well-formed instruction (30_encoding.md R91) are. The
bytes of R7 are bytes, and `THRESH[c] < 2^TS_W`, by their types. -/
namespace Sys2Proof

/-- R7: a configuration outside these constraints is refused. -/
def Cfg.valid (c : Cfg) : Bool :=
  decide (1 ≤ c.cap) && decide (1 ≤ c.winN) && decide (1 ≤ c.encLimit) && decide (1 ≤ c.encDiv)

/-- R91: a FRAME_SEND's `len` is its payload's length; an ill-formed FRAME_SEND still runs: it raises BAD_LENGTH (R154). R71, R74: a
clock reading has `TS_W` bits, and every such reading is legal. -/
def Instr.wf (k : Cfg) : Instr → Bool
  | .frameSend len payload => decide (payload.length = len.toNat)
  | .evTouchEdge _ now => decide (now < 2 ^ k.tsW)
  | .uartInit | .uartPut _ | .uartGet | .uartPump | .frameStep | .parserStep | .touchIsTouched _ | .encGetPosition
  | .encResetPosition | .encButtonPressed | .evTxComplete | .evRxComplete | .evEncEdge _ | .evBtnPress
  | .cbWrite _ _ | .cbRead _ | .hwTxDone | .hwRxAccept | .hwRxDrop | .peerSend _ | .reset _ => true

end Sys2Proof
end

