-- ==== Sys2Proof/Decode.lean ====
section
/-! DEFINITION. Decoding (30_encoding.md R72 to R74, R90) and, after it, the encoder written from the same table, and which agent
takes which instruction (R72's agent column). -/
namespace Sys2Proof

/-- A row of R72: `mask` marks the fixed bits of the pattern, `pattern` gives them. -/
structure Row where
  op : Op
  mask : Byte
  pattern : Byte
  deriving DecidableEq, Repr

/-- The opcode map of R72. -/
def opcodeTable : List Row :=
  [ ⟨.uartInit, 0xFF#8, 0x01#8⟩, ⟨.uartPut, 0xFF#8, 0x02#8⟩, ⟨.uartGet, 0xFF#8, 0x03#8⟩, ⟨.uartPump, 0xFF#8, 0x04#8⟩,
    ⟨.frameSend, 0xFF#8, 0x05#8⟩, ⟨.frameStep, 0xFF#8, 0x06#8⟩, ⟨.parserStep, 0xFF#8, 0x07#8⟩,
    ⟨.touchIsTouched, 0xFE#8, 0x08#8⟩,
    ⟨.encGetPosition, 0xFF#8, 0x0C#8⟩, ⟨.encResetPosition, 0xFF#8, 0x0D#8⟩, ⟨.encButtonPressed, 0xFF#8, 0x0E#8⟩,
    ⟨.evTxComplete, 0xFF#8, 0x20#8⟩, ⟨.evRxComplete, 0xFF#8, 0x21#8⟩, ⟨.evTouchEdge, 0xFE#8, 0x28#8⟩,
    ⟨.evEncEdge, 0xFC#8, 0x30#8⟩, ⟨.evBtnPress, 0xFF#8, 0x34#8⟩,
    ⟨.cbWrite, 0xFE#8, 0x40#8⟩, ⟨.cbRead, 0xFE#8, 0x42#8⟩,
    ⟨.hwTxDone, 0xFF#8, 0x60#8⟩, ⟨.hwRxAccept, 0xFF#8, 0x61#8⟩, ⟨.hwRxDrop, 0xFF#8, 0x62#8⟩,
    ⟨.peerSend, 0xFF#8, 0x68#8⟩, ⟨.reset, 0xFC#8, 0xF0#8⟩ ]

/-- R73: a field bit is "don't care", a fixed bit must be equal. -/
def Row.hits (r : Row) (b : Byte) : Bool := b &&& r.mask == r.pattern

/-- The operation an opcode byte names, or none where it is unassigned (R90). -/
def lookupOp (b : Byte) : Option Op := (opcodeTable.find? (fun r => r.hits b)).map Row.op

/-- R74: `c := op[0]`. -/
def channelField (b : Byte) : Channel := if b.getLsbD 0 then .one else .zero

/-- R74: `u := op[0]`. -/
def bufferField (b : Byte) : BufSel := if b.getLsbD 0 then .rx else .tx

/-- R74: `{a, b} := op[1:0]`. -/
def pinsField (b : Byte) : Pins := b.extractLsb' 0 2

/-- Operand assembly (R71, R74). -/
def assemble (o : Op) (c : Command) : Instr :=
  match o with
  | .uartInit => .uartInit
  | .uartPut => .uartPut c.d
  | .uartGet => .uartGet
  | .uartPump => .uartPump
  | .frameSend => .frameSend c.len c.payload
  | .frameStep => .frameStep
  | .parserStep => .parserStep
  | .touchIsTouched => .touchIsTouched (channelField c.op)
  | .encGetPosition => .encGetPosition
  | .encResetPosition => .encResetPosition
  | .encButtonPressed => .encButtonPressed
  | .evTxComplete => .evTxComplete
  | .evRxComplete => .evRxComplete
  | .evTouchEdge => .evTouchEdge (channelField c.op) c.now
  | .evEncEdge => .evEncEdge (pinsField c.op)
  | .evBtnPress => .evBtnPress
  | .cbWrite => .cbWrite (bufferField c.op) c.d
  | .cbRead => .cbRead (bufferField c.op)
  | .hwTxDone => .hwTxDone
  | .hwRxAccept => .hwRxAccept
  | .hwRxDrop => .hwRxDrop
  | .peerSend => .peerSend c.d
  | .reset => .reset (pinsField c.op)

/-- Why a command spells no operation. -/
inductive DecodeError where
  /-- The opcode byte matches no row of R72 (R90). -/
  | badOpcode
  deriving DecidableEq, Repr

/-- R73: total on every command record. -/
def decode (c : Command) : Except DecodeError Instr :=
  match lookupOp c.op with
  | some o => .ok (assemble o c)
  | none => .error .badOpcode

/-- The mnemonic of an instruction (R72). -/
def Instr.op : Instr → Op
  | .uartInit => .uartInit
  | .uartPut _ => .uartPut
  | .uartGet => .uartGet
  | .uartPump => .uartPump
  | .frameSend _ _ => .frameSend
  | .frameStep => .frameStep
  | .parserStep => .parserStep
  | .touchIsTouched _ => .touchIsTouched
  | .encGetPosition => .encGetPosition
  | .encResetPosition => .encResetPosition
  | .encButtonPressed => .encButtonPressed
  | .evTxComplete => .evTxComplete
  | .evRxComplete => .evRxComplete
  | .evTouchEdge _ _ => .evTouchEdge
  | .evEncEdge _ => .evEncEdge
  | .evBtnPress => .evBtnPress
  | .cbWrite _ _ => .cbWrite
  | .cbRead _ => .cbRead
  | .hwTxDone => .hwTxDone
  | .hwRxAccept => .hwRxAccept
  | .hwRxDrop => .hwRxDrop
  | .peerSend _ => .peerSend
  | .reset _ => .reset

/-- The agent that may take an instruction (R20, R72); none for the internal primitives (R92). -/
def Instr.agent : Instr → Option Agent
  | .uartInit | .uartPut _ | .uartGet | .uartPump | .frameSend _ _ | .frameStep | .parserStep | .touchIsTouched _
  | .encGetPosition | .encResetPosition | .encButtonPressed => some .app
  | .evTxComplete => some .isrTx
  | .evRxComplete => some .isrRx
  | .evTouchEdge c _ => some (.isrTouch c)
  | .evEncEdge _ => some .isrEnc
  | .evBtnPress => some .isrBtn
  | .cbWrite _ _ | .cbRead _ => none
  | .hwTxDone | .hwRxAccept | .hwRxDrop => some .hw
  | .peerSend _ => some .peer
  | .reset _ => some .power

/-- R93: a command is taken only by the agent its row names. CB_WRITE and CB_READ reach their refusal whoever offers them (R92). -/
def mayTake (a : Agent) (i : Instr) : Bool :=
  match i.agent with
  | some b => a == b
  | none => true

/-- The field bit of a channel. -/
def channelBit : Channel → Byte
  | .zero => 0x00#8
  | .one => 0x01#8

/-- The field bit of a buffer. -/
def bufferBit : BufSel → Byte
  | .tx => 0x00#8
  | .rx => 0x01#8

/-- The command record of an instruction, from the patterns of R72. -/
def encode : Instr → Command
  | .uartInit => { op := 0x01#8 }
  | .uartPut d => { op := 0x02#8, d := d }
  | .uartGet => { op := 0x03#8 }
  | .uartPump => { op := 0x04#8 }
  | .frameSend len payload => { op := 0x05#8, len := len, payload := payload }
  | .frameStep => { op := 0x06#8 }
  | .parserStep => { op := 0x07#8 }
  | .touchIsTouched c => { op := 0x08#8 ||| channelBit c }
  | .encGetPosition => { op := 0x0C#8 }
  | .encResetPosition => { op := 0x0D#8 }
  | .encButtonPressed => { op := 0x0E#8 }
  | .evTxComplete => { op := 0x20#8 }
  | .evRxComplete => { op := 0x21#8 }
  | .evTouchEdge c now => { op := 0x28#8 ||| channelBit c, now := now }
  | .evEncEdge ab => { op := 0x30#8 ||| ab.setWidth 8 }
  | .evBtnPress => { op := 0x34#8 }
  | .cbWrite u d => { op := 0x40#8 ||| bufferBit u, d := d }
  | .cbRead u => { op := 0x42#8 ||| bufferBit u }
  | .hwTxDone => { op := 0x60#8 }
  | .hwRxAccept => { op := 0x61#8 }
  | .hwRxDrop => { op := 0x62#8 }
  | .peerSend d => { op := 0x68#8, d := d }
  | .reset ab => { op := 0xF0#8 ||| ab.setWidth 8 }

/-- The command whose opcode bits are the low `nbits` of `w`, every operand zero or empty (log 14). -/
def commandOfWord (nbits w : Nat) : Command := { op := BitVec.ofNat 8 (w % 2 ^ nbits) }

/-- The offer that puts a command before the core: by the agent its row names, by APP where it names none. -/
def offerOf (c : Command) : Offer :=
  match decode c with
  | .ok i => { agent := i.agent.getD .app, cmd := c }
  | .error _ => { agent := .app, cmd := c }

/-- What the decoder reads from the instruction whose bits are `w`. -/
def decodeTableWord (nbits w : Nat) : Option Instr :=
  match decode (commandOfWord nbits w) with
  | .ok i => some i
  | .error _ => none

end Sys2Proof
end

