-- ==== Sys2Proof/Machine/State.lean ====
section
/-! DEFINITION. The state of the core (10_state.md R23 to R32), the model's own fields beside it (`label`, `sched`, `draws`,
`drawCount`), the reasons a step can stop, and the state after reset (R40). -/
namespace Sys2Proof.Machine

/-- `init_state` (R25). -/
inductive InitState where
  | uninit
  | ready
  | failed
  deriving DecidableEq, Repr

/-- `tx_state` and `rx_state` (R25). -/
inductive DirState where
  | yielded
  | active
  deriving DecidableEq, Repr

/-- `ps_state` (R29). -/
inductive ParseState where
  | awaitHead
  | awaitLength
  | awaitPayload
  | awaitTail
  | awaitChecksum
  | awaitCr
  | awaitLf
  deriving DecidableEq, Repr

/-- A circular buffer (R24). `data` has `CAP` slots. -/
structure Cb where
  data : List Byte
  head : Nat
  tail : Nat
  full : Bool
  empty : Bool
  deriving DecidableEq, Repr

/-- The receive-side parser's fields `ps_state`, `ps_len`, `ps_cnt`, `ps_acc`, `ps_buf` (R29). `buf` has 255 slots. -/
structure Parser where
  state : ParseState
  len : Byte
  cnt : Nat
  acc : Byte
  buf : List Byte
  deriving DecidableEq, Repr

/-- A touch channel (R30). `win` has `WIN_N` slots of `TS_W` bits; `sum` is a `SUM_W`-bit value, `avg` and `prevTs` have `TS_W` bits.
The widths are parameters, so the values are kept as numbers and the bounds are invariants (Safety.lean). -/
structure Touch where
  win : List Nat
  sum : Nat
  avg : Nat
  idx : Nat
  prevTs : Nat
  first : Bool
  touched : Bool
  deriving DecidableEq, Repr

/-- The value a command returns to `APP` (R33). -/
inductive Result where
  | ok
  | full
  | empty
  | error
  | insufficientSpace
  | done
  | byte (b : Byte)
  | bool (b : Bool)
  | int (z : Int)
  | frame (p : List Byte)
  | none
  deriving DecidableEq, Repr

/-- Why a command or a configuration has no meaning (R233). -/
inductive RefuseReason where
  /-- An unassigned opcode (R90). -/
  | badOpcode
  /-- CB_WRITE or CB_READ as a top-level command (R92). -/
  | internalOp
  /-- A configuration that breaks R7. -/
  | badConfig
  deriving DecidableEq, Repr

/-- The output label of a step (R33, R230; log 5). It is not part of the spec's state. -/
inductive Label where
  /-- The offer had no step (R93), or there was no offer. -/
  | noStep
  /-- A step that returns nothing to `APP`. -/
  | silent
  /-- A command's result. -/
  | ret (r : Result)
  /-- The run is refused (R233). -/
  | refused (r : RefuseReason)
  deriving DecidableEq, Repr

/-- The fault codes of R234, by name. -/
inductive FaultCode where
  | notReady
  | initFailed
  | badLength
  | rxLost
  deriving DecidableEq, Repr

/-- The `info` of a fault record (R231, R234). -/
inductive FaultInfo where
  | none
  | mnemonic (o : Op)
  | lengths (len : Byte) (actual : Nat)
  | byte (b : Byte)
  deriving DecidableEq, Repr

/-- A fault record (R231). -/
structure FaultRecord where
  code : FaultCode
  op : Op
  info : FaultInfo
  deriving DecidableEq, Repr

/-- The state: the fields of R24 to R32, the configuration (log 1), and the model's own four fields at the end. -/
structure State where
  cfg : Cfg
  tx : Cb
  rx : Cb
  initState : InitState
  txState : DirState
  rxState : DirState
  irqEnTx : Bool
  irqEnRx : Bool
  txInflight : Option Byte
  txIrq : Bool
  rxArmed : Bool
  rxIrq : Bool
  rxData : Byte
  wireOut : List Byte
  wireIn : List Byte
  wireLost : List Byte
  frBusy : Bool
  frSeq : List Byte
  frPos : Nat
  ps : Parser
  rxFrames : List (List Byte)
  /-- `touch[0..N_CH-1]` (R30). -/
  touch : List Touch
  encCount : Int
  encLast : Pins
  btnLatch : Bool
  /-- The set of fault records raised since the last RESET: a list with no repeats, oldest first (log 12). -/
  faults : List FaultRecord
  refused : Bool
  /-- The model's own: the label of the last step (log 5). -/
  label : Label
  /-- The model's own: the environment's offers still to come, next first (R287; log 3). -/
  sched : List Offer
  /-- The model's own: outcomes of Boolean draws that the environment has already fixed, next first (R287; log 6). -/
  draws : List Bool
  /-- The model's own: how many draws have been made (log 6, log 7). -/
  drawCount : Nat
  deriving DecidableEq, Repr

/-- Reasons an `Outcome.fault` could carry: there are none. The spec's faults (R234) are records in `S.faults` after which the run
goes on (R230, R232), so no step stops with a fault (log 11). Safe: nothing is cut short. -/
inductive Fault where
  deriving DecidableEq, Repr

/-- Reasons a step has no meaning. -/
inductive Refusal where
  /-- An instruction not modelled yet, by its mnemonic. No arm of `exec` answers it. Safe: the run stops. -/
  | notModelled (mnemonic : String)
  /-- Raised by `step` in a state whose `refused` is set: no step is enabled there and the run has ended (R233). Safe: it is the
  spec's own end of the run (log 10). -/
  | runRefused
  deriving DecidableEq, Repr

/-- The values of the fields whose reset value R40 leaves unspecified. -/
structure Unspecified where
  txData : List Byte
  rxData : List Byte
  rxByte : Byte
  psBuf : List Byte
  /-- One `prev_ts` for each channel. -/
  prev : List Nat
  deriving DecidableEq, Repr

/-- A circular buffer at reset (R40), over some contents. -/
def Cb.afterReset (data : List Byte) : Cb := { data := data, head := 0, tail := 0, full := false, empty := true }

/-- A touch channel at reset (R40), over some previous timestamp. -/
def Touch.afterReset (winN : Nat) (prev : Nat) : Touch :=
  { win := List.replicate winN 0, sum := 0, avg := 0, idx := 0, prevTs := prev, first := true, touched := false }

/-- The parser at reset (R40), over some buffer contents. -/
def Parser.afterReset (buf : List Byte) : Parser := { state := .awaitHead, len := 0#8, cnt := 0, acc := 0#8, buf := buf }

/-- The reset values of R40, with `enc_ab0` = `ab`, over some values of the unspecified fields; nothing is scheduled. -/
def State.afterReset (c : Cfg) (ab : Pins) (u : Unspecified) : State where
  cfg := c
  tx := Cb.afterReset u.txData
  rx := Cb.afterReset u.rxData
  initState := .uninit
  txState := .yielded
  rxState := .yielded
  irqEnTx := false
  irqEnRx := false
  txInflight := Option.none
  txIrq := false
  rxArmed := false
  rxIrq := false
  rxData := u.rxByte
  wireOut := []
  wireIn := []
  wireLost := []
  frBusy := false
  frSeq := []
  frPos := 0
  ps := Parser.afterReset u.psBuf
  rxFrames := []
  touch := u.prev.map (Touch.afterReset c.winN)
  encCount := 0
  encLast := ab
  btnLatch := false
  faults := []
  refused := false
  label := .noStep
  sched := []
  draws := []
  drawCount := 0

/-- The values State.reset takes where R40 says "unspecified": zero (DESIGN CHOICE, log 8). -/
def Unspecified.zero (c : Cfg) : Unspecified where
  txData := List.replicate c.cap 0#8
  rxData := List.replicate c.cap 0#8
  rxByte := 0#8
  psBuf := List.replicate maxPayload 0#8
  prev := List.replicate c.nCh 0

/-- The machine right after reset, under the default configuration, with the encoder pins at 00 (log 8). -/
def State.reset : State := State.afterReset Config.default 0#2 (Unspecified.zero Config.default)

end Sys2Proof.Machine
end

