-- ==== Sys2Proof/Machine/Arith.lean ====
section
/-! DEFINITION. The arithmetic of 00_scope.md R9, the checksum and the frame (42_packet_framer.md R150, R151; 30_encoding.md R86), and the
quadrature functions (30_encoding.md R81; 45_quadrature_decoder.md R211, R212). -/
namespace Sys2Proof.Machine

/-- R9: `a mod m`, the representative in `0..m-1`, also for negative `a`. -/
def modN (a : Int) (m : Nat) : Nat := (a % (m : Int)).toNat

/-- R8: `uN(x) = x mod 2^N`. -/
def uN (n : Nat) (x : Int) : Nat := modN x (2 ^ n)

/-- R9: the 8-bit rotate `ror8(x) = (x >> 1) | ((x & 1) << 7)`. -/
def ror8 (x : Byte) : Byte := (x >>> 1) ||| ((x &&& 1#8) <<< 7)

/-- R151: one step of the checksum, in 8-bit wraparound arithmetic. -/
def cksStep (acc x : Byte) : Byte := ((acc >>> 1) + (acc <<< 7)) + x

/-- R150: the checksum, a left fold over the payload from seed 0. -/
def cks (payload : List Byte) : Byte := payload.foldl cksStep 0#8

/-- R86: the frame of a payload. -/
def frame (c : Cfg) (payload : List Byte) : List Byte :=
  [c.headByte, BitVec.ofNat 8 payload.length] ++ payload ++ [c.tailByte, cks payload, c.crByte, c.lfByte]

/-- R81: the forward transitions, `00→01→11→10→00`. -/
def fwd : List (Pins × Pins) := [(0b00#2, 0b01#2), (0b01#2, 0b11#2), (0b11#2, 0b10#2), (0b10#2, 0b00#2)]

/-- R81: the reverse transitions, `00→10→11→01→00`. -/
def rev : List (Pins × Pins) := [(0b00#2, 0b10#2), (0b10#2, 0b11#2), (0b11#2, 0b01#2), (0b01#2, 0b00#2)]

/-- R211: the count's change from pin state `p` to sample `n`. -/
def qdelta (p n : Pins) : Int := if (p, n) ∈ fwd then 1 else if (p, n) ∈ rev then -1 else 0

/-- R212: the lap reset. -/
def lap (limit : Nat) (x : Int) : Int := if x ≤ -(limit : Int) ∨ x ≥ (limit : Int) then 0 else x

/-- R213: the detent position, truncated toward zero (R9's `tdiv`). -/
def position (div : Nat) (count : Int) : Int := count.tdiv (div : Int)

end Sys2Proof.Machine
end

