-- ==== Sys2Proof/Machine/Flags.lean ====
section
/-! DEFINITION. How each flag of 10_state.md R37 is computed, where it is computed from other state. The other flags are set and cleared by
the steps R37 names. -/
namespace Sys2Proof.Machine

/-- R100: `full` after a successful write, `head = tail`. -/
def fullAfterWrite (head tail : Nat) : Bool := head == tail

/-- R101: `empty` after a successful read, `head = tail`. -/
def emptyAfterRead (head tail : Nat) : Bool := head == tail

/-- R191: the sticky touch state after a poll. -/
def touchedAfterPoll (touched : Bool) (avg thresh : Nat) : Bool :=
  if !touched && decide (thresh ≤ avg) then true
  else if touched && decide (avg < thresh) then false
  else touched

/-- R154: in AS_IMPLEMENTED mode a send is in progress from FRAME_SEND on; R156 ends it with the last byte put, or when the
frame is abandoned after a put that returned FULL. -/
def sendEnds (putFull cont : Bool) (posAfter len : Nat) : Bool := (putFull && !cont) || posAfter == len

end Sys2Proof.Machine
end

