-- ==== Sys2Proof/Machine/Operands.lean ====
section
/-! DEFINITION. What the operands `c` and `u` of 30_encoding.md R74 select in the state. The operands `d`, `now`, `ab`, `len` and
`payload` are used unchanged (R74); a `now` beyond `TS_W` bits, which is no operand of R71, is cut to them where it is stored (log 14). -/
namespace Sys2Proof.Machine

/-- `S.touch[c]` (R30), where there is such a channel. -/
def State.chan (s : State) (c : Channel) : Option Touch := s.touch[c.index]?

/-- Whether `c` names a channel: the operand is one bit (R74), and how many channels there are is `N_CH` (R6; log 2). -/
def State.hasChan (s : State) (c : Channel) : Bool := (s.chan c).isSome

/-- `S.touch[c] <- t`. -/
def State.setChan (s : State) (c : Channel) (t : Touch) : State := { s with touch := s.touch.set c.index t }

/-- `THRESH[c]` (R6). The second case is a channel there is not, which nothing polls (log 9). -/
def thresh (k : Cfg) (c : Channel) : Nat :=
  match k.thresh[c.index]? with
  | some x => x.toNat
  | none => Config.noSlotStamp c.index

/-- R74: `B := (u = 0 ? S.tx : S.rx)`. -/
def State.buffer (s : State) : BufSel → Cb
  | .tx => s.tx
  | .rx => s.rx

end Sys2Proof.Machine
end

