-- ==== Sys2Proof/Machine/Ops.lean ====
section
/-! DEFINITION. The shared operations: the circular buffer (40_circular_buffer.md), raising a fault and refusing (60_exceptions.md R232,
R233), the hardware start helpers (41_uart_transport.md R124), the draws (R10), labels and enabling. -/
namespace Sys2Proof.Machine

/-! ### Storage -/

/-- `Slot(B, i)` (R10). -/
def Cb.slot (b : Cb) (i : Nat) : Byte := b.data.getD i (Config.noSlotByte i)

/-- `touch[c].win[i]` (R30). -/
def Touch.slot (t : Touch) (i : Nat) : Nat := t.win.getD i (Config.noSlotStamp i)

/-- `S.ps_buf[i]` (R29). -/
def Parser.slot (p : Parser) (i : Nat) : Byte := p.buf.getD i (Config.noSlotByte i)

/-- R51: the increment of an index in an index space of `n` slots. -/
def nextIndex (n i : Nat) : Nat := (i + 1) % n

/-- Every storage array has the length of its index space (R50). -/
def Memory.wf (s : State) : Bool :=
  s.tx.data.length == s.cfg.cap && s.rx.data.length == s.cfg.cap && s.touch.length == s.cfg.nCh
    && s.touch.all (fun t => t.win.length == s.cfg.winN) && s.ps.buf.length == maxPayload

/-! ### The circular buffer -/

/-- The number of unread bytes (R41). -/
def Cb.count (cap : Nat) (b : Cb) : Nat := if b.full then cap else modN ((b.tail : Int) - (b.head : Int)) cap

/-- Free space (R103). -/
def Cb.free (cap : Nat) (b : Cb) : Nat := cap - b.count cap

/-- The unread bytes, oldest first (R41). -/
def Cb.unread (cap : Nat) (b : Cb) : List Byte := (List.range (b.count cap)).map (fun k => b.slot ((b.head + k) % cap))

/-- `CB_WRITE(B, d)` (R100): whether the byte was taken (OK) or not (FULL), and the buffer after it. -/
def cbWrite (cap : Nat) (b : Cb) (d : Byte) : Bool × Cb :=
  if b.full then (false, b)
  else
    let tail := nextIndex cap b.tail
    (true, { data := b.data.set b.tail d, head := b.head, tail := tail, full := fullAfterWrite b.head tail, empty := false })

/-- `CB_READ(B)` (R101): the byte read, or none for EMPTY, and the buffer after it. -/
def cbRead (cap : Nat) (b : Cb) : Option Byte × Cb :=
  if b.empty then (none, b)
  else
    let head := nextIndex cap b.head
    (some (b.slot b.head), { data := b.data, head := head, tail := b.tail, full := false, empty := emptyAfterRead head b.tail })

/-- `CB_CLEAR(B)` (R102). -/
def cbClear (b : Cb) : Cb := { b with head := 0, tail := 0, empty := true, full := false }

/-- `CB_WRITE` of each byte of a list in turn (R154). -/
def cbWriteAll (cap : Nat) (b : Cb) (l : List Byte) : Cb := l.foldl (fun b x => (cbWrite cap b x).2) b

/-! ### Labels -/

/-- Give the step its label (log 5). -/
def State.setLabel (s : State) (l : Label) : State := { s with label := l }

/-- The offer has no step: nothing of the spec's state changes (R93; log 4). -/
def State.noStep (s : State) : State := s.setLabel .noStep

/-- The step returns a result to `APP` (R33). -/
def State.ret (s : State) (r : Result) : State := s.setLabel (.ret r)

/-- The step returns nothing. -/
def State.silent (s : State) : State := s.setLabel .silent

/-- The result of `CB_WRITE`: `OK` or `FULL` (R100). -/
def writeResult (taken : Bool) : Result := if taken then .ok else .full

/-- The result of `CB_READ`: a byte or `EMPTY` (R101). -/
def readResult : Option Byte → Result
  | some b => .byte b
  | none => .empty

/-! ### Faults and refusals -/

/-- The number of a fault code (R234, D53). -/
def FaultCode.number : FaultCode → Nat
  | .notReady => 1
  | .initFailed => 2
  | .badLength => 3
  | .rxLost => 4

/-- R232 (1): add a record to the set `S.faults`. -/
def State.addFault (s : State) (f : FaultRecord) : State :=
  { s with faults := if f ∈ s.faults then s.faults else s.faults ++ [f] }

/-- `raise` in an `APP` command (R232): the record is added, the step ends, `APP` receives `ERROR`. -/
def raiseApp (s : State) (code : FaultCode) (op : Op) (info : FaultInfo) : State :=
  (s.addFault { code := code, op := op, info := info }).ret .error

/-- `raise` in a handler (R232): the record is added, the step ends, nothing is returned. -/
def raiseHandler (s : State) (code : FaultCode) (op : Op) (info : FaultInfo) : State :=
  (s.addFault { code := code, op := op, info := info }).silent

/-- `refuse` (R233): `S.refused` is set and nothing else of the spec's state changes (log 10). -/
def refuse (s : State) (r : RefuseReason) : State := { s with refused := true, label := .refused r }

/-! ### Enabling -/

/-- R233: from a refused state no step is enabled. -/
def State.live (s : State) : Bool := !s.refused

/-- R21: while `fr_busy`, `APP` may take FRAME_STEP only. -/
def State.appMay (s : State) : Bool := s.live && !s.frBusy

/-- A step that exists only under its enabling condition (R93). -/
def whenEnabled (en : Bool) (s : State) (after : State) : Host.Outcome State Fault Refusal :=
  .next (if en then after else s.noStep)

/-- R234: the five transport commands raise NOT_READY unless `init_state = READY` (D5). -/
def whenReady (op : Op) (s : State) (after : State) : State :=
  if s.initState = .ready then after else raiseApp s .notReady op (.mnemonic op)

/-! ### Draws -/

/-- `draw : Bool` (R10): the outcome the environment has fixed, or a free value where it has fixed none (log 6). -/
def State.drawBool (s : State) : Bool :=
  match s.draws with
  | b :: _ => b
  | [] => Config.freeBool s.drawCount

/-- The draw has been made. -/
def State.afterDraw (s : State) : State := { s with draws := s.draws.tail, drawCount := s.drawCount + 1 }

/-- `n` fresh byte draws from draw number `base` on (log 7). -/
def drawBytes (base n : Nat) : List Byte := (List.range n).map (fun i => Config.freeByte (base + i))

/-- The draws of RESET for the unspecified fields (R260; log 7). -/
def drawUnspecified (k : Cfg) (base : Nat) : Unspecified where
  txData := drawBytes base k.cap
  rxData := drawBytes (base + k.cap) k.cap
  rxByte := Config.freeByte (base + 2 * k.cap)
  psBuf := drawBytes (base + 2 * k.cap + 1) maxPayload
  prev := (List.range k.nCh).map (fun i => uN k.tsW (Config.freeStamp (base + 2 * k.cap + 1 + maxPayload + i)))

/-- How many draws `drawUnspecified` makes. -/
def unspecifiedDraws (k : Cfg) : Nat := 2 * k.cap + 1 + maxPayload + k.nCh

/-! ### The hardware start helpers -/

/-- `START_TX(b)` (R124). -/
def startTx (s : State) (b : Byte) : State := { s with txInflight := some b }

/-- `START_RX()` (R124). -/
def startRx (s : State) : State := { s with rxArmed := true }

end Sys2Proof.Machine
end

