-- ==== Sys2Proof/Machine/Buffer.lean ====
section
/-! DEFINITION. CB_WRITE and CB_READ as top-level commands (30_encoding.md R92): refused INTERNAL_OP, whoever issues them. What they do inside
other steps (R100, R101) is `cbWrite` and `cbRead` of Ops.lean. -/
namespace Sys2Proof.Machine

/-- `CB_WRITE` issued as a command: `refuse INTERNAL_OP` (R92). -/
def execCbWrite (_u : BufSel) (_d : Byte) (s : State) : Host.Outcome State Fault Refusal :=
  whenEnabled s.live s (refuse s .internalOp)

/-- `CB_READ` issued as a command: `refuse INTERNAL_OP` (R92). -/
def execCbRead (_u : BufSel) (s : State) : Host.Outcome State Fault Refusal :=
  whenEnabled s.live s (refuse s .internalOp)

end Sys2Proof.Machine
end

