-- ==== Sys2Proof/Machine/Encoder.lean ====
section
/-! DEFINITION. The quadrature decoder and the button latch (45_quadrature_decoder.md R210 to R217). -/
namespace Sys2Proof.Machine

/-- `EV_ENC_EDGE ab` (R210): the count moves by `qdelta`, `enc_last` is the sample on every edge, then the lap reset. -/
def execEvEncEdge (ab : Pins) (s : State) : Host.Outcome State Fault Refusal :=
  whenEnabled s.live s
    { s with encCount := lap s.cfg.encLimit (s.encCount + qdelta s.encLast ab), encLast := ab }.silent

/-- `ENC_GET_POSITION` (R213). -/
def execEncGetPosition (s : State) : Host.Outcome State Fault Refusal :=
  whenEnabled s.appMay s (s.ret (.int (position s.cfg.encDiv s.encCount)))

/-- `ENC_RESET_POSITION` (R215). -/
def execEncResetPosition (s : State) : Host.Outcome State Fault Refusal :=
  whenEnabled s.appMay s ({ s with encCount := 0 }.ret .none)

/-- `EV_BTN_PRESS` (R216). -/
def execEvBtnPress (s : State) : Host.Outcome State Fault Refusal :=
  whenEnabled s.live s { s with btnLatch := true }.silent

/-- `ENC_BUTTON_PRESSED` (R217): read and clear. -/
def execEncButtonPressed (s : State) : Host.Outcome State Fault Refusal :=
  whenEnabled s.appMay s ({ s with btnLatch := false }.ret (.bool s.btnLatch))

end Sys2Proof.Machine
end

