-- ==== Sys2Proof/Machine/Framer.lean ====
section
/-! DEFINITION. The packet framer (42_packet_framer.md R154 to R156), under both send policies. -/
namespace Sys2Proof.Machine

/-- R154, TWO_PHASE: the whole frame or nothing. -/
def sendTwoPhase (len : Byte) (payload : List Byte) (s : State) : State :=
  if s.tx.free s.cfg.cap < len.toNat + frameOverhead then s.ret .insufficientSpace
  else { s with tx := cbWriteAll s.cfg.cap s.tx (frame s.cfg payload) }.ret .ok

/-- R154, AS_IMPLEMENTED: the puts follow as FRAME_STEPs; there is no result yet. -/
def sendAsImplemented (payload : List Byte) (s : State) : State :=
  { s with frSeq := frame s.cfg payload, frPos := 0, frBusy := true }.silent

/-- R154 after the NOT_READY check: a length that differs from the payload's raises BAD_LENGTH (D25). -/
def sendFrame (len : Byte) (payload : List Byte) (s : State) : State :=
  if len.toNat = payload.length then
    match s.cfg.sendPolicy with
    | .twoPhase => sendTwoPhase len payload s
    | .asImplemented => sendAsImplemented payload s
  else raiseApp s .badLength .frameSend (.lengths len payload.length)

/-- `FRAME_SEND len, payload` (R154). -/
def execFrameSend (len : Byte) (payload : List Byte) (s : State) : Host.Outcome State Fault Refusal :=
  whenEnabled s.appMay s (whenReady .frameSend s (sendFrame len payload s))

/-- R156: the send is over. -/
def endSend (s : State) : State := { s with frBusy := false, frSeq := [], frPos := 0 }.ret .done

/-- R156: the byte that the next put takes. -/
def frameByte (s : State) : Byte := s.frSeq.getD s.frPos (Config.noSlotByte s.frPos)

/-- R156 after the put: `putFull` says that the put returned FULL, `cont` is the draw made then. -/
def afterPut (putFull cont : Bool) (s : State) : State :=
  if sendEnds putFull cont s.frPos s.frSeq.length then endSend s else s.ret .none

/-- R156: one put; a put that returns FULL draws whether the send goes on. -/
def putFrameByte (s : State) : State :=
  match cbWrite s.cfg.cap s.tx (frameByte s) with
  | (true, tx) => afterPut false true { s with tx := tx, frPos := s.frPos + 1 }
  | (false, tx) => afterPut true s.drawBool { s with tx := tx, frPos := s.frPos + 1 }.afterDraw

/-- `FRAME_STEP` (R156). -/
def execFrameStep (s : State) : Host.Outcome State Fault Refusal := whenEnabled (s.live && s.frBusy) s (putFrameByte s)

end Sys2Proof.Machine
end

