-- ==== Sys2Proof/Machine/ParserUnit.lean ====
section
/-! DEFINITION. The receive-side frame parser (43_rx_frame_parser.md R171 to R173). -/
namespace Sys2Proof.Machine

/-- R171: the payload the parser has collected, `[ps_buf[0], ..., ps_buf[ps_len - 1]]`. -/
def Parser.payload (p : Parser) : List Byte := (List.range p.len.toNat).map p.slot

/-- R171: the parser after it consumes the byte `x`, and the payload it emits, if any. -/
def parseByte (k : Cfg) (p : Parser) (x : Byte) : Parser × Option (List Byte) :=
  match p.state with
  | .awaitHead => (if x = k.headByte then { p with state := .awaitLength } else p, none)
  | .awaitLength =>
    ({ p with len := x, cnt := 0, acc := 0#8, state := if x = 0#8 then .awaitTail else .awaitPayload }, none)
  | .awaitPayload =>
    ({ p with
        buf := p.buf.set p.cnt x, acc := cksStep p.acc x, cnt := p.cnt + 1
        state := if p.cnt + 1 = p.len.toNat then .awaitTail else .awaitPayload }, none)
  | .awaitTail => ({ p with state := if x = k.tailByte then .awaitChecksum else .awaitHead }, none)
  | .awaitChecksum => ({ p with state := if x = p.acc then .awaitCr else .awaitHead }, none)
  | .awaitCr => ({ p with state := if x = k.crByte then .awaitLf else .awaitHead }, none)
  | .awaitLf => ({ p with state := .awaitHead }, if x = k.lfByte then some p.payload else none)

/-- R171: an emitted payload is recorded and returned; a byte that completes no frame answers `OK`. -/
def emitFrame (out : Option (List Byte)) (s : State) : State :=
  match out with
  | some p => { s with rxFrames := s.rxFrames ++ [p] }.ret (.frame p)
  | none => s.ret .ok

/-- R171 after the NOT_READY check: at most one byte of `rx` is consumed. -/
def parseNext (s : State) : State :=
  match cbRead s.cfg.cap s.rx with
  | (none, _) => s.ret .empty
  | (some x, rx) => emitFrame (parseByte s.cfg s.ps x).2 { s with rx := rx, ps := (parseByte s.cfg s.ps x).1 }

/-- `PARSER_STEP` (R171). -/
def execParserStep (s : State) : Host.Outcome State Fault Refusal :=
  whenEnabled s.appMay s (whenReady .parserStep s (parseNext s))

end Sys2Proof.Machine
end

