-- ==== Sys2Proof/Machine/Power.lean ====
section
/-! DEFINITION. RESET (70_reset_and_hazards.md R260). -/
namespace Sys2Proof.Machine

/-- R260: every field takes its reset value (R40), the unspecified ones are drawn, `enc_last` is the pin sample. The configuration and the
environment's inputs are no part of the state that a reset resets (R287). -/
def resetTo (ab : Pins) (s : State) : State :=
  { State.afterReset s.cfg ab (drawUnspecified s.cfg s.drawCount) with
    label := .silent, sched := s.sched, draws := s.draws, drawCount := s.drawCount + unspecifiedDraws s.cfg }

/-- `RESET ab` (R260): enabled in every state that is not refused. -/
def execReset (ab : Pins) (s : State) : Host.Outcome State Fault Refusal := whenEnabled s.live s (resetTo ab s)

end Sys2Proof.Machine
end

