-- ==== Sys2Proof/Machine/TouchUnit.lean ====
section
/-! DEFINITION. The moving-average touch detector (44_touch_detector.md R190, R191). -/
namespace Sys2Proof.Machine

/-- R190: one sample enters the window. `sum` is stored in `SUM_W` bits and `avg` in `TS_W` bits, and neither wraps in a reachable
state (R190 (d); log 13). -/
def addSample (k : Cfg) (t : Touch) (delta : Nat) : Touch :=
  let without := uN k.sumW ((t.sum : Int) - (t.slot t.idx : Int))
  let sum := uN k.sumW ((without : Int) + (delta : Int))
  { t with win := t.win.set t.idx delta, sum := sum, idx := nextIndex k.winN t.idx, avg := uN k.tsW ((sum / k.winN : Nat) : Int) }

/-- R190: the time from `prev` to `now`, modulo `2^TS_W` (D9). -/
def elapsed (k : Cfg) (prev now : Nat) : Nat := uN k.tsW ((now : Int) - (prev : Int))

/-- R190: the first edge is the baseline, every later edge records the elapsed time. -/
def touchEdge (k : Cfg) (t : Touch) (now : Nat) : Touch :=
  let now := uN k.tsW now
  if t.first then { t with prevTs := now, first := false }
  else addSample k { t with prevTs := now } (elapsed k t.prevTs now)

/-- R190 on the machine. -/
def edgeOn (c : Channel) (now : Nat) (s : State) : State :=
  match s.chan c with
  | some t => (s.setChan c (touchEdge s.cfg t now)).silent
  | none => s.noStep

/-- `EV_TOUCH_EDGE c, now` (R190). -/
def execEvTouchEdge (c : Channel) (now : Nat) (s : State) : Host.Outcome State Fault Refusal :=
  whenEnabled (s.live && s.hasChan c) s (edgeOn c now s)

/-- R191: the transition is applied, then the stored state is what is returned (D14). -/
def touchPoll (k : Cfg) (c : Channel) (t : Touch) : Touch :=
  { t with touched := touchedAfterPoll t.touched t.avg (thresh k c) }

/-- R191 on the machine. -/
def pollOn (c : Channel) (s : State) : State :=
  match s.chan c with
  | some t => (s.setChan c (touchPoll s.cfg c t)).ret (.bool (touchPoll s.cfg c t).touched)
  | none => s.noStep

/-- `TOUCH_IS_TOUCHED c` (R191). -/
def execTouchIsTouched (c : Channel) (s : State) : Host.Outcome State Fault Refusal :=
  whenEnabled (s.appMay && s.hasChan c) s (pollOn c s)

end Sys2Proof.Machine
end

