-- ==== Sys2Proof/Machine/Uart.lean ====
section
/-! DEFINITION. The UART transport (41_uart_transport.md): the application operations R120 to R123, the interrupt handlers R125 and R126, the
hardware and peer steps R130 to R133. -/
namespace Sys2Proof.Machine

/-- R120: the writes of a successful initialisation. -/
def linkUp (s : State) : State :=
  { s with
    irqEnTx := true, irqEnRx := true
    tx := cbClear s.tx, rx := cbClear s.rx
    txState := .yielded, rxState := .yielded
    txInflight := none, txIrq := false, rxArmed := false, rxIrq := false
    initState := .ready }

/-- R120 once the outcome `hwOk` of the hardware configuration is known. -/
def initWith (hwOk : Bool) (s : State) : State :=
  if hwOk then (linkUp s).ret .ok else raiseApp { s with initState := .failed } .initFailed .uartInit .none

/-- R120: idempotent after success, no retry after failure (D6), else the draw decides. -/
def initLink (s : State) : State :=
  match s.initState with
  | .ready => s.ret .ok
  | .failed => s.ret .error
  | .uninit => initWith s.drawBool s.afterDraw

/-- `UART_INIT` (R120). -/
def execUartInit (s : State) : Host.Outcome State Fault Refusal := whenEnabled s.appMay s (initLink s)

/-- R121: enqueue a byte in `tx`. -/
def putByte (d : Byte) (s : State) : State :=
  { s with tx := (cbWrite s.cfg.cap s.tx d).2 }.ret (writeResult (cbWrite s.cfg.cap s.tx d).1)

/-- `UART_PUT d` (R121). -/
def execUartPut (d : Byte) (s : State) : Host.Outcome State Fault Refusal :=
  whenEnabled s.appMay s (whenReady .uartPut s (putByte d s))

/-- R122: dequeue a byte of `rx`. -/
def getByte (s : State) : State :=
  { s with rx := (cbRead s.cfg.cap s.rx).2 }.ret (readResult (cbRead s.cfg.cap s.rx).1)

/-- `UART_GET` (R122). -/
def execUartGet (s : State) : Host.Outcome State Fault Refusal :=
  whenEnabled s.appMay s (whenReady .uartGet s (getByte s))

/-- Take the next byte of `tx` and hand it to the hardware (R123, R125). -/
def sendNext (s : State) : State :=
  match cbRead s.cfg.cap s.tx with
  | (some b, tx) => startTx { s with tx := tx } b
  | (none, tx) => { s with tx := tx }

/-- R123, the TX part. -/
def pumpTx (s : State) : State :=
  if s.txState = .yielded ∧ s.tx.empty = false then sendNext { s with txState := .active } else s

/-- R123, the RX part. -/
def pumpRx (s : State) : State :=
  if s.rxState = .yielded ∧ s.rx.full = false then startRx { s with rxState := .active } else s

/-- `UART_PUMP` (R123): TX first, then RX (D44). -/
def execUartPump (s : State) : Host.Outcome State Fault Refusal :=
  whenEnabled s.appMay s (whenReady .uartPump s ((pumpRx (pumpTx s)).ret .none))

/-- R125: acknowledge, then yield or chain the next byte. -/
def txComplete (s : State) : State :=
  if s.tx.empty then { s with txIrq := false, txState := .yielded } else sendNext { s with txIrq := false }

/-- `EV_TX_COMPLETE` (R125). -/
def execEvTxComplete (s : State) : Host.Outcome State Fault Refusal :=
  whenEnabled (s.live && s.irqEnTx && s.txIrq) s (txComplete s).silent

/-- R126 after the received byte is stored: stop on a full buffer, else chain the next receive. -/
def rxContinue (s : State) : State :=
  if s.rx.full then { s with rxState := .yielded } else startRx s

/-- R126: acknowledge, store the byte, then stop or chain; a byte that finds `rx` full is a fault. -/
def rxComplete (s : State) : State :=
  match cbWrite s.cfg.cap s.rx s.rxData with
  | (true, rx) => (rxContinue { s with rxIrq := false, rx := rx }).silent
  | (false, _) => raiseHandler { s with rxIrq := false } .rxLost .evRxComplete (.byte s.rxData)

/-- `EV_RX_COMPLETE` (R126). -/
def execEvRxComplete (s : State) : Host.Outcome State Fault Refusal :=
  whenEnabled (s.live && s.irqEnRx && s.rxIrq) s (rxComplete s)

/-- R130: the byte in flight is on the wire and the transmit-complete interrupt is pending. -/
def txDone (s : State) : State :=
  match s.txInflight with
  | some b => { s with wireOut := s.wireOut ++ [b], txInflight := none, txIrq := true }.silent
  | none => s.noStep

/-- `HW_TX_DONE` (R130). -/
def execHwTxDone (s : State) : Host.Outcome State Fault Refusal := whenEnabled (s.live && s.txInflight.isSome) s (txDone s)

/-- R131: the armed receive takes the peer's oldest byte and the receive-complete interrupt is pending. -/
def rxAccept (s : State) : State :=
  match s.wireIn with
  | b :: rest => { s with rxData := b, wireIn := rest, rxArmed := false, rxIrq := true }.silent
  | [] => s.noStep

/-- `HW_RX_ACCEPT` (R131). -/
def execHwRxAccept (s : State) : Host.Outcome State Fault Refusal :=
  whenEnabled (s.live && s.rxArmed && !s.wireIn.isEmpty) s (rxAccept s)

/-- R132: the peer's oldest byte is lost. -/
def rxDrop (s : State) : State :=
  match s.wireIn with
  | b :: rest => { s with wireLost := s.wireLost ++ [b], wireIn := rest }.silent
  | [] => s.noStep

/-- `HW_RX_DROP` (R132): no such step with `RX_UNARMED = HELD`. -/
def execHwRxDrop (s : State) : Host.Outcome State Fault Refusal :=
  whenEnabled (s.live && s.cfg.rxUnarmed == .mayDrop && !s.rxArmed && !s.wireIn.isEmpty) s (rxDrop s)

/-- `PEER_SEND d` (R133). -/
def execPeerSend (d : Byte) (s : State) : Host.Outcome State Fault Refusal :=
  whenEnabled s.live s { s with wireIn := s.wireIn ++ [d] }.silent

end Sys2Proof.Machine
end

