-- ==== Sys2Proof/Machine/Dispatch.lean ====
section
/-! DEFINITION. Which meaning each instruction has. -/
namespace Sys2Proof.Machine

/-- One arm per row of spec/opcode_table.json. -/
def exec (i : Instr) (s : State) : Host.Outcome State Fault Refusal :=
  match i with
  | .uartInit => Sys2Proof.Machine.execUartInit s
  | .uartPut d => Sys2Proof.Machine.execUartPut d s
  | .uartGet => Sys2Proof.Machine.execUartGet s
  | .uartPump => Sys2Proof.Machine.execUartPump s
  | .frameSend len payload => Sys2Proof.Machine.execFrameSend len payload s
  | .frameStep => Sys2Proof.Machine.execFrameStep s
  | .parserStep => Sys2Proof.Machine.execParserStep s
  | .touchIsTouched c => Sys2Proof.Machine.execTouchIsTouched c s
  | .encGetPosition => Sys2Proof.Machine.execEncGetPosition s
  | .encResetPosition => Sys2Proof.Machine.execEncResetPosition s
  | .encButtonPressed => Sys2Proof.Machine.execEncButtonPressed s
  | .evTxComplete => Sys2Proof.Machine.execEvTxComplete s
  | .evRxComplete => Sys2Proof.Machine.execEvRxComplete s
  | .evTouchEdge c now => Sys2Proof.Machine.execEvTouchEdge c now s
  | .evEncEdge ab => Sys2Proof.Machine.execEvEncEdge ab s
  | .evBtnPress => Sys2Proof.Machine.execEvBtnPress s
  | .cbWrite u d => Sys2Proof.Machine.execCbWrite u d s
  | .cbRead u => Sys2Proof.Machine.execCbRead u s
  | .hwTxDone => Sys2Proof.Machine.execHwTxDone s
  | .hwRxAccept => Sys2Proof.Machine.execHwRxAccept s
  | .hwRxDrop => Sys2Proof.Machine.execHwRxDrop s
  | .peerSend d => Sys2Proof.Machine.execPeerSend d s
  | .reset ab => Sys2Proof.Machine.execReset ab s

end Sys2Proof.Machine
end

