-- ==== Sys2Proof/Machine/Fetch.lean ====
section
/-! DEFINITION. How a step finds what to run. The core fetches no instruction (10_state.md R36); the order of steps is the environment's
schedule (R20, R287), held in `sched` (log 3). -/
namespace Sys2Proof.Machine

/-- What the next offer of the schedule comes to. -/
inductive Fetched where
  /-- The run has ended (R233). -/
  | ended
  /-- No instruction runs; the state after the step. -/
  | settled (t : State)
  /-- An instruction runs, in this state. -/
  | run (i : Instr) (s : State)

/-- An offer of the schedule (R93, R236): an unassigned opcode is refused first, whoever offers it; a command offered by another agent
than its own has no step. -/
def takeOffer (o : Offer) (s : State) : Fetched :=
  match decode o.cmd with
  | .error .badOpcode => .settled (refuse s .badOpcode)
  | .ok i => if mayTake o.agent i then .run i s else .settled s.noStep

/-- R233, R7, R287: a refused run has ended; a configuration that breaks R7 is refused before the first step; else the next offer is
taken, and where there is none nothing happens. -/
def fetch (s : State) : Fetched :=
  if s.refused then .ended
  else if s.cfg.valid then
    match s.sched with
    | [] => .settled s.noStep
    | o :: rest => takeOffer o { s with sched := rest }
  else .settled (refuse s .badConfig)

/-- `s` with one more offer at the head of its schedule. -/
def State.offered (s : State) (o : Offer) : State := { s with sched := o :: s.sched }

end Sys2Proof.Machine
end

