-- ==== Sys2Proof/Machine/Step.lean ====
section
/-! DEFINITION. One step of the machine. -/
namespace Sys2Proof.Machine

/-- One indivisible step (10_state.md R20): the next offer of the schedule. -/
def step (s : State) : Host.Outcome State Fault Refusal :=
  match fetch s with
  | .ended => .refused .runRefused
  | .settled t => .next t
  | .run i t => exec i t

/-- `s` with the command whose opcode bits are `w` offered next, by its own agent (log 3). -/
def State.withFetchWord (s : State) (nbits w : Nat) : State := s.offered (offerOf (commandOfWord nbits w))

end Sys2Proof.Machine
end

