-- ==== Sys2Proof/Machine/ProgramText.lean ====
section
/-! DEFINITION. The program notation of 30_encoding.md R95 and the pseudo-operations of R96. No step reads them: they say which
instructions a program or a schedule of the environment (R287) holds. What R95 leaves open in the notation is log 17. -/
namespace Sys2Proof.Machine

/-! ### Numbers -/

/-- A digit in base 16; the smaller bases use the smaller ones. -/
def digitValue (ch : Char) : Option Nat :=
  if '0' ≤ ch ∧ ch ≤ '9' then some (ch.toNat - '0'.toNat)
  else if 'a' ≤ ch ∧ ch ≤ 'f' then some (ch.toNat - 'a'.toNat + 10)
  else if 'A' ≤ ch ∧ ch ≤ 'F' then some (ch.toNat - 'A'.toNat + 10)
  else none

/-- The digits of a number in base `base`, most significant first, after the value `acc` of those before. -/
def digitsFrom (base : Nat) : Nat → List Char → Option Nat
  | acc, [] => some acc
  | acc, ch :: l =>
    match digitValue ch with
    | some v => if v < base then digitsFrom base (acc * base + v) l else none
    | none => none

/-- At least one digit. -/
def digits (base : Nat) (l : List Char) : Option Nat := if l.isEmpty then none else digitsFrom base 0 l

/-- R95: a number in decimal, `0x` hex or `0b` binary. -/
def numberOf : List Char → Option Nat
  | '0' :: 'x' :: l => digits 16 l
  | '0' :: 'b' :: l => digits 2 l
  | l => digits 10 l

/-- A number below `2 ^ n`. -/
def wordOf (n : Nat) (l : List Char) : Option (BitVec n) :=
  match numberOf l with
  | some v => if v < 2 ^ n then some (BitVec.ofNat n v) else none
  | none => none

/-- The operand `c` (R74). -/
def channelOf (l : List Char) : Option Channel :=
  match numberOf l with
  | some 0 => some .zero
  | some 1 => some .one
  | _ => none

/-- The operand `u` (R74), by its number. -/
def bufSelOf (l : List Char) : Option BufSel :=
  match numberOf l with
  | some 0 => some .tx
  | some 1 => some .rx
  | _ => none

/-! ### Lines -/

/-- The marks of a line: words, commas and the brackets of a payload. -/
inductive Token where
  | word (l : List Char)
  | comma
  | opening
  | closing
  deriving DecidableEq, Repr

/-- The word read so far, kept in reverse, before the marks that follow it. -/
def endWord (rev : List Char) (rest : List Token) : List Token := if rev.isEmpty then rest else .word rev.reverse :: rest

/-- The marks of a line; blanks separate words. -/
def tokensFrom : List Char → List Char → List Token
  | rev, [] => endWord rev []
  | rev, ' ' :: l => endWord rev (tokensFrom [] l)
  | rev, ',' :: l => endWord rev (.comma :: tokensFrom [] l)
  | rev, '[' :: l => endWord rev (.opening :: tokensFrom [] l)
  | rev, ']' :: l => endWord rev (.closing :: tokensFrom [] l)
  | rev, ch :: l => tokensFrom (ch :: rev) l

/-- The bytes of a payload that is not empty, up to its closing bracket, which ends the line. -/
def payloadItems : List Token → Option (List Byte)
  | [.word w, .closing] => (wordOf 8 w).map (fun x => [x])
  | .word w :: .comma :: l =>
    match wordOf 8 w, payloadItems l with
    | some x, some p => some (x :: p)
    | _, _ => none
  | _ => none

/-- The bytes of a payload after its opening bracket. -/
def payloadOf : List Token → Option (List Byte)
  | [.closing] => some []
  | l => payloadItems l

/-- A command with no operand. -/
def plainCommand (m : List Char) : Option Instr :=
  if m = "UART_INIT".toList then some .uartInit
  else if m = "UART_GET".toList then some .uartGet
  else if m = "UART_PUMP".toList then some .uartPump
  else if m = "FRAME_STEP".toList then some .frameStep
  else if m = "PARSER_STEP".toList then some .parserStep
  else if m = "ENC_GET_POSITION".toList then some .encGetPosition
  else if m = "ENC_RESET_POSITION".toList then some .encResetPosition
  else if m = "ENC_BUTTON_PRESSED".toList then some .encButtonPressed
  else if m = "EV_TX_COMPLETE".toList then some .evTxComplete
  else if m = "EV_RX_COMPLETE".toList then some .evRxComplete
  else if m = "EV_BTN_PRESS".toList then some .evBtnPress
  else if m = "HW_TX_DONE".toList then some .hwTxDone
  else if m = "HW_RX_ACCEPT".toList then some .hwRxAccept
  else if m = "HW_RX_DROP".toList then some .hwRxDrop
  else none

/-- A command with one operand. -/
def unaryCommand (m a : List Char) : Option Instr :=
  if m = "UART_PUT".toList then (wordOf 8 a).map .uartPut
  else if m = "PEER_SEND".toList then (wordOf 8 a).map .peerSend
  else if m = "TOUCH_IS_TOUCHED".toList then (channelOf a).map .touchIsTouched
  else if m = "EV_ENC_EDGE".toList then (wordOf 2 a).map .evEncEdge
  else if m = "RESET".toList then (wordOf 2 a).map .reset
  else if m = "CB_READ".toList then (bufSelOf a).map .cbRead
  else none

/-- A command with two operands, neither of them a payload. -/
def binaryCommand (m a b : List Char) : Option Instr :=
  if m = "EV_TOUCH_EDGE".toList then
    match channelOf a, numberOf b with
    | some c, some now => some (.evTouchEdge c now)
    | _, _ => none
  else if m = "CB_WRITE".toList then
    match bufSelOf a, wordOf 8 b with
    | some u, some d => some (.cbWrite u d)
    | _, _ => none
  else none

/-- R96: `SEND p`, for a payload whose length is a byte. -/
def sendOf (p : List Byte) : Option (List Instr) :=
  if p.length ≤ maxPayload then some [.frameSend (BitVec.ofNat 8 p.length) p] else none

/-- R96: `PUTS [d0, ..., dk]`, separate commands of APP. -/
def putsOf (p : List Byte) : List Instr := p.map .uartPut

/-- R96, the pseudo-operations of APP with their payload. -/
def pseudoCommand (m : List Char) (p : List Byte) : Option (List Instr) :=
  if m = "SEND".toList then sendOf p
  else if m = "PUTS".toList then (if p.isEmpty then none else some (putsOf p))
  else none

/-- `FRAME_SEND len, payload`. -/
def frameCommand (m a : List Char) (p : Option (List Byte)) : Option (List Instr) :=
  if m = "FRAME_SEND".toList then
    match wordOf 8 a, p with
    | some len, some payload => some [.frameSend len payload]
    | _, _ => none
  else none

/-- The marks of one line as the instructions it stands for; none where it is no line of R95 or R96. -/
def lineOf : List Token → Option (List Instr)
  | [] => some []
  | [.word m] => (plainCommand m).map (fun i => [i])
  | [.word m, .word a] => (unaryCommand m a).map (fun i => [i])
  | [.word m, .word a, .comma, .word b] => (binaryCommand m a b).map (fun i => [i])
  | .word m :: .word a :: .comma :: .opening :: l => frameCommand m a (payloadOf l)
  | .word m :: .opening :: l => (payloadOf l).bind (pseudoCommand m)
  | _ => none

/-- R95: one line of a program; a line starting with `;` is a comment. -/
def instrsOfLine : List Char → Option (List Instr)
  | ';' :: _ => some []
  | l => lineOf (tokensFrom [] l)

/-- The lines of a text; the line read so far is kept in reverse. -/
def linesFrom : List Char → List Char → List (List Char)
  | rev, [] => [rev.reverse]
  | rev, '\n' :: l => rev.reverse :: linesFrom [] l
  | rev, ch :: l => linesFrom (ch :: rev) l

/-- The instructions of a list of lines, none where a line is in no form of R95 or R96. -/
def instrsOfLines : List (List Char) → Option (List Instr)
  | [] => some []
  | x :: l =>
    match instrsOfLine x, instrsOfLines l with
    | some i, some j => some (i ++ j)
    | _, _ => none

/-- R95: a program, one command per line. -/
def programOf (text : String) : Option (List Instr) := instrsOfLines (linesFrom [] text.toList)

/-- R21, R287: the offers by which an agent takes its program, in order. -/
def offersBy (a : Agent) (program : List Instr) : List Offer := program.map (fun i => { agent := a, cmd := encode i })

/-! ### DRAIN_TX -/

/-- Rounds of HW_TX_DONE and EV_TX_COMPLETE. -/
def drainRounds (n : Nat) : List Instr := (List.replicate n [Instr.hwTxDone, .evTxComplete]).flatten

/-- R96: `DRAIN_TX`, the alternating HW_TX_DONE and EV_TX_COMPLETE steps that empty an active TX direction (R135): a schedule, which
depends on the state it starts from. -/
def drainTx (s : State) : List Instr :=
  match s.txInflight with
  | some _ => drainRounds (s.tx.count s.cfg.cap + 1)
  | none => if s.txIrq then .evTxComplete :: drainRounds (s.tx.count s.cfg.cap) else []

end Sys2Proof.Machine
end

