-- ==== Sys2Proof/Safety.lean ====
section
/-! DEFINITION. What claims about the core are stated in: when each step is enabled (30_encoding.md R93), the invariants of 10_state.md R41
to R43, sequences of steps, quiescence (70_reset_and_hazards.md R286), fairness (41_uart_transport.md R134). -/
namespace Sys2Proof.Safety
open Sys2Proof.Machine

/-! ### Enabling -/

/-- The enabling condition of each instruction, read from the operation rules. CB_WRITE and CB_READ have none: they are refused
(R92). From a refused state no step is enabled (R233). A touch command needs its channel (log 2). -/
def enabled (i : Instr) (s : State) : Bool :=
  !s.refused &&
    match i with
    | .uartInit | .uartPut _ | .uartGet | .uartPump | .frameSend _ _ | .parserStep | .encGetPosition | .encResetPosition
    | .encButtonPressed => !s.frBusy
    | .touchIsTouched c => !s.frBusy && s.hasChan c
    | .evTouchEdge c _ => s.hasChan c
    | .frameStep => s.frBusy
    | .evTxComplete => s.irqEnTx && s.txIrq
    | .evRxComplete => s.irqEnRx && s.rxIrq
    | .hwTxDone => s.txInflight.isSome
    | .hwRxAccept => s.rxArmed && !s.wireIn.isEmpty
    | .hwRxDrop => s.cfg.rxUnarmed == .mayDrop && !s.rxArmed && !s.wireIn.isEmpty
    | .evEncEdge _ | .evBtnPress | .peerSend _ | .reset _ => true
    | .cbWrite _ _ | .cbRead _ => true

/-- The interrupt handlers (R240). -/
def isHandler : Instr → Bool
  | .evTxComplete | .evRxComplete | .evTouchEdge _ _ | .evEncEdge _ | .evBtnPress => true
  | .uartInit | .uartPut _ | .uartGet | .uartPump | .frameSend _ _ | .frameStep | .parserStep | .touchIsTouched _ | .encGetPosition
  | .encResetPosition | .encButtonPressed | .cbWrite _ _ | .cbRead _ | .hwTxDone | .hwRxAccept | .hwRxDrop | .peerSend _
  | .reset _ => false

/-! ### Invariants -/

/-- R41 and R24, for one buffer of capacity `cap`. -/
abbrev BufferInv (cap : Nat) (b : Cb) : Prop :=
  b.data.length = cap ∧ b.head < cap ∧ b.tail < cap ∧ ¬(b.full = true ∧ b.empty = true)
    ∧ (b.head = b.tail ↔ (b.full = true ∨ b.empty = true))

/-- R42, with the enable bits that go with READY (R26, R241) and the buffers that stay empty until then (R121, R126). -/
abbrev TransportInv (s : State) : Prop :=
  (s.txState = .active ↔ (s.txInflight.isSome = true ∨ s.txIrq = true)) ∧ ¬(s.txInflight.isSome = true ∧ s.txIrq = true)
    ∧ (s.rxState = .active ↔ (s.rxArmed = true ∨ s.rxIrq = true)) ∧ ¬(s.rxArmed = true ∧ s.rxIrq = true)
    ∧ (s.rxState = .active → s.rx.full = false)
    ∧ (s.initState ≠ .ready → s.txState = .yielded ∧ s.rxState = .yielded ∧ s.tx.empty = true ∧ s.rx.empty = true)
    ∧ (s.initState = .ready ↔ s.irqEnTx = true) ∧ (s.initState = .ready ↔ s.irqEnRx = true)

/-- R43, for one touch channel, with the widths of R30. -/
abbrev TouchInv (k : Cfg) (t : Touch) : Prop :=
  t.win.length = k.winN ∧ t.idx < k.winN ∧ t.sum = t.win.sum ∧ t.avg = t.sum / k.winN
    ∧ (∀ x ∈ t.win, x < 2 ^ k.tsW) ∧ t.prevTs < 2 ^ k.tsW

/-- R43 and R31, the encoder count's range. -/
abbrev EncoderInv (limit : Nat) (count : Int) : Prop := -((limit : Int) - 1) ≤ count ∧ count ≤ (limit : Int) - 1

/-- R28, R155, R156: the framer sequencer. -/
abbrev FramerInv (s : State) : Prop :=
  s.frSeq.length ≤ maxPayload + frameOverhead
    ∧ (s.frBusy = true → s.frPos < s.frSeq.length ∧ s.cfg.sendPolicy = .asImplemented ∧ s.initState = .ready)
    ∧ (s.frBusy = false → s.frSeq = [] ∧ s.frPos = 0)

/-- R29, R171: the parser has collected `cnt` bytes of `len`, all of them when it awaits the trailer, and `acc` is their checksum. -/
abbrev ParserInv (p : Parser) : Prop :=
  p.buf.length = maxPayload ∧ p.cnt ≤ p.len.toNat ∧ (p.state = .awaitPayload → p.cnt < p.len.toNat)
    ∧ (p.state = .awaitTail ∨ p.state = .awaitChecksum ∨ p.state = .awaitCr ∨ p.state = .awaitLf → p.cnt = p.len.toNat)
    ∧ p.acc = cks (p.buf.take p.cnt)

/-- R32, R128: the fault records are a set, and none is RX_LOST. -/
abbrev FaultInv (l : List FaultRecord) : Prop := l.Nodup ∧ ∀ f ∈ l, f.code ≠ .rxLost

/-- The invariant of the reachable states, for a configuration that R7 admits. -/
abbrev Inv (s : State) : Prop :=
  s.cfg.valid = true ∧ Memory.wf s = true ∧ BufferInv s.cfg.cap s.tx ∧ BufferInv s.cfg.cap s.rx ∧ TransportInv s
    ∧ (∀ t ∈ s.touch, TouchInv s.cfg t) ∧ EncoderInv s.cfg.encLimit s.encCount
    ∧ FramerInv s ∧ ParserInv s.ps ∧ FaultInv s.faults

/-! ### The byte streams -/

/-- The transmit path, oldest byte first: on the wire, in flight, unread in `tx` (R63). -/
def txPath (s : State) : List Byte := s.wireOut ++ s.txInflight.toList ++ s.tx.unread s.cfg.cap

/-- The receive path, oldest byte first: unread in `rx`, latched by the hardware, still at the peer (R63). -/
def rxPath (s : State) : List Byte :=
  s.rx.unread s.cfg.cap ++ (if s.rxIrq then [s.rxData] else []) ++ s.wireIn

/-- Two channels that differ at most in a `prev_ts` from before the first edge. -/
def SameChannel (t u : Touch) : Prop := u = { t with prevTs := u.prevTs } ∧ (t.first = false → u.prevTs = t.prevTs)

/-- R57: two states that differ at most in storage no rule reads before it is written: slots of `tx` and `rx` that hold no unread
byte, `ps_buf` from `ps_cnt` on, `rx_data` with no interrupt pending, `prev_ts` before the first edge. -/
def SameReadable (s t : State) : Prop :=
  t = { s with
        tx := { s.tx with data := t.tx.data }, rx := { s.rx with data := t.rx.data }
        ps := { s.ps with buf := t.ps.buf }, rxData := t.rxData, touch := t.touch }
    ∧ t.tx.unread t.cfg.cap = s.tx.unread s.cfg.cap ∧ t.rx.unread t.cfg.cap = s.rx.unread s.cfg.cap
    ∧ t.ps.buf.take t.ps.cnt = s.ps.buf.take s.ps.cnt ∧ (s.rxIrq = true → t.rxData = s.rxData)
    ∧ List.Forall₂ SameChannel s.touch t.touch

/-! ### Sequences -/

/-- One call of a buffer primitive: a write of a byte, or a read. -/
inductive BufferCall where
  | write (d : Byte)
  | read
  deriving DecidableEq, Repr

/-- A sequence of calls: the buffer after it, the bytes whose write was taken, and the bytes read, each oldest first (R61, R104). -/
def runCalls (cap : Nat) : List BufferCall → Cb → Cb × List Byte × List Byte
  | [], b => (b, [], [])
  | .write d :: l, b =>
    let r := runCalls cap l (cbWrite cap b d).2
    (r.1, (if (cbWrite cap b d).1 then d :: r.2.1 else r.2.1), r.2.2)
  | .read :: l, b =>
    let r := runCalls cap l (cbRead cap b).2
    (r.1, r.2.1, (cbRead cap b).1.toList ++ r.2.2)

/-- A sequence of instructions, each run to its end, stopping at a fault or a refusal. -/
def execAll : List Instr → State → Host.Outcome State Fault Refusal
  | [], s => .next s
  | i :: l, s =>
    match exec i s with
    | .next t => execAll l t
    | .fault r => .fault r
    | .refused r => .refused r

/-- The parser fed with a sequence of bytes: its state at the end and the payloads it emitted, oldest first. -/
def feedParser (k : Cfg) : List Byte → Parser → Parser × List (List Byte)
  | [], p => (p, [])
  | x :: l, p =>
    let r := feedParser k l (parseByte k p x).1
    (r.1, (parseByte k p x).2.toList ++ r.2)

/-- A touch channel after a sequence of edges at the given clock readings. -/
def feedEdges (k : Cfg) (t : Touch) (times : List Nat) : Touch := times.foldl (touchEdge k) t

/-- The elapsed times between consecutive clock readings, from the reading `prev` on. -/
def deltas (k : Cfg) : Nat → List Nat → List Nat
  | _, [] => []
  | prev, now :: l => elapsed k prev now :: deltas k now l

/-! ### Runs, quiescence and fairness -/

/-- R286: TX-quiescent. -/
def txQuiescent (s : State) : Bool := s.txState == .yielded && s.tx.empty

/-- R286: RX-quiescent. -/
def rxQuiescent (s : State) : Bool := s.wireIn.isEmpty && !enabled .evRxComplete s && !enabled .hwRxAccept s

/-- R286: quiescent: no `EV_TX_COMPLETE` is enabled either. The pin handlers' edges are the environment's (R240). -/
def quiescent (s : State) : Bool := txQuiescent s && rxQuiescent s && !enabled .evTxComplete s

/-- `n` steps, each of them a step of the core (R93): none where an offer has no step, or where the run ends before. -/
def takeSteps : Nat → State → Option State
  | 0, s => some s
  | n + 1, s =>
    match step s with
    | .next t => if t.label = .noStep then none else takeSteps n t
    | .fault _ => none
    | .refused _ => none

/-- The commands that an agent offers in a schedule, in order: its program (R21, R133). -/
def commandsOf (a : Agent) (l : List Offer) : List Command := (l.filter (fun o => o.agent == a)).map Offer.cmd

/-- R286: a schedule for APP's program and PEER's program, the steps of the other agents between them. -/
def ScheduleFor (app peer : List Instr) (l : List Offer) : Prop :=
  commandsOf .app l = app.map encode ∧ commandsOf .peer l = peer.map encode

/-- R286: the end state of a schedule: all its steps have been taken in its order, the programs with them, and the state is
quiescent, so no HW or handler step of the link is left. None where the schedule does not lead to one. -/
def endState (s : State) : Option State :=
  match takeSteps s.sched.length s with
  | some t => if quiescent t then some t else none
  | none => none

/-- R286: `t` is the end state of APP's program and PEER's program from `s`, under the schedule that `s` holds. -/
def EndOfProgram (app peer : List Instr) (s t : State) : Prop := ScheduleFor app peer s.sched ∧ endState s = some t

/-- An infinite run: the environment makes one offer at a time (R287), and no offer ends the run. -/
structure EnvRun where
  offer : Nat → Offer
  state : Nat → State
  follows : ∀ n, step ((state n).offered (offer n)) = .next (state (n + 1))

/-- The n-th offer of a run is the instruction `i`, by an agent that may take it. -/
def EnvRun.takes (r : EnvRun) (i : Instr) (n : Nat) : Prop :=
  decode (r.offer n).cmd = .ok i ∧ mayTake (r.offer n).agent i = true

/-- Weak fairness: a step that stays enabled is eventually taken (R134). -/
def EnvRun.fairTo (r : EnvRun) (i : Instr) : Prop :=
  ∀ n, (∀ m, n ≤ m → enabled i (r.state m) = true) → ∃ m, n ≤ m ∧ r.takes i m

/-- R134 (1): handler fairness. -/
def EnvRun.handlerFair (r : EnvRun) : Prop := r.fairTo .evTxComplete ∧ r.fairTo .evRxComplete

/-- R134 (2): hardware completion, assumed only where `HW_COMPLETES` is true. -/
def EnvRun.hardwareFair (r : EnvRun) : Prop :=
  (r.state 0).cfg.hwCompletes = true → r.fairTo .hwTxDone ∧ r.fairTo .hwRxAccept

end Sys2Proof.Safety
end

