-- ==== Sys2Proof/Certificates/Slice0/Obligations.lean ====
section
/-! DEFINITION. The statements for the provers. Every docstring names the rule of spec/ a statement formalises, and says where a clause rests
on a decision of the spec (92_eei_decisions.md) or on a choice of the model (notes/assumptions). A statement of the form
`t = { s with … }` is the frame: every field not named there is unchanged. -/
open Sys2Proof Sys2Proof.Machine Sys2Proof.Safety

/-! ### Encoding and the step -/

/-- A few rows of 30_encoding.md R72, with their operands. -/
def Obligations.TableRowsDecode : Prop :=
  decode { op := 0x01#8 } = .ok .uartInit ∧ decode { op := 0x02#8, d := 0x41#8 } = .ok (.uartPut 0x41#8)
    ∧ decode { op := 0x05#8, len := 2#8, payload := [0x41#8, 0x42#8] } = .ok (.frameSend 2#8 [0x41#8, 0x42#8])
    ∧ decode { op := 0x09#8 } = .ok (.touchIsTouched .one) ∧ decode { op := 0x0D#8 } = .ok .encResetPosition
    ∧ decode { op := 0x21#8 } = .ok .evRxComplete ∧ decode { op := 0x28#8, now := 1200 } = .ok (.evTouchEdge .zero 1200)
    ∧ decode { op := 0x32#8 } = .ok (.evEncEdge 0b10#2) ∧ decode { op := 0x43#8 } = .ok (.cbRead .rx)
    ∧ decode { op := 0x62#8 } = .ok .hwRxDrop ∧ decode { op := 0x68#8, d := 0xCC#8 } = .ok (.peerSend 0xCC#8)
    ∧ decode { op := 0xF3#8 } = .ok (.reset 0b11#2)

/-- R72 to R74: every instruction, with every operand, is read back from its own command record, and an opcode byte that decodes to an
instruction is the one the encoder gives it. -/
def Obligations.DecodeEncodeAgree : Prop :=
  (∀ i : Instr, decode (encode i) = .ok i) ∧ ∀ (c : Command) (i : Instr), decode c = .ok i → (encode i).op = c.op

/-- R73: at most one row of the opcode map matches an opcode byte. -/
def Obligations.OpcodePatternsDisjoint : Prop :=
  ∀ (c : Command) (r₁ r₂ : Row), r₁ ∈ opcodeTable → r₂ ∈ opcodeTable → r₁.hits c.op = true → r₂.hits c.op = true → r₁ = r₂

/-- R90: the unassigned opcodes are exactly those it lists, and a command with one is refused BAD_OPCODE whoever offers it and whatever
else holds (R236, D41): `S.refused` is set and nothing else changes. That the step answers this state as its next one, and that the
offer is then gone, is the model's form of a refusal (log 10, log 3). -/
def Obligations.UnassignedOpcodesRefused : Prop :=
  ∀ (o : Offer) (n : Nat), o.cmd.op.toNat = n →
    (decode o.cmd = .error .badOpcode ↔
      (n = 0x00 ∨ n = 0x0A ∨ n = 0x0B ∨ (0x0F ≤ n ∧ n ≤ 0x1F) ∨ (0x22 ≤ n ∧ n ≤ 0x27) ∨ (0x2A ≤ n ∧ n ≤ 0x2F)
        ∨ (0x35 ≤ n ∧ n ≤ 0x3F) ∨ (0x44 ≤ n ∧ n ≤ 0x5F) ∨ (0x63 ≤ n ∧ n ≤ 0x67) ∨ (0x69 ≤ n ∧ n ≤ 0xEF)
        ∨ (0xF4 ≤ n ∧ n ≤ 0xFF)))
      ∧ ∀ (s : State) (rest : List Offer), s.refused = false → s.cfg.valid = true → s.sched = o :: rest →
        decode o.cmd = .error .badOpcode →
        step s = .next { s with sched := rest, refused := true, label := .refused .badOpcode }

/-- A step runs the instruction that the next offer's command decodes to, in the state with that offer taken off the schedule (R20, R73;
the schedule is the model's form of R287, log 3). -/
def Obligations.StepRunsDecodedInstruction : Prop :=
  ∀ (s : State) (o : Offer) (rest : List Offer) (i : Instr),
    s.refused = false → s.cfg.valid = true → s.sched = o :: rest → decode o.cmd = .ok i → mayTake o.agent i = true →
    step s = exec i { s with sched := rest }

/-- R93: a command offered by another agent than the one its row names has no step. That the offer is passed over and the state keeps
every field but the label is the model's reading (log 4); that no offer means no step is the model's choice (log 3). -/
def Obligations.WrongAgentHasNoStep : Prop :=
  (∀ (s : State) (o : Offer) (rest : List Offer) (i : Instr) (a : Agent),
    s.refused = false → s.cfg.valid = true → s.sched = o :: rest → decode o.cmd = .ok i → i.agent = some a → o.agent ≠ a →
    step s = .next { s with sched := rest, label := .noStep })
  ∧ ∀ s : State, s.refused = false → s.cfg.valid = true → s.sched = [] → step s = .next { s with label := .noStep }

/-- Every instruction ends in a next state (R230, R271), it takes a step exactly where its rule enables it (R21, R93, R155), and where it
is not enabled nothing but the model's label changes (log 4; the label is log 5's). Two of its cases are the model's choice: that a
touch command on a channel `N_CH` does not give is not enabled (log 2; R190 and R191 say "always"), and that CB_WRITE and CB_READ, which
are refused (R92), answer that refusal as a next state (log 10). -/
def Obligations.StepsExactlyWhereEnabled : Prop :=
  ∀ (i : Instr) (s : State), ∃ t : State, exec i s = .next t ∧ (t.label = .noStep ↔ enabled i s = false)
    ∧ (enabled i s = false → t = { s with label := .noStep })

/-- R233: from a refused state no step is enabled, so the run ends. `runRefused` is the model's name for that end (log 10). -/
def Obligations.RefusedRunEnds : Prop :=
  ∀ s : State, s.refused = true →
    step s = .refused .runRefused ∧ ∀ i : Instr, exec i s = .next { s with label := .noStep }

/-- R7, R233: a configuration that breaks R7 is refused BAD_CONFIG before any step is taken (log 10). -/
def Obligations.BadConfigurationRefused : Prop :=
  ∀ s : State, s.refused = false →
    (s.cfg.cap = 0 ∨ s.cfg.winN = 0 ∨ s.cfg.encLimit = 0 ∨ s.cfg.encDiv = 0) →
    step s = .next { s with refused := true, label := .refused .badConfig }

/-- R92: CB_WRITE and CB_READ as top-level commands, by whatever agent, are refused INTERNAL_OP and change nothing else (log 10). -/
def Obligations.InternalPrimitivesRefused : Prop :=
  ∀ (s : State), s.refused = false →
    (∀ (u : BufSel) (d : Byte),
      exec (.cbWrite u d) s = .next { s with refused := true, label := .refused .internalOp }
        ∧ exec (.cbRead u) s = .next { s with refused := true, label := .refused .internalOp })
    ∧ ∀ (a : Agent) (u : BufSel) (d : Byte), mayTake a (.cbWrite u d) = true ∧ mayTake a (.cbRead u) = true

/-! ### The circular buffer -/

/-- R100: a write to a buffer that is not full stores the byte at `tail`, advances `tail`, clears `empty` and sets `full` exactly when
`head = tail`; a write to a full buffer answers FULL and changes nothing. `(true, _)` is OK, `(false, _)` is FULL. -/
def Obligations.BufferWriteEnqueues : Prop :=
  ∀ (cap : Nat) (b : Cb) (d : Byte), BufferInv cap b →
    (b.full = true → cbWrite cap b d = (false, b))
    ∧ (b.full = false → ∃ b' : Cb, cbWrite cap b d = (true, b') ∧ BufferInv cap b'
        ∧ b'.slot b.tail = d ∧ (∀ j, j ≠ b.tail → b'.slot j = b.slot j)
        ∧ b'.head = b.head ∧ b'.tail = (b.tail + 1) % cap ∧ b'.empty = false ∧ (b'.full = true ↔ b'.head = b'.tail)
        ∧ b'.unread cap = b.unread cap ++ [d] ∧ (b.count cap = cap - 1 ↔ b'.full = true) ∧ (cap = 1 → b'.full = true))

/-- R101: a read of a buffer that is not empty answers the byte at `head`, the oldest unread one, advances `head`, clears `full`
and sets `empty` exactly when `head = tail`, and changes no slot and not `tail`; a read of an empty buffer answers EMPTY (`none`) and
changes nothing. -/
def Obligations.BufferReadDequeues : Prop :=
  ∀ (cap : Nat) (b : Cb), BufferInv cap b →
    (b.empty = true → cbRead cap b = (none, b))
    ∧ (b.empty = false → ∃ b' : Cb, cbRead cap b = (some (b.slot b.head), b') ∧ BufferInv cap b'
        ∧ b'.data = b.data ∧ b'.tail = b.tail
        ∧ b'.head = (b.head + 1) % cap ∧ b'.full = false ∧ (b'.empty = true ↔ b'.head = b'.tail)
        ∧ b.unread cap = b.slot b.head :: b'.unread cap ∧ (b.count cap = 1 ↔ b'.empty = true))

/-- R61, R104 (1), (2): over any sequence of writes and reads the bytes that leave are, in order, the unread ones followed by those whose
write was taken; none is lost, duplicated or reordered, and at most `cap` are held. -/
def Obligations.BufferCallsAreFifo : Prop :=
  ∀ (cap : Nat) (l : List BufferCall) (b : Cb), BufferInv cap b →
    BufferInv cap (runCalls cap l b).1 ∧ ((runCalls cap l b).1.unread cap).length ≤ cap
      ∧ b.unread cap ++ (runCalls cap l b).2.1 = (runCalls cap l b).2.2 ++ (runCalls cap l b).1.unread cap

/-- R104 (3), (4): from an empty buffer `cap` writes are all taken and leave it full; one read then answers the first byte written and
leaves it not full. -/
def Obligations.FullAfterCapacityWrites : Prop :=
  ∀ (cap : Nat) (b : Cb) (x : Byte) (l : List Byte), BufferInv cap b → b.empty = true → l.length + 1 = cap →
    (cbWriteAll cap b (x :: l)).full = true ∧ (cbWriteAll cap b (x :: l)).unread cap = x :: l
      ∧ (cbRead cap (cbWriteAll cap b (x :: l))).1 = some x
      ∧ (cbRead cap (cbWriteAll cap b (x :: l))).2.full = false

/-- R103, with `count` as R41 defines it. -/
def Obligations.FreeSpaceCountsFreeSlots : Prop :=
  ∀ (cap : Nat) (b : Cb), BufferInv cap b →
    (b.free cap : Int) = cap - (if b.full then (cap : Int) else ((b.tail : Int) - b.head) % cap)
      ∧ (b.free cap = 0 ↔ b.full = true) ∧ (b.free cap = cap ↔ b.empty = true)

/-! ### The UART transport -/

/-- R120: UART_INIT is idempotent after success, answers ERROR after a failure (D6), and otherwise its draw `hw_ok` decides: success
enables both interrupt sources, empties both buffers (R102; indices 0 are D36's) and yields both directions; failure is INIT_FAILED. The
draw is a free value (log 6); the statement holds for both of its values. That the records are a list without repeats, oldest first, is
the model's choice (log 12). -/
def Obligations.UartInitBringsLinkUp : Prop :=
  ∀ s : State, s.refused = false → s.frBusy = false →
    (s.initState = .ready → exec .uartInit s = .next { s with label := .ret .ok })
    ∧ (s.initState = .failed → exec .uartInit s = .next { s with label := .ret .error })
    ∧ (s.initState = .uninit → s.drawBool = true → exec .uartInit s = .next
        { s with
          initState := .ready, irqEnTx := true, irqEnRx := true
          tx := { data := s.tx.data, head := 0, tail := 0, full := false, empty := true }
          rx := { data := s.rx.data, head := 0, tail := 0, full := false, empty := true }
          txState := .yielded, rxState := .yielded
          txInflight := none, txIrq := false, rxArmed := false, rxIrq := false
          label := .ret .ok, draws := s.draws.tail, drawCount := s.drawCount + 1 })
    ∧ (s.initState = .uninit → s.drawBool = false → exec .uartInit s = .next
        { s with
          initState := .failed
          faults := if ⟨.initFailed, .uartInit, .none⟩ ∈ s.faults then s.faults else s.faults ++ [⟨.initFailed, .uartInit, .none⟩]
          label := .ret .error, draws := s.draws.tail, drawCount := s.drawCount + 1 })

/-- R121: after a successful init UART_PUT queues its byte in `tx` and answers OK, or answers FULL on a full buffer with no side effect; it
starts no transmission (nothing but `tx` changes). Before, R234's NOT_READY: see NotReadyIsPrecise. -/
def Obligations.UartPutQueuesByte : Prop :=
  ∀ (s : State) (d : Byte), s.refused = false → s.frBusy = false → s.initState = .ready → BufferInv s.cfg.cap s.tx →
    (s.tx.full = true → exec (.uartPut d) s = .next { s with label := .ret .full })
    ∧ (s.tx.full = false → ∃ b : Cb, exec (.uartPut d) s = .next { s with tx := b, label := .ret .ok }
        ∧ b.unread s.cfg.cap = s.tx.unread s.cfg.cap ++ [d] ∧ b.head = s.tx.head ∧ BufferInv s.cfg.cap b
        ∧ ∀ j, j ≠ s.tx.tail → b.slot j = s.tx.slot j)

/-- R122: after a successful init UART_GET removes and answers the oldest byte of `rx`, or answers EMPTY with no side effect; it never
re-arms reception (nothing but `rx` changes, and no slot of it). -/
def Obligations.UartGetTakesOldestByte : Prop :=
  ∀ s : State, s.refused = false → s.frBusy = false → s.initState = .ready → BufferInv s.cfg.cap s.rx →
    (s.rx.empty = true → exec .uartGet s = .next { s with label := .ret .empty })
    ∧ (s.rx.empty = false → ∃ (x : Byte) (b : Cb), exec .uartGet s = .next { s with rx := b, label := .ret (.byte x) }
        ∧ s.rx.unread s.cfg.cap = x :: b.unread s.cfg.cap ∧ b.data = s.rx.data ∧ b.tail = s.rx.tail ∧ BufferInv s.cfg.cap b)

/-- R123: UART_PUMP hands the oldest byte of `tx` to the hardware exactly when TX is YIELDED and `tx` is not empty, arms a receive exactly
when RX is YIELDED and `rx` is not full, and does nothing else. -/
def Obligations.UartPumpStartsTransfers : Prop :=
  ∀ s : State, s.refused = false → s.frBusy = false → s.initState = .ready → BufferInv s.cfg.cap s.tx →
    ∃ t : State, exec .uartPump s = .next t
      ∧ t = { s with tx := t.tx, txState := t.txState, txInflight := t.txInflight, rxState := t.rxState, rxArmed := t.rxArmed,
                     label := .ret .none }
      ∧ (s.txState = .yielded → s.tx.empty = false → t.txState = .active ∧ t.tx.data = s.tx.data ∧ t.tx.tail = s.tx.tail
          ∧ BufferInv s.cfg.cap t.tx
          ∧ ∃ x, t.txInflight = some x ∧ s.tx.unread s.cfg.cap = x :: t.tx.unread s.cfg.cap)
      ∧ (s.txState = .active ∨ s.tx.empty = true → t.txState = s.txState ∧ t.tx = s.tx ∧ t.txInflight = s.txInflight)
      ∧ (s.rxState = .yielded → s.rx.full = false → t.rxState = .active ∧ t.rxArmed = true)
      ∧ (s.rxState = .active ∨ s.rx.full = true → t.rxState = s.rxState ∧ t.rxArmed = s.rxArmed)

/-- R125: the transmit-complete handler acknowledges its interrupt, then yields TX when `tx` is empty, and otherwise hands the next byte to
the hardware and leaves `tx_state` alone. It cannot run again before another HW_TX_DONE (corner case (a)). -/
def Obligations.TransmitCompleteChainsOrYields : Prop :=
  ∀ s : State, s.refused = false → s.irqEnTx = true → s.txIrq = true → BufferInv s.cfg.cap s.tx →
    (s.tx.empty = true → exec .evTxComplete s = .next { s with txIrq := false, txState := .yielded, label := .silent })
    ∧ (s.tx.empty = false → ∃ (x : Byte) (b : Cb),
        exec .evTxComplete s = .next { s with txIrq := false, tx := b, txInflight := some x, label := .silent }
        ∧ s.tx.unread s.cfg.cap = x :: b.unread s.cfg.cap ∧ b.data = s.tx.data ∧ b.tail = s.tx.tail ∧ BufferInv s.cfg.cap b)
    ∧ ∀ t : State, exec .evTxComplete s = .next t → enabled .evTxComplete t = false

/-- R126: the receive-complete handler acknowledges its interrupt and stores the received byte; it yields RX when that filled the buffer and
otherwise starts the next receive. A byte that finds `rx` full is the fault RX_LOST (the records' order
and their not being repeated are log 12's choice). -/
def Obligations.ReceiveCompleteStoresByte : Prop :=
  ∀ s : State, s.refused = false → s.irqEnRx = true → s.rxIrq = true → BufferInv s.cfg.cap s.rx →
    (s.rx.full = false → ∃ (b : Cb), b.unread s.cfg.cap = s.rx.unread s.cfg.cap ++ [s.rxData] ∧ b.head = s.rx.head
        ∧ BufferInv s.cfg.cap b
        ∧ (∀ j, j ≠ s.rx.tail → b.slot j = s.rx.slot j)
        ∧ (b.full = true → exec .evRxComplete s = .next { s with rxIrq := false, rx := b, rxState := .yielded, label := .silent })
        ∧ (b.full = false → exec .evRxComplete s = .next { s with rxIrq := false, rx := b, rxArmed := true, label := .silent }))
    ∧ (s.rx.full = true → exec .evRxComplete s = .next
        { s with
          rxIrq := false
          faults := if ⟨.rxLost, .evRxComplete, .byte s.rxData⟩ ∈ s.faults then s.faults
            else s.faults ++ [⟨.rxLost, .evRxComplete, .byte s.rxData⟩]
          label := .silent })

/-- R128 [derived there]: in a state that meets the invariants, the receive-complete handler finds room, raises nothing and loses nothing. -/
def Obligations.ReceiveNeverOverflows : Prop :=
  ∀ s : State, Inv s → enabled .evRxComplete s = true →
    ∃ t : State, exec .evRxComplete s = .next t ∧ t.faults = s.faults
      ∧ t.rx.unread s.cfg.cap = s.rx.unread s.cfg.cap ++ [s.rxData]

/-- R130 to R133: the hardware and peer steps, each where it is enabled. -/
def Obligations.HardwareAndPeerMoveWireBytes : Prop :=
  ∀ (s : State) (x : Byte) (l : List Byte), s.refused = false →
    (s.txInflight = some x →
      exec .hwTxDone s = .next { s with wireOut := s.wireOut ++ [x], txInflight := none, txIrq := true, label := .silent })
    ∧ (s.rxArmed = true → s.wireIn = x :: l →
      exec .hwRxAccept s = .next { s with rxData := x, wireIn := l, rxArmed := false, rxIrq := true, label := .silent })
    ∧ (s.cfg.rxUnarmed = .mayDrop → s.rxArmed = false → s.wireIn = x :: l →
      exec .hwRxDrop s = .next { s with wireLost := s.wireLost ++ [x], wireIn := l, label := .silent })
    ∧ (s.cfg.rxUnarmed = .held → exec .hwRxDrop s = .next { s with label := .noStep })
    ∧ exec (.peerSend x) s = .next { s with wireIn := s.wireIn ++ [x], label := .silent }

/-- R135 [derived there]: with K bytes in `tx` and TX yielded, one UART_PUMP and K rounds of HW_TX_DONE and EV_TX_COMPLETE put all K bytes on
the wire in order and leave TX yielded, with no further pump. -/
def Obligations.SelfChainingDrainsTransmitBuffer : Prop :=
  ∀ s : State, Inv s → s.refused = false → s.frBusy = false → s.initState = .ready → s.txState = .yielded → s.tx.empty = false →
    ∃ t : State,
      execAll (.uartPump :: (List.replicate (s.tx.count s.cfg.cap) [Instr.hwTxDone, Instr.evTxComplete]).flatten) s = .next t
      ∧ t.wireOut = s.wireOut ++ s.tx.unread s.cfg.cap
      ∧ t.tx.empty = true ∧ t.txInflight = none ∧ t.txIrq = false ∧ t.txState = .yielded
      ∧ t.wireIn = s.wireIn ∧ t.rx = s.rx ∧ t.faults = s.faults

/-- R96, R135 [derived there]: from a state that meets the invariant with an initialised link and TX active, the schedule DRAIN_TX puts the
byte in flight and all bytes of `tx` on the wire in order, and leaves `tx` empty and TX yielded. -/
def Obligations.DrainTxEmptiesActiveDirection : Prop :=
  ∀ s : State, Inv s → s.refused = false → s.initState = .ready → s.txState = .active →
    ∃ t : State, execAll (drainTx s) s = .next t
      ∧ t.wireOut = s.wireOut ++ s.txInflight.toList ++ s.tx.unread s.cfg.cap
      ∧ t.tx.empty = true ∧ t.txInflight = none ∧ t.txIrq = false ∧ t.txState = .yielded
      ∧ t.wireIn = s.wireIn ∧ t.rx = s.rx ∧ t.faults = s.faults

/-- R234, R232, R264 (2): before a successful init the five transport commands raise NOT_READY (D5), answer ERROR and change nothing else
(the records' order and their not being repeated are log 12's choice). -/
def Obligations.NotReadyIsPrecise : Prop :=
  ∀ (s : State) (i : Instr), s.refused = false → s.frBusy = false → s.initState ≠ .ready →
    i.op = .uartPut ∨ i.op = .uartGet ∨ i.op = .uartPump ∨ i.op = .frameSend ∨ i.op = .parserStep →
    exec i s = .next
      { s with
        faults := if ⟨.notReady, i.op, .mnemonic i.op⟩ ∈ s.faults then s.faults else s.faults ++ [⟨.notReady, i.op, .mnemonic i.op⟩]
        label := .ret .error }

/-- R63 and R61 for the whole transmit path [derived there]: no step but RESET removes, duplicates or reorders a byte between `tx` and the
wire, and only the three putting commands add bytes, at its end. -/
def Obligations.TransmitPathKeepsOrder : Prop :=
  ∀ (s t : State) (i : Instr), Inv s → exec i s = .next t → i.op ≠ .reset →
    ∃ added : List Byte, txPath t = txPath s ++ added
      ∧ (added ≠ [] → i.op = .uartPut ∨ i.op = .frameSend ∨ i.op = .frameStep)

/-- R63 and R61 for the whole receive path [derived there]: no step but RESET and HW_RX_DROP removes, duplicates or reorders a byte between
the peer and `rx`; UART_GET and PARSER_STEP take at most one byte off its front, PEER_SEND adds one at its end; HW_RX_DROP takes the
peer's oldest byte and records it. -/
def Obligations.ReceivePathKeepsOrder : Prop :=
  ∀ (s t : State) (i : Instr), Inv s → exec i s = .next t → i.op ≠ .reset →
    (i.op ≠ .hwRxDrop → t.wireLost = s.wireLost ∧ ∃ taken added : List Byte, rxPath s ++ added = taken ++ rxPath t
        ∧ taken.length ≤ 1 ∧ (taken ≠ [] → i.op = .uartGet ∨ i.op = .parserStep)
        ∧ (added ≠ [] → ∃ d, i = .peerSend d ∧ added = [d]))
    ∧ (i.op = .hwRxDrop → t.rx = s.rx ∧ t.rxIrq = s.rxIrq ∧ t.rxData = s.rxData
        ∧ ∃ lost : List Byte, s.wireIn = lost ++ t.wireIn ∧ t.wireLost = s.wireLost ++ lost ∧ lost.length ≤ 1)

/-! ### The packet framer -/

/-- R150: the checksum is a left fold over the payload, with seed 0 and the step function of R151, in 8-bit wraparound arithmetic. -/
def Obligations.ChecksumIsLeftFold : Prop :=
  (∀ acc x : Byte, cksStep acc x = (acc >>> 1) + (acc <<< 7) + x)
    ∧ cks [] = 0#8 ∧ (∀ x, cks [x] = cksStep 0#8 x) ∧ ∀ (p : List Byte) (x : Byte), cks (p ++ [x]) = cksStep (cks p) x

/-- R151: the step in exact integers modulo 256, and its equivalent form with the 8-bit rotate [derived there]. -/
def Obligations.ChecksumStepRotatesAndAdds : Prop :=
  ∀ acc x : Byte, (cksStep acc x).toNat = (acc.toNat / 2 + acc.toNat * 128 + x.toNat) % 256 ∧ cksStep acc x = ror8 acc + x

/-- R152 (5) [derived there]: a single corrupted payload byte always changes the checksum. -/
def Obligations.SingleByteErrorChangesChecksum : Prop :=
  ∀ (p q : List Byte) (x y : Byte), x ≠ y → cks (p ++ x :: q) ≠ cks (p ++ y :: q)

/-- R154, R157 under TWO_PHASE: with `len = len(payload)` the whole frame of R86 is queued contiguously after the unread bytes, or, where
`free(tx) < len + 6`, nothing is and the answer is INSUFFICIENT_SPACE. R274: that is always so for `len > CAP - 6`. -/
def Obligations.TwoPhaseSendIsAllOrNothing : Prop :=
  ∀ (s : State) (len : Byte) (payload : List Byte),
    s.refused = false → s.frBusy = false → s.initState = .ready → s.cfg.sendPolicy = .twoPhase → BufferInv s.cfg.cap s.tx →
    len.toNat = payload.length →
    (s.tx.free s.cfg.cap < len.toNat + 6 → exec (.frameSend len payload) s = .next { s with label := .ret .insufficientSpace })
    ∧ (len.toNat + 6 ≤ s.tx.free s.cfg.cap → ∃ b : Cb,
        exec (.frameSend len payload) s = .next { s with tx := b, label := .ret .ok }
        ∧ b.unread s.cfg.cap = s.tx.unread s.cfg.cap ++ ([s.cfg.headByte, len] ++ payload
            ++ [s.cfg.tailByte, cks payload, s.cfg.crByte, s.cfg.lfByte])
        ∧ b.head = s.tx.head ∧ BufferInv s.cfg.cap b
        ∧ ∀ j, (∀ k, k < len.toNat + 6 → j ≠ (s.tx.tail + k) % s.cfg.cap) → b.slot j = s.tx.slot j)
    ∧ (s.cfg.cap < len.toNat + 6 → exec (.frameSend len payload) s = .next { s with label := .ret .insufficientSpace })

/-- R154 and R236: after a successful init a `len` that differs from the payload's length is BAD_LENGTH (D25), whatever the policy and the
free space; nothing is queued (the records' order and their not being repeated are log 12's choice). -/
def Obligations.BadLengthIsPrecise : Prop :=
  ∀ (s : State) (len : Byte) (payload : List Byte),
    s.refused = false → s.frBusy = false → s.initState = .ready → len.toNat ≠ payload.length →
    exec (.frameSend len payload) s = .next
      { s with
        faults := if ⟨.badLength, .frameSend, .lengths len payload.length⟩ ∈ s.faults then s.faults
          else s.faults ++ [⟨.badLength, .frameSend, .lengths len payload.length⟩]
        label := .ret .error }

/-- R154 and R155 under AS_IMPLEMENTED: FRAME_SEND loads the sequencer with the frame of R86 and gives no result; from then on FRAME_STEP is
the only command of APP that is enabled. -/
def Obligations.AsImplementedSendStartsSequencer : Prop :=
  ∀ (s : State) (len : Byte) (payload : List Byte),
    s.refused = false → s.frBusy = false → s.initState = .ready → s.cfg.sendPolicy = .asImplemented → len.toNat = payload.length →
    exec (.frameSend len payload) s = .next
      { s with
        frSeq := [s.cfg.headByte, len] ++ payload ++ [s.cfg.tailByte, cks payload, s.cfg.crByte, s.cfg.lfByte]
        frPos := 0, frBusy := true, label := .silent }
    ∧ ∀ (t : State) (i : Instr), t.frBusy = true → i.agent = some .app → enabled i t = true → i = .frameStep

/-- R156: FRAME_STEP puts the next frame byte; a put that finds `tx` full drops the byte and draws (a free value, log 6; both outcomes are
stated) whether the send goes on; the last byte, or giving up, ends the send with DONE. -/
def Obligations.FrameStepPutsOneByte : Prop :=
  ∀ (s : State) (x : Byte), s.refused = false → s.frBusy = true → s.frSeq[s.frPos]? = some x → BufferInv s.cfg.cap s.tx →
    (s.tx.full = false → ∃ b : Cb, b.unread s.cfg.cap = s.tx.unread s.cfg.cap ++ [x] ∧ b.head = s.tx.head
        ∧ (∀ j, j ≠ s.tx.tail → b.slot j = s.tx.slot j)
        ∧ exec .frameStep s = .next
            (if s.frPos + 1 = s.frSeq.length then { s with tx := b, frBusy := false, frSeq := [], frPos := 0, label := .ret .done }
             else { s with tx := b, frPos := s.frPos + 1, label := .ret .none }))
    ∧ (s.tx.full = true → exec .frameStep s = .next
        (if s.drawBool = false ∨ s.frPos + 1 = s.frSeq.length then
          { s with frBusy := false, frSeq := [], frPos := 0, label := .ret .done, draws := s.draws.tail, drawCount := s.drawCount + 1 }
         else { s with frPos := s.frPos + 1, label := .ret .none, draws := s.draws.tail, drawCount := s.drawCount + 1 }))

/-- R158 (2) [derived there]: after an AS_IMPLEMENTED FRAME_SEND, whatever FRAME_STEP, handler, HW and PEER steps follow in whatever order,
with no byte leaving `tx` because TX was YIELDED (or no EV_TX_COMPLETE is among them): the bytes added are the first
`min(free(tx), fr_pos)` of the frame while the send goes on and the first `min(free(tx), len + 6)` once it is over, whatever the draws
are; `len + 6` FRAME_STEPs end it. Steps that are not enabled, a FRAME_STEP after the end among them, are passed over (log 4). -/
def Obligations.AsImplementedSendQueuesFramePrefix : Prop :=
  ∀ (s : State) (len : Byte) (payload : List Byte) (l : List Instr),
    s.refused = false → s.frBusy = false → s.initState = .ready → s.cfg.sendPolicy = .asImplemented → BufferInv s.cfg.cap s.tx →
    len.toNat = payload.length →
    (∀ i ∈ l, i = .frameStep ∨ isHandler i = true ∨ i.agent = some .hw ∨ i.agent = some .peer) →
    (TransportInv s ∧ s.txState = .yielded) ∨ Instr.evTxComplete ∉ l →
    ∃ t : State, execAll (.frameSend len payload :: l) s = .next t ∧ t.tx.head = s.tx.head
      ∧ (t.frBusy = true → t.frPos < len.toNat + 6
          ∧ t.tx.unread s.cfg.cap = s.tx.unread s.cfg.cap ++ ((frame s.cfg payload).take t.frPos).take (s.tx.free s.cfg.cap))
      ∧ (t.frBusy = false →
          t.tx.unread s.cfg.cap = s.tx.unread s.cfg.cap ++ (frame s.cfg payload).take (s.tx.free s.cfg.cap))
      ∧ (len.toNat + 6 ≤ l.count .frameStep → t.frBusy = false)

/-! ### The receive-side parser -/

/-- R171, R173 (their parser details are D27's): one byte is consumed, if there is one, and the parser moves as the table says; nothing but
`rx`, the parser, `rx_frames` and the result changes. -/
def Obligations.ParserFollowsTransitionTable : Prop :=
  ∀ s : State, s.refused = false → s.frBusy = false → s.initState = .ready → BufferInv s.cfg.cap s.rx →
    (s.rx.empty = true → exec .parserStep s = .next { s with label := .ret .empty })
    ∧ ∀ (x : Byte) (rest : List Byte), s.rx.unread s.cfg.cap = x :: rest →
      ∃ (b : Cb) (p : Parser), b.unread s.cfg.cap = rest ∧ b.data = s.rx.data ∧ b.tail = s.rx.tail
        ∧ (if s.ps.state = .awaitLf ∧ x = s.cfg.lfByte then
            exec .parserStep s = .next
              { s with rx := b, ps := p, rxFrames := s.rxFrames ++ [(List.range s.ps.len.toNat).map s.ps.slot],
                       label := .ret (.frame ((List.range s.ps.len.toNat).map s.ps.slot)) }
           else exec .parserStep s = .next { s with rx := b, ps := p, label := .ret .ok })
        ∧ (match s.ps.state with
           | .awaitHead => p = { s.ps with state := if x = s.cfg.headByte then .awaitLength else .awaitHead }
           | .awaitLength =>
             p = { s.ps with len := x, cnt := 0, acc := 0#8, state := if x = 0#8 then .awaitTail else .awaitPayload }
           | .awaitPayload =>
             p = { s.ps with buf := p.buf, acc := cksStep s.ps.acc x, cnt := s.ps.cnt + 1,
                             state := if s.ps.cnt + 1 = s.ps.len.toNat then .awaitTail else .awaitPayload }
               ∧ (s.ps.cnt < s.ps.buf.length → p.slot s.ps.cnt = x) ∧ ∀ j, j ≠ s.ps.cnt → p.slot j = s.ps.slot j
           | .awaitTail => p = { s.ps with state := if x = s.cfg.tailByte then .awaitChecksum else .awaitHead }
           | .awaitChecksum => p = { s.ps with state := if x = s.ps.acc then .awaitCr else .awaitHead }
           | .awaitCr => p = { s.ps with state := if x = s.cfg.crByte then .awaitLf else .awaitHead }
           | .awaitLf => p = { s.ps with state := .awaitHead })

/-- R174 [derived there], for the parser alone: from AWAIT_HEAD the bytes of `frame(p)` emit `p` once and lead back to AWAIT_HEAD, for every
payload of at most 255 bytes; bytes with no HEAD_BYTE among them have no effect. -/
def Obligations.ParserInvertsFrame : Prop :=
  ∀ (k : Cfg) (q : Parser), q.state = .awaitHead → q.buf.length = maxPayload →
    (∀ p : List Byte, p.length ≤ maxPayload →
      (feedParser k (frame k p) q).2 = [p] ∧ (feedParser k (frame k p) q).1.state = .awaitHead)
    ∧ ∀ l : List Byte, (∀ x ∈ l, x ≠ k.headByte) → feedParser k l q = (q, [])

/-- R174 [derived there], on the machine: with `frame(p)` the oldest bytes of `rx` and the parser in AWAIT_HEAD, `len(p) + 6` PARSER_STEPs emit
`p`, the last of them answering FRAME(p). -/
def Obligations.ParserStepsEmitFrame : Prop :=
  ∀ (s : State) (p rest : List Byte), Inv s → s.refused = false → s.frBusy = false → s.initState = .ready →
    s.ps.state = .awaitHead → p.length ≤ maxPayload → s.rx.unread s.cfg.cap = frame s.cfg p ++ rest →
    ∃ t : State, execAll (List.replicate (p.length + 6) .parserStep) s = .next t
      ∧ t.rxFrames = s.rxFrames ++ [p] ∧ t.ps.state = .awaitHead ∧ t.label = .ret (.frame p)
      ∧ t.rx.unread s.cfg.cap = rest ∧ t.tx = s.tx ∧ t.faults = s.faults

/-! ### The touch detector -/

/-- R190: the first edge is the baseline only; every later edge replaces the oldest sample of the window by the elapsed time modulo
`2^TS_W` and recomputes `sum` and `avg`. No other field of the channel, no other channel and nothing else changes. A channel that
`N_CH` does not give has no step (log 2). -/
def Obligations.TouchEdgeUpdatesWindow : Prop :=
  ∀ (s : State) (c : Channel) (now : Nat), s.refused = false → now < 2 ^ s.cfg.tsW →
    (∀ t : Touch, s.chan c = some t → TouchInv s.cfg t →
      (t.first = true → exec (.evTouchEdge c now) s = .next
        { s with touch := s.touch.set c.index { t with prevTs := now, first := false }, label := .silent })
      ∧ (t.first = false → ∃ u : Touch,
          exec (.evTouchEdge c now) s = .next { s with touch := s.touch.set c.index u, label := .silent }
          ∧ u = { t with prevTs := now, win := u.win, sum := u.sum, idx := (t.idx + 1) % s.cfg.winN, avg := u.avg }
          ∧ u.slot t.idx = (now + 2 ^ s.cfg.tsW - t.prevTs) % 2 ^ s.cfg.tsW
          ∧ (∀ j, j ≠ t.idx → u.slot j = t.slot j)
          ∧ u.sum + t.slot t.idx = t.sum + u.slot t.idx
          ∧ u.avg = u.sum / s.cfg.winN ∧ TouchInv s.cfg u))
    ∧ (s.chan c = none → exec (.evTouchEdge c now) s = .next { s with label := .noStep })

/-- R191 (D14) and R192 [derived there]: a poll leaves `touched = (avg ≥ THRESH[c])`, answers that value, and changes nothing else. A
channel that `N_CH` does not give has no step (log 2). -/
def Obligations.TouchPollComparesAverage : Prop :=
  ∀ (s : State) (c : Channel), s.refused = false → s.frBusy = false →
    (∀ t : Touch, s.chan c = some t → exec (.touchIsTouched c) s = .next
      { s with
        touch := s.touch.set c.index { t with touched := decide (thresh s.cfg c ≤ t.avg) }
        label := .ret (.bool (decide (thresh s.cfg c ≤ t.avg))) })
    ∧ (s.chan c = none → exec (.touchIsTouched c) s = .next { s with label := .noStep })
    ∧ ∀ h : c.index < s.cfg.nCh, thresh s.cfg c = (s.cfg.thresh[c.index]).toNat

/-- R193 [derived there]: from the reset values, after a first edge at `t0` and further edges at `times`, `avg` is the sum of the last `WIN_N`
elapsed times (of all of them, where there are fewer) divided by `WIN_N`. -/
def Obligations.TouchAverageIsWindowMean : Prop :=
  ∀ (k : Cfg) (prev t0 : Nat) (times : List Nat), k.valid = true → t0 < 2 ^ k.tsW → (∀ x ∈ times, x < 2 ^ k.tsW) →
    (feedEdges k (Touch.afterReset k.winN prev) (t0 :: times)).avg
      = (((deltas k t0 times).reverse.take k.winN).sum) / k.winN

/-! ### The quadrature decoder and the button -/

/-- R211: the transition function, with R81's transitions written out. -/
def Obligations.QuadratureDeltaClasses : Prop :=
  ∀ p n : Pins,
    qdelta p n =
      if (p = 0b00#2 ∧ n = 0b01#2) ∨ (p = 0b01#2 ∧ n = 0b11#2) ∨ (p = 0b11#2 ∧ n = 0b10#2) ∨ (p = 0b10#2 ∧ n = 0b00#2) then 1
      else if (p = 0b00#2 ∧ n = 0b10#2) ∨ (p = 0b10#2 ∧ n = 0b11#2) ∨ (p = 0b11#2 ∧ n = 0b01#2) ∨ (p = 0b01#2 ∧ n = 0b00#2) then -1
      else 0

/-- R212: the lap reset, and what it is with the default limit. -/
def Obligations.LapResetsToZero : Prop :=
  (∀ (limit : Nat) (x : Int),
    (x ≤ -(limit : Int) ∨ x ≥ (limit : Int) → lap limit x = 0) ∧ (-(limit : Int) < x ∧ x < (limit : Int) → lap limit x = x))
  ∧ Config.default.encLimit = 96 ∧ ∀ x : Int, x ≤ -96 ∨ x ≥ 96 → lap 96 x = 0

/-- R210: an encoder edge moves the count by the transition's class, laps at the limit, stores the sample on every edge (D17), and changes
nothing else; R214 [derived there]: the count stays in its range. -/
def Obligations.EncoderEdgeCountsAndLaps : Prop :=
  ∀ (s : State) (ab : Pins), s.refused = false → 1 ≤ s.cfg.encLimit → EncoderInv s.cfg.encLimit s.encCount →
    ∃ n : Int, exec (.evEncEdge ab) s = .next { s with encCount := n, encLast := ab, label := .silent }
      ∧ EncoderInv s.cfg.encLimit n
      ∧ n = (if s.encCount + qdelta s.encLast ab = (s.cfg.encLimit : Int) ∨ s.encCount + qdelta s.encLast ab = -(s.cfg.encLimit : Int)
             then 0 else s.encCount + qdelta s.encLast ab)

/-- R213, R215, R216, R217: the encoder accessors and the button (their contracts are D19's, D20's and D21's). -/
def Obligations.EncoderAndButtonCommands : Prop :=
  ∀ s : State, s.refused = false →
    exec .evBtnPress s = .next { s with btnLatch := true, label := .silent }
    ∧ (s.frBusy = false →
      exec .encGetPosition s = .next { s with label := .ret (.int (s.encCount.tdiv s.cfg.encDiv)) }
      ∧ exec .encResetPosition s = .next { s with encCount := 0, label := .ret .none }
      ∧ exec .encButtonPressed s = .next { s with btnLatch := false, label := .ret (.bool s.btnLatch) })

/-- R213 (a) to (c), R214 [derived there]: the position is the count divided by ENC_DIV and truncated toward zero (D19), in its range. -/
def Obligations.PositionRangeAndTruncation : Prop :=
  ∀ (limit div : Nat) (count : Int), 1 ≤ div → EncoderInv limit count →
    (div : Int) * |position div count| ≤ |count| ∧ |count| < (div : Int) * (|position div count| + 1)
      ∧ 0 ≤ position div count * count
      ∧ (limit = 96 → div = 4 → -23 ≤ position div count ∧ position div count ≤ 23)

/-- R219 (1), (2) [derived there]: four forward cycles from pins 00 and count 0 give count 16, four reverse cycles -16, where the limit is over
16; the positions are 4 and -4 with ENC_DIV = 4. -/
def Obligations.FullCyclesCountSixteen : Prop :=
  ∀ s : State, s.refused = false → s.encCount = 0 → s.encLast = 0b00#2 → 16 < s.cfg.encLimit →
    execAll (List.replicate 4 [Instr.evEncEdge 0b01#2, .evEncEdge 0b11#2, .evEncEdge 0b10#2, .evEncEdge 0b00#2]).flatten s
        = .next { s with encCount := 16, label := .silent }
    ∧ execAll (List.replicate 4 [Instr.evEncEdge 0b10#2, .evEncEdge 0b11#2, .evEncEdge 0b01#2, .evEncEdge 0b00#2]).flatten s
        = .next { s with encCount := -16, label := .silent }
    ∧ position 4 16 = 4 ∧ position 4 (-16) = -4

/-! ### Reset -/

/-- R260, R40: RESET gives every field its reset value, `enc_last` the sampled pins, and the unspecified storage some contents of the right
size (drawn values, log 7); the configuration and the environment's inputs stay (log 1, log 3). -/
def Obligations.ResetRestoresEveryField : Prop :=
  ∀ (s : State) (ab : Pins), s.refused = false →
    ∃ (txd rxd psb : List Byte) (rxb : Byte) (prev : List Nat) (n : Nat),
      txd.length = s.cfg.cap ∧ rxd.length = s.cfg.cap ∧ psb.length = 255
      ∧ prev.length = s.cfg.nCh ∧ (∀ p ∈ prev, p < 2 ^ s.cfg.tsW)
      ∧ exec (.reset ab) s = .next
        { cfg := s.cfg
          tx := { data := txd, head := 0, tail := 0, full := false, empty := true }
          rx := { data := rxd, head := 0, tail := 0, full := false, empty := true }
          initState := .uninit, txState := .yielded, rxState := .yielded
          irqEnTx := false, irqEnRx := false, txInflight := none, txIrq := false, rxArmed := false, rxIrq := false, rxData := rxb
          wireOut := [], wireIn := [], wireLost := []
          frBusy := false, frSeq := [], frPos := 0
          ps := { state := .awaitHead, len := 0#8, cnt := 0, acc := 0#8, buf := psb }
          rxFrames := []
          touch := prev.map (fun p =>
            { win := List.replicate s.cfg.winN 0, sum := 0, avg := 0, idx := 0, prevTs := p, first := true, touched := false })
          encCount := 0, encLast := ab, btnLatch := false
          faults := [], refused := false
          label := .silent, sched := s.sched, draws := s.draws, drawCount := n }

/-- R263: nothing persists across RESET: from any two states under one configuration it gives states that agree on every field but the
unspecified storage and the model's own record of the environment (`sched`, `draws`, `drawCount`). -/
def Obligations.NothingPersistsAcrossReset : Prop :=
  ∀ (s s' : State) (ab : Pins), s.refused = false → s'.refused = false → s.cfg = s'.cfg →
    ∃ t t' : State, exec (.reset ab) s = .next t ∧ exec (.reset ab) s' = .next t'
      ∧ t' = { t with
               tx := { t.tx with data := t'.tx.data }, rx := { t.rx with data := t'.rx.data }
               ps := { t.ps with buf := t'.ps.buf }, rxData := t'.rxData
               touch := t'.touch
               sched := t'.sched, draws := t'.draws, drawCount := t'.drawCount }
      ∧ List.Forall₂ (fun a b => b = { a with prevTs := b.prevTs }) t.touch t'.touch

/-- R40, for the values the spec gives `State.reset` (the fields R40 leaves unspecified, and `enc_last`, are log 8's and are not named here). -/
def Obligations.ResetStateHoldsResetValues : Prop :=
  State.reset.initState = .uninit ∧ State.reset.txState = .yielded ∧ State.reset.rxState = .yielded
    ∧ State.reset.tx.head = 0 ∧ State.reset.tx.tail = 0 ∧ State.reset.tx.full = false ∧ State.reset.tx.empty = true
    ∧ State.reset.rx.head = 0 ∧ State.reset.rx.tail = 0 ∧ State.reset.rx.full = false ∧ State.reset.rx.empty = true
    ∧ State.reset.irqEnTx = false ∧ State.reset.irqEnRx = false ∧ State.reset.txInflight = none ∧ State.reset.txIrq = false
    ∧ State.reset.rxArmed = false ∧ State.reset.rxIrq = false
    ∧ State.reset.wireOut = [] ∧ State.reset.wireIn = [] ∧ State.reset.wireLost = []
    ∧ State.reset.frBusy = false ∧ State.reset.frSeq = [] ∧ State.reset.frPos = 0
    ∧ State.reset.ps.state = .awaitHead ∧ State.reset.ps.len = 0#8 ∧ State.reset.ps.cnt = 0 ∧ State.reset.ps.acc = 0#8
    ∧ State.reset.rxFrames = []
    ∧ State.reset.touch.length = 2
    ∧ (∀ t ∈ State.reset.touch, t.win = List.replicate 10 0 ∧ t.sum = 0 ∧ t.avg = 0 ∧ t.idx = 0 ∧ t.first = true ∧ t.touched = false)
    ∧ State.reset.encCount = 0 ∧ State.reset.btnLatch = false ∧ State.reset.faults = [] ∧ State.reset.refused = false

/-! ### Invariants and whole-machine rules -/

/-- The invariant holds at reset (R40 to R43). -/
def Obligations.ResetStateMeetsInvariant : Prop := Inv State.reset

/-- R41, R42, R43 [derived there], with the framer's, the parser's and the fault records' ranges (R28, R29, R32) and the storage sizes (R50): every
step, from every state that meets them, leads to a state that meets them. -/
def Obligations.StepKeepsInvariant : Prop := ∀ s t : State, Inv s → step s = .next t → Inv t

/-- R242 [derived there]: two enabled handler steps of different handlers lead to one state in either order. -/
def Obligations.HandlersCommute : Prop :=
  ∀ (s : State) (i j : Instr), isHandler i = true → isHandler j = true → i.agent ≠ j.agent →
    enabled i s = true → enabled j s = true →
    ∃ si sj t : State, exec i s = .next si ∧ exec j s = .next sj ∧ exec j si = .next t ∧ exec i sj = .next t

/-- R44, R38, R37 and the operation rules: which steps change each field of the state but the label. UART_INIT, which clears the transport,
and RESET, which R44 does not list, are set apart; ENC_RESET_POSITION is D20's writer. The last clauses are about the model's own
fields (logs 1, 3, 6). -/
def Obligations.StateChangesOnlyByItsWriters : Prop :=
  ∀ (s t : State) (i : Instr), exec i s = .next t → i.op ≠ .reset →
    (t.initState ≠ s.initState ∨ t.irqEnTx ≠ s.irqEnTx ∨ t.irqEnRx ≠ s.irqEnRx → i.op = .uartInit)
    ∧ (i.op ≠ .uartInit →
      (t.tx.data ≠ s.tx.data ∨ t.tx.tail ≠ s.tx.tail → i.op = .uartPut ∨ i.op = .frameSend ∨ i.op = .frameStep)
      ∧ (t.tx.head ≠ s.tx.head → i.op = .uartPump ∨ i.op = .evTxComplete)
      ∧ (t.tx.full ≠ s.tx.full ∨ t.tx.empty ≠ s.tx.empty →
          i.op = .uartPut ∨ i.op = .frameSend ∨ i.op = .frameStep ∨ i.op = .uartPump ∨ i.op = .evTxComplete)
      ∧ (t.rx.data ≠ s.rx.data ∨ t.rx.tail ≠ s.rx.tail → i.op = .evRxComplete)
      ∧ (t.rx.head ≠ s.rx.head → i.op = .uartGet ∨ i.op = .parserStep)
      ∧ (t.rx.full ≠ s.rx.full ∨ t.rx.empty ≠ s.rx.empty → i.op = .evRxComplete ∨ i.op = .uartGet ∨ i.op = .parserStep)
      ∧ (t.txState ≠ s.txState → i.op = .uartPump ∨ i.op = .evTxComplete)
      ∧ (t.rxState ≠ s.rxState → i.op = .uartPump ∨ i.op = .evRxComplete)
      ∧ (t.txInflight ≠ s.txInflight → i.op = .uartPump ∨ i.op = .evTxComplete ∨ i.op = .hwTxDone)
      ∧ (t.txIrq ≠ s.txIrq → i.op = .hwTxDone ∨ i.op = .evTxComplete)
      ∧ (t.rxIrq ≠ s.rxIrq → i.op = .hwRxAccept ∨ i.op = .evRxComplete)
      ∧ (t.rxArmed ≠ s.rxArmed → i.op = .uartPump ∨ i.op = .evRxComplete ∨ i.op = .hwRxAccept))
    ∧ (t.rxData ≠ s.rxData → i.op = .hwRxAccept)
    ∧ (t.wireOut ≠ s.wireOut → i.op = .hwTxDone)
    ∧ (t.wireIn ≠ s.wireIn → i.op = .hwRxAccept ∨ i.op = .hwRxDrop ∨ i.op = .peerSend)
    ∧ (t.wireLost ≠ s.wireLost → i.op = .hwRxDrop)
    ∧ (t.frBusy ≠ s.frBusy ∨ t.frSeq ≠ s.frSeq ∨ t.frPos ≠ s.frPos → i.op = .frameSend ∨ i.op = .frameStep)
    ∧ (t.ps ≠ s.ps ∨ t.rxFrames ≠ s.rxFrames → i.op = .parserStep)
    ∧ t.touch.length = s.touch.length
    ∧ (∀ j, t.touch[j]?.map Touch.touched ≠ s.touch[j]?.map Touch.touched → ∃ c, c.index = j ∧ i = .touchIsTouched c)
    ∧ (∀ j, t.touch[j]?.map (fun x => { x with touched := false }) ≠ s.touch[j]?.map (fun x => { x with touched := false }) →
        ∃ c now, c.index = j ∧ i = .evTouchEdge c now)
    ∧ (t.encCount ≠ s.encCount → i.op = .evEncEdge ∨ i.op = .encResetPosition)
    ∧ (t.encLast ≠ s.encLast → i.op = .evEncEdge)
    ∧ (t.btnLatch ≠ s.btnLatch → i.op = .evBtnPress ∨ i.op = .encButtonPressed)
    ∧ (t.faults ≠ s.faults → i.op = .uartInit ∨ i.op = .uartPut ∨ i.op = .uartGet ∨ i.op = .uartPump ∨ i.op = .frameSend
        ∨ i.op = .parserStep ∨ i.op = .evRxComplete)
    ∧ (t.refused ≠ s.refused → i.op = .cbWrite ∨ i.op = .cbRead)
    ∧ t.cfg = s.cfg ∧ t.sched = s.sched
    ∧ (t.draws ≠ s.draws ∨ t.drawCount ≠ s.drawCount → i.op = .uartInit ∨ i.op = .frameStep)

/-- R234, R32, R231 (D54, D53): no step but RESET removes a fault record, and a record that a step adds is one of R234's table, with its
number, its raiser, its condition and its info; `hw_ok` is the draw that the step makes (log 6). -/
def Obligations.FaultRecordsFollowFaultTable : Prop :=
  ∀ (s t : State) (i : Instr), exec i s = .next t → i.op ≠ .reset →
    (∀ f ∈ s.faults, f ∈ t.faults)
    ∧ ∀ f ∈ t.faults, f ∉ s.faults → f.op = i.op
      ∧ ((f.code = .notReady ∧ f.code.number = 1 ∧ s.initState ≠ .ready ∧ f.info = .mnemonic i.op
            ∧ (i.op = .uartPut ∨ i.op = .uartGet ∨ i.op = .uartPump ∨ i.op = .frameSend ∨ i.op = .parserStep))
          ∨ (f.code = .initFailed ∧ f.code.number = 2 ∧ i = .uartInit ∧ s.initState = .uninit ∧ s.drawBool = false ∧ f.info = .none)
          ∨ (f.code = .badLength ∧ f.code.number = 3 ∧ ∃ len payload, i = .frameSend len payload ∧ len.toNat ≠ payload.length
              ∧ f.info = .lengths len payload.length)
          ∨ (f.code = .rxLost ∧ f.code.number = 4 ∧ i = .evRxComplete ∧ s.rx.full = true ∧ f.info = .byte s.rxData))

/-- R57 [derived there]: storage that no rule reads before it is written is invisible: from two states that differ in it alone a step leads to two
states that differ in it alone, so with the same label. -/
def Obligations.UnspecifiedStorageIsInvisible : Prop :=
  ∀ s t s' : State, Inv s → Inv t → SameReadable s t → step s = .next s' →
    ∃ t' : State, step t = .next t' ∧ SameReadable s' t'

/-- R286: where the invariant holds and the run has not ended, a state is quiescent exactly where `tx` is empty, the peer has no byte waiting
and no step of HW, ISR_TX or ISR_RX is enabled. (The pin handlers' steps are the environment's events, R240.) -/
def Obligations.QuiescentMeansNoLinkStepLeft : Prop :=
  ∀ s : State, Inv s → s.refused = false →
    (quiescent s = true ↔ s.tx.empty = true ∧ s.wireIn = [] ∧ enabled .hwTxDone s = false ∧ enabled .hwRxAccept s = false
      ∧ enabled .hwRxDrop s = false ∧ enabled .evTxComplete s = false ∧ enabled .evRxComplete s = false)

/-- R286, R135 [derived there]: from an initialised link with TX yielded, bytes in `tx` and nothing arriving, the schedule in which APP pumps once
and HW_TX_DONE and EV_TX_COMPLETE alternate has an end state; it is quiescent, with all bytes of `tx` on the wire in order. The
schedule's form is the model's (log 3). -/
def Obligations.ScheduleReachesEndState : Prop :=
  ∀ s : State, Inv s → s.refused = false → s.frBusy = false → s.initState = .ready → s.txState = .yielded → s.tx.empty = false →
    s.wireIn = [] → s.rxIrq = false →
    s.sched = offersBy .app [.uartPump]
      ++ (List.replicate (s.tx.count s.cfg.cap) (offersBy .hw [.hwTxDone] ++ offersBy .isrTx [.evTxComplete])).flatten →
    ∃ t : State, EndOfProgram [.uartPump] [] s t ∧ t.sched = [] ∧ quiescent t = true
      ∧ t.wireOut = s.wireOut ++ s.tx.unread s.cfg.cap ∧ t.faults = s.faults

/-- R134, in the model's form of a run (log 15): in a run with HW_COMPLETES and hardware fairness whose states meet the invariant, a byte in
flight reaches the wire, unless RESET intervenes. -/
def Obligations.FairHardwarePutsByteOnWire : Prop :=
  ∀ (r : EnvRun) (n : Nat) (x : Byte), r.hardwareFair → (r.state 0).cfg.hwCompletes = true → (∀ m, Inv (r.state m)) →
    (∀ m, n ≤ m → ∀ ab, ¬ r.takes (.reset ab) m) → (r.state n).txInflight = some x →
    ∃ m, n < m ∧ (r.state m).wireOut = (r.state n).wireOut ++ [x] ∧ (r.state m).txInflight = none
end

