-- ==== Sys2Proof/Laws/State.lean ====
section
/-! SUPPORT. One lemma per field per named update of State, each true by rfl. -/
namespace Sys2Proof.Machine
variable (s : State)

/-! ### setLabel -/

@[simp] theorem setLabel_cfg (l : Label) : (s.setLabel l).cfg = s.cfg := rfl
@[simp] theorem setLabel_tx (l : Label) : (s.setLabel l).tx = s.tx := rfl
@[simp] theorem setLabel_rx (l : Label) : (s.setLabel l).rx = s.rx := rfl
@[simp] theorem setLabel_initState (l : Label) : (s.setLabel l).initState = s.initState := rfl
@[simp] theorem setLabel_txState (l : Label) : (s.setLabel l).txState = s.txState := rfl
@[simp] theorem setLabel_rxState (l : Label) : (s.setLabel l).rxState = s.rxState := rfl
@[simp] theorem setLabel_irqEnTx (l : Label) : (s.setLabel l).irqEnTx = s.irqEnTx := rfl
@[simp] theorem setLabel_irqEnRx (l : Label) : (s.setLabel l).irqEnRx = s.irqEnRx := rfl
@[simp] theorem setLabel_txInflight (l : Label) : (s.setLabel l).txInflight = s.txInflight := rfl
@[simp] theorem setLabel_txIrq (l : Label) : (s.setLabel l).txIrq = s.txIrq := rfl
@[simp] theorem setLabel_rxArmed (l : Label) : (s.setLabel l).rxArmed = s.rxArmed := rfl
@[simp] theorem setLabel_rxIrq (l : Label) : (s.setLabel l).rxIrq = s.rxIrq := rfl
@[simp] theorem setLabel_rxData (l : Label) : (s.setLabel l).rxData = s.rxData := rfl
@[simp] theorem setLabel_wireOut (l : Label) : (s.setLabel l).wireOut = s.wireOut := rfl
@[simp] theorem setLabel_wireIn (l : Label) : (s.setLabel l).wireIn = s.wireIn := rfl
@[simp] theorem setLabel_wireLost (l : Label) : (s.setLabel l).wireLost = s.wireLost := rfl
@[simp] theorem setLabel_frBusy (l : Label) : (s.setLabel l).frBusy = s.frBusy := rfl
@[simp] theorem setLabel_frSeq (l : Label) : (s.setLabel l).frSeq = s.frSeq := rfl
@[simp] theorem setLabel_frPos (l : Label) : (s.setLabel l).frPos = s.frPos := rfl
@[simp] theorem setLabel_ps (l : Label) : (s.setLabel l).ps = s.ps := rfl
@[simp] theorem setLabel_rxFrames (l : Label) : (s.setLabel l).rxFrames = s.rxFrames := rfl
@[simp] theorem setLabel_touch (l : Label) : (s.setLabel l).touch = s.touch := rfl
@[simp] theorem setLabel_encCount (l : Label) : (s.setLabel l).encCount = s.encCount := rfl
@[simp] theorem setLabel_encLast (l : Label) : (s.setLabel l).encLast = s.encLast := rfl
@[simp] theorem setLabel_btnLatch (l : Label) : (s.setLabel l).btnLatch = s.btnLatch := rfl
@[simp] theorem setLabel_faults (l : Label) : (s.setLabel l).faults = s.faults := rfl
@[simp] theorem setLabel_refused (l : Label) : (s.setLabel l).refused = s.refused := rfl
@[simp] theorem setLabel_label (l : Label) : (s.setLabel l).label = l := rfl
@[simp] theorem setLabel_sched (l : Label) : (s.setLabel l).sched = s.sched := rfl
@[simp] theorem setLabel_draws (l : Label) : (s.setLabel l).draws = s.draws := rfl
@[simp] theorem setLabel_drawCount (l : Label) : (s.setLabel l).drawCount = s.drawCount := rfl

/-! ### addFault -/

@[simp] theorem addFault_cfg (f : FaultRecord) : (s.addFault f).cfg = s.cfg := rfl
@[simp] theorem addFault_tx (f : FaultRecord) : (s.addFault f).tx = s.tx := rfl
@[simp] theorem addFault_rx (f : FaultRecord) : (s.addFault f).rx = s.rx := rfl
@[simp] theorem addFault_initState (f : FaultRecord) : (s.addFault f).initState = s.initState := rfl
@[simp] theorem addFault_txState (f : FaultRecord) : (s.addFault f).txState = s.txState := rfl
@[simp] theorem addFault_rxState (f : FaultRecord) : (s.addFault f).rxState = s.rxState := rfl
@[simp] theorem addFault_irqEnTx (f : FaultRecord) : (s.addFault f).irqEnTx = s.irqEnTx := rfl
@[simp] theorem addFault_irqEnRx (f : FaultRecord) : (s.addFault f).irqEnRx = s.irqEnRx := rfl
@[simp] theorem addFault_txInflight (f : FaultRecord) : (s.addFault f).txInflight = s.txInflight := rfl
@[simp] theorem addFault_txIrq (f : FaultRecord) : (s.addFault f).txIrq = s.txIrq := rfl
@[simp] theorem addFault_rxArmed (f : FaultRecord) : (s.addFault f).rxArmed = s.rxArmed := rfl
@[simp] theorem addFault_rxIrq (f : FaultRecord) : (s.addFault f).rxIrq = s.rxIrq := rfl
@[simp] theorem addFault_rxData (f : FaultRecord) : (s.addFault f).rxData = s.rxData := rfl
@[simp] theorem addFault_wireOut (f : FaultRecord) : (s.addFault f).wireOut = s.wireOut := rfl
@[simp] theorem addFault_wireIn (f : FaultRecord) : (s.addFault f).wireIn = s.wireIn := rfl
@[simp] theorem addFault_wireLost (f : FaultRecord) : (s.addFault f).wireLost = s.wireLost := rfl
@[simp] theorem addFault_frBusy (f : FaultRecord) : (s.addFault f).frBusy = s.frBusy := rfl
@[simp] theorem addFault_frSeq (f : FaultRecord) : (s.addFault f).frSeq = s.frSeq := rfl
@[simp] theorem addFault_frPos (f : FaultRecord) : (s.addFault f).frPos = s.frPos := rfl
@[simp] theorem addFault_ps (f : FaultRecord) : (s.addFault f).ps = s.ps := rfl
@[simp] theorem addFault_rxFrames (f : FaultRecord) : (s.addFault f).rxFrames = s.rxFrames := rfl
@[simp] theorem addFault_touch (f : FaultRecord) : (s.addFault f).touch = s.touch := rfl
@[simp] theorem addFault_encCount (f : FaultRecord) : (s.addFault f).encCount = s.encCount := rfl
@[simp] theorem addFault_encLast (f : FaultRecord) : (s.addFault f).encLast = s.encLast := rfl
@[simp] theorem addFault_btnLatch (f : FaultRecord) : (s.addFault f).btnLatch = s.btnLatch := rfl
@[simp] theorem addFault_faults (f : FaultRecord) : (s.addFault f).faults = if f ∈ s.faults then s.faults else s.faults ++ [f] := rfl
@[simp] theorem addFault_refused (f : FaultRecord) : (s.addFault f).refused = s.refused := rfl
@[simp] theorem addFault_label (f : FaultRecord) : (s.addFault f).label = s.label := rfl
@[simp] theorem addFault_sched (f : FaultRecord) : (s.addFault f).sched = s.sched := rfl
@[simp] theorem addFault_draws (f : FaultRecord) : (s.addFault f).draws = s.draws := rfl
@[simp] theorem addFault_drawCount (f : FaultRecord) : (s.addFault f).drawCount = s.drawCount := rfl

/-! ### refuse -/

@[simp] theorem refuse_cfg (r : RefuseReason) : (refuse s r).cfg = s.cfg := rfl
@[simp] theorem refuse_tx (r : RefuseReason) : (refuse s r).tx = s.tx := rfl
@[simp] theorem refuse_rx (r : RefuseReason) : (refuse s r).rx = s.rx := rfl
@[simp] theorem refuse_initState (r : RefuseReason) : (refuse s r).initState = s.initState := rfl
@[simp] theorem refuse_txState (r : RefuseReason) : (refuse s r).txState = s.txState := rfl
@[simp] theorem refuse_rxState (r : RefuseReason) : (refuse s r).rxState = s.rxState := rfl
@[simp] theorem refuse_irqEnTx (r : RefuseReason) : (refuse s r).irqEnTx = s.irqEnTx := rfl
@[simp] theorem refuse_irqEnRx (r : RefuseReason) : (refuse s r).irqEnRx = s.irqEnRx := rfl
@[simp] theorem refuse_txInflight (r : RefuseReason) : (refuse s r).txInflight = s.txInflight := rfl
@[simp] theorem refuse_txIrq (r : RefuseReason) : (refuse s r).txIrq = s.txIrq := rfl
@[simp] theorem refuse_rxArmed (r : RefuseReason) : (refuse s r).rxArmed = s.rxArmed := rfl
@[simp] theorem refuse_rxIrq (r : RefuseReason) : (refuse s r).rxIrq = s.rxIrq := rfl
@[simp] theorem refuse_rxData (r : RefuseReason) : (refuse s r).rxData = s.rxData := rfl
@[simp] theorem refuse_wireOut (r : RefuseReason) : (refuse s r).wireOut = s.wireOut := rfl
@[simp] theorem refuse_wireIn (r : RefuseReason) : (refuse s r).wireIn = s.wireIn := rfl
@[simp] theorem refuse_wireLost (r : RefuseReason) : (refuse s r).wireLost = s.wireLost := rfl
@[simp] theorem refuse_frBusy (r : RefuseReason) : (refuse s r).frBusy = s.frBusy := rfl
@[simp] theorem refuse_frSeq (r : RefuseReason) : (refuse s r).frSeq = s.frSeq := rfl
@[simp] theorem refuse_frPos (r : RefuseReason) : (refuse s r).frPos = s.frPos := rfl
@[simp] theorem refuse_ps (r : RefuseReason) : (refuse s r).ps = s.ps := rfl
@[simp] theorem refuse_rxFrames (r : RefuseReason) : (refuse s r).rxFrames = s.rxFrames := rfl
@[simp] theorem refuse_touch (r : RefuseReason) : (refuse s r).touch = s.touch := rfl
@[simp] theorem refuse_encCount (r : RefuseReason) : (refuse s r).encCount = s.encCount := rfl
@[simp] theorem refuse_encLast (r : RefuseReason) : (refuse s r).encLast = s.encLast := rfl
@[simp] theorem refuse_btnLatch (r : RefuseReason) : (refuse s r).btnLatch = s.btnLatch := rfl
@[simp] theorem refuse_faults (r : RefuseReason) : (refuse s r).faults = s.faults := rfl
@[simp] theorem refuse_refused (r : RefuseReason) : (refuse s r).refused = true := rfl
@[simp] theorem refuse_label (r : RefuseReason) : (refuse s r).label = .refused r := rfl
@[simp] theorem refuse_sched (r : RefuseReason) : (refuse s r).sched = s.sched := rfl
@[simp] theorem refuse_draws (r : RefuseReason) : (refuse s r).draws = s.draws := rfl
@[simp] theorem refuse_drawCount (r : RefuseReason) : (refuse s r).drawCount = s.drawCount := rfl

/-! ### afterDraw -/

@[simp] theorem afterDraw_cfg : (s.afterDraw).cfg = s.cfg := rfl
@[simp] theorem afterDraw_tx : (s.afterDraw).tx = s.tx := rfl
@[simp] theorem afterDraw_rx : (s.afterDraw).rx = s.rx := rfl
@[simp] theorem afterDraw_initState : (s.afterDraw).initState = s.initState := rfl
@[simp] theorem afterDraw_txState : (s.afterDraw).txState = s.txState := rfl
@[simp] theorem afterDraw_rxState : (s.afterDraw).rxState = s.rxState := rfl
@[simp] theorem afterDraw_irqEnTx : (s.afterDraw).irqEnTx = s.irqEnTx := rfl
@[simp] theorem afterDraw_irqEnRx : (s.afterDraw).irqEnRx = s.irqEnRx := rfl
@[simp] theorem afterDraw_txInflight : (s.afterDraw).txInflight = s.txInflight := rfl
@[simp] theorem afterDraw_txIrq : (s.afterDraw).txIrq = s.txIrq := rfl
@[simp] theorem afterDraw_rxArmed : (s.afterDraw).rxArmed = s.rxArmed := rfl
@[simp] theorem afterDraw_rxIrq : (s.afterDraw).rxIrq = s.rxIrq := rfl
@[simp] theorem afterDraw_rxData : (s.afterDraw).rxData = s.rxData := rfl
@[simp] theorem afterDraw_wireOut : (s.afterDraw).wireOut = s.wireOut := rfl
@[simp] theorem afterDraw_wireIn : (s.afterDraw).wireIn = s.wireIn := rfl
@[simp] theorem afterDraw_wireLost : (s.afterDraw).wireLost = s.wireLost := rfl
@[simp] theorem afterDraw_frBusy : (s.afterDraw).frBusy = s.frBusy := rfl
@[simp] theorem afterDraw_frSeq : (s.afterDraw).frSeq = s.frSeq := rfl
@[simp] theorem afterDraw_frPos : (s.afterDraw).frPos = s.frPos := rfl
@[simp] theorem afterDraw_ps : (s.afterDraw).ps = s.ps := rfl
@[simp] theorem afterDraw_rxFrames : (s.afterDraw).rxFrames = s.rxFrames := rfl
@[simp] theorem afterDraw_touch : (s.afterDraw).touch = s.touch := rfl
@[simp] theorem afterDraw_encCount : (s.afterDraw).encCount = s.encCount := rfl
@[simp] theorem afterDraw_encLast : (s.afterDraw).encLast = s.encLast := rfl
@[simp] theorem afterDraw_btnLatch : (s.afterDraw).btnLatch = s.btnLatch := rfl
@[simp] theorem afterDraw_faults : (s.afterDraw).faults = s.faults := rfl
@[simp] theorem afterDraw_refused : (s.afterDraw).refused = s.refused := rfl
@[simp] theorem afterDraw_label : (s.afterDraw).label = s.label := rfl
@[simp] theorem afterDraw_sched : (s.afterDraw).sched = s.sched := rfl
@[simp] theorem afterDraw_draws : (s.afterDraw).draws = s.draws.tail := rfl
@[simp] theorem afterDraw_drawCount : (s.afterDraw).drawCount = s.drawCount + 1 := rfl

/-! ### startTx -/

@[simp] theorem startTx_cfg (b : Byte) : (startTx s b).cfg = s.cfg := rfl
@[simp] theorem startTx_tx (b : Byte) : (startTx s b).tx = s.tx := rfl
@[simp] theorem startTx_rx (b : Byte) : (startTx s b).rx = s.rx := rfl
@[simp] theorem startTx_initState (b : Byte) : (startTx s b).initState = s.initState := rfl
@[simp] theorem startTx_txState (b : Byte) : (startTx s b).txState = s.txState := rfl
@[simp] theorem startTx_rxState (b : Byte) : (startTx s b).rxState = s.rxState := rfl
@[simp] theorem startTx_irqEnTx (b : Byte) : (startTx s b).irqEnTx = s.irqEnTx := rfl
@[simp] theorem startTx_irqEnRx (b : Byte) : (startTx s b).irqEnRx = s.irqEnRx := rfl
@[simp] theorem startTx_txInflight (b : Byte) : (startTx s b).txInflight = some b := rfl
@[simp] theorem startTx_txIrq (b : Byte) : (startTx s b).txIrq = s.txIrq := rfl
@[simp] theorem startTx_rxArmed (b : Byte) : (startTx s b).rxArmed = s.rxArmed := rfl
@[simp] theorem startTx_rxIrq (b : Byte) : (startTx s b).rxIrq = s.rxIrq := rfl
@[simp] theorem startTx_rxData (b : Byte) : (startTx s b).rxData = s.rxData := rfl
@[simp] theorem startTx_wireOut (b : Byte) : (startTx s b).wireOut = s.wireOut := rfl
@[simp] theorem startTx_wireIn (b : Byte) : (startTx s b).wireIn = s.wireIn := rfl
@[simp] theorem startTx_wireLost (b : Byte) : (startTx s b).wireLost = s.wireLost := rfl
@[simp] theorem startTx_frBusy (b : Byte) : (startTx s b).frBusy = s.frBusy := rfl
@[simp] theorem startTx_frSeq (b : Byte) : (startTx s b).frSeq = s.frSeq := rfl
@[simp] theorem startTx_frPos (b : Byte) : (startTx s b).frPos = s.frPos := rfl
@[simp] theorem startTx_ps (b : Byte) : (startTx s b).ps = s.ps := rfl
@[simp] theorem startTx_rxFrames (b : Byte) : (startTx s b).rxFrames = s.rxFrames := rfl
@[simp] theorem startTx_touch (b : Byte) : (startTx s b).touch = s.touch := rfl
@[simp] theorem startTx_encCount (b : Byte) : (startTx s b).encCount = s.encCount := rfl
@[simp] theorem startTx_encLast (b : Byte) : (startTx s b).encLast = s.encLast := rfl
@[simp] theorem startTx_btnLatch (b : Byte) : (startTx s b).btnLatch = s.btnLatch := rfl
@[simp] theorem startTx_faults (b : Byte) : (startTx s b).faults = s.faults := rfl
@[simp] theorem startTx_refused (b : Byte) : (startTx s b).refused = s.refused := rfl
@[simp] theorem startTx_label (b : Byte) : (startTx s b).label = s.label := rfl
@[simp] theorem startTx_sched (b : Byte) : (startTx s b).sched = s.sched := rfl
@[simp] theorem startTx_draws (b : Byte) : (startTx s b).draws = s.draws := rfl
@[simp] theorem startTx_drawCount (b : Byte) : (startTx s b).drawCount = s.drawCount := rfl

/-! ### startRx -/

@[simp] theorem startRx_cfg : (startRx s).cfg = s.cfg := rfl
@[simp] theorem startRx_tx : (startRx s).tx = s.tx := rfl
@[simp] theorem startRx_rx : (startRx s).rx = s.rx := rfl
@[simp] theorem startRx_initState : (startRx s).initState = s.initState := rfl
@[simp] theorem startRx_txState : (startRx s).txState = s.txState := rfl
@[simp] theorem startRx_rxState : (startRx s).rxState = s.rxState := rfl
@[simp] theorem startRx_irqEnTx : (startRx s).irqEnTx = s.irqEnTx := rfl
@[simp] theorem startRx_irqEnRx : (startRx s).irqEnRx = s.irqEnRx := rfl
@[simp] theorem startRx_txInflight : (startRx s).txInflight = s.txInflight := rfl
@[simp] theorem startRx_txIrq : (startRx s).txIrq = s.txIrq := rfl
@[simp] theorem startRx_rxArmed : (startRx s).rxArmed = true := rfl
@[simp] theorem startRx_rxIrq : (startRx s).rxIrq = s.rxIrq := rfl
@[simp] theorem startRx_rxData : (startRx s).rxData = s.rxData := rfl
@[simp] theorem startRx_wireOut : (startRx s).wireOut = s.wireOut := rfl
@[simp] theorem startRx_wireIn : (startRx s).wireIn = s.wireIn := rfl
@[simp] theorem startRx_wireLost : (startRx s).wireLost = s.wireLost := rfl
@[simp] theorem startRx_frBusy : (startRx s).frBusy = s.frBusy := rfl
@[simp] theorem startRx_frSeq : (startRx s).frSeq = s.frSeq := rfl
@[simp] theorem startRx_frPos : (startRx s).frPos = s.frPos := rfl
@[simp] theorem startRx_ps : (startRx s).ps = s.ps := rfl
@[simp] theorem startRx_rxFrames : (startRx s).rxFrames = s.rxFrames := rfl
@[simp] theorem startRx_touch : (startRx s).touch = s.touch := rfl
@[simp] theorem startRx_encCount : (startRx s).encCount = s.encCount := rfl
@[simp] theorem startRx_encLast : (startRx s).encLast = s.encLast := rfl
@[simp] theorem startRx_btnLatch : (startRx s).btnLatch = s.btnLatch := rfl
@[simp] theorem startRx_faults : (startRx s).faults = s.faults := rfl
@[simp] theorem startRx_refused : (startRx s).refused = s.refused := rfl
@[simp] theorem startRx_label : (startRx s).label = s.label := rfl
@[simp] theorem startRx_sched : (startRx s).sched = s.sched := rfl
@[simp] theorem startRx_draws : (startRx s).draws = s.draws := rfl
@[simp] theorem startRx_drawCount : (startRx s).drawCount = s.drawCount := rfl

/-! ### offered -/

@[simp] theorem offered_cfg (o : Offer) : (s.offered o).cfg = s.cfg := rfl
@[simp] theorem offered_tx (o : Offer) : (s.offered o).tx = s.tx := rfl
@[simp] theorem offered_rx (o : Offer) : (s.offered o).rx = s.rx := rfl
@[simp] theorem offered_initState (o : Offer) : (s.offered o).initState = s.initState := rfl
@[simp] theorem offered_txState (o : Offer) : (s.offered o).txState = s.txState := rfl
@[simp] theorem offered_rxState (o : Offer) : (s.offered o).rxState = s.rxState := rfl
@[simp] theorem offered_irqEnTx (o : Offer) : (s.offered o).irqEnTx = s.irqEnTx := rfl
@[simp] theorem offered_irqEnRx (o : Offer) : (s.offered o).irqEnRx = s.irqEnRx := rfl
@[simp] theorem offered_txInflight (o : Offer) : (s.offered o).txInflight = s.txInflight := rfl
@[simp] theorem offered_txIrq (o : Offer) : (s.offered o).txIrq = s.txIrq := rfl
@[simp] theorem offered_rxArmed (o : Offer) : (s.offered o).rxArmed = s.rxArmed := rfl
@[simp] theorem offered_rxIrq (o : Offer) : (s.offered o).rxIrq = s.rxIrq := rfl
@[simp] theorem offered_rxData (o : Offer) : (s.offered o).rxData = s.rxData := rfl
@[simp] theorem offered_wireOut (o : Offer) : (s.offered o).wireOut = s.wireOut := rfl
@[simp] theorem offered_wireIn (o : Offer) : (s.offered o).wireIn = s.wireIn := rfl
@[simp] theorem offered_wireLost (o : Offer) : (s.offered o).wireLost = s.wireLost := rfl
@[simp] theorem offered_frBusy (o : Offer) : (s.offered o).frBusy = s.frBusy := rfl
@[simp] theorem offered_frSeq (o : Offer) : (s.offered o).frSeq = s.frSeq := rfl
@[simp] theorem offered_frPos (o : Offer) : (s.offered o).frPos = s.frPos := rfl
@[simp] theorem offered_ps (o : Offer) : (s.offered o).ps = s.ps := rfl
@[simp] theorem offered_rxFrames (o : Offer) : (s.offered o).rxFrames = s.rxFrames := rfl
@[simp] theorem offered_touch (o : Offer) : (s.offered o).touch = s.touch := rfl
@[simp] theorem offered_encCount (o : Offer) : (s.offered o).encCount = s.encCount := rfl
@[simp] theorem offered_encLast (o : Offer) : (s.offered o).encLast = s.encLast := rfl
@[simp] theorem offered_btnLatch (o : Offer) : (s.offered o).btnLatch = s.btnLatch := rfl
@[simp] theorem offered_faults (o : Offer) : (s.offered o).faults = s.faults := rfl
@[simp] theorem offered_refused (o : Offer) : (s.offered o).refused = s.refused := rfl
@[simp] theorem offered_label (o : Offer) : (s.offered o).label = s.label := rfl
@[simp] theorem offered_sched (o : Offer) : (s.offered o).sched = o :: s.sched := rfl
@[simp] theorem offered_draws (o : Offer) : (s.offered o).draws = s.draws := rfl
@[simp] theorem offered_drawCount (o : Offer) : (s.offered o).drawCount = s.drawCount := rfl

/-! ### The labels -/

theorem noStep_eq : s.noStep = s.setLabel .noStep := rfl
theorem ret_eq (r : Result) : s.ret r = s.setLabel (.ret r) := rfl
theorem silent_eq : s.silent = s.setLabel .silent := rfl

@[simp] theorem noStep_cfg : (s.noStep).cfg = s.cfg := rfl
@[simp] theorem noStep_tx : (s.noStep).tx = s.tx := rfl
@[simp] theorem noStep_rx : (s.noStep).rx = s.rx := rfl
@[simp] theorem noStep_initState : (s.noStep).initState = s.initState := rfl
@[simp] theorem noStep_txState : (s.noStep).txState = s.txState := rfl
@[simp] theorem noStep_rxState : (s.noStep).rxState = s.rxState := rfl
@[simp] theorem noStep_irqEnTx : (s.noStep).irqEnTx = s.irqEnTx := rfl
@[simp] theorem noStep_irqEnRx : (s.noStep).irqEnRx = s.irqEnRx := rfl
@[simp] theorem noStep_txInflight : (s.noStep).txInflight = s.txInflight := rfl
@[simp] theorem noStep_txIrq : (s.noStep).txIrq = s.txIrq := rfl
@[simp] theorem noStep_rxArmed : (s.noStep).rxArmed = s.rxArmed := rfl
@[simp] theorem noStep_rxIrq : (s.noStep).rxIrq = s.rxIrq := rfl
@[simp] theorem noStep_rxData : (s.noStep).rxData = s.rxData := rfl
@[simp] theorem noStep_wireOut : (s.noStep).wireOut = s.wireOut := rfl
@[simp] theorem noStep_wireIn : (s.noStep).wireIn = s.wireIn := rfl
@[simp] theorem noStep_wireLost : (s.noStep).wireLost = s.wireLost := rfl
@[simp] theorem noStep_frBusy : (s.noStep).frBusy = s.frBusy := rfl
@[simp] theorem noStep_frSeq : (s.noStep).frSeq = s.frSeq := rfl
@[simp] theorem noStep_frPos : (s.noStep).frPos = s.frPos := rfl
@[simp] theorem noStep_ps : (s.noStep).ps = s.ps := rfl
@[simp] theorem noStep_rxFrames : (s.noStep).rxFrames = s.rxFrames := rfl
@[simp] theorem noStep_touch : (s.noStep).touch = s.touch := rfl
@[simp] theorem noStep_encCount : (s.noStep).encCount = s.encCount := rfl
@[simp] theorem noStep_encLast : (s.noStep).encLast = s.encLast := rfl
@[simp] theorem noStep_btnLatch : (s.noStep).btnLatch = s.btnLatch := rfl
@[simp] theorem noStep_faults : (s.noStep).faults = s.faults := rfl
@[simp] theorem noStep_refused : (s.noStep).refused = s.refused := rfl
@[simp] theorem noStep_label : (s.noStep).label = .noStep := rfl
@[simp] theorem noStep_sched : (s.noStep).sched = s.sched := rfl
@[simp] theorem noStep_draws : (s.noStep).draws = s.draws := rfl
@[simp] theorem noStep_drawCount : (s.noStep).drawCount = s.drawCount := rfl
@[simp] theorem ret_cfg (r : Result) : (s.ret r).cfg = s.cfg := rfl
@[simp] theorem ret_tx (r : Result) : (s.ret r).tx = s.tx := rfl
@[simp] theorem ret_rx (r : Result) : (s.ret r).rx = s.rx := rfl
@[simp] theorem ret_initState (r : Result) : (s.ret r).initState = s.initState := rfl
@[simp] theorem ret_txState (r : Result) : (s.ret r).txState = s.txState := rfl
@[simp] theorem ret_rxState (r : Result) : (s.ret r).rxState = s.rxState := rfl
@[simp] theorem ret_irqEnTx (r : Result) : (s.ret r).irqEnTx = s.irqEnTx := rfl
@[simp] theorem ret_irqEnRx (r : Result) : (s.ret r).irqEnRx = s.irqEnRx := rfl
@[simp] theorem ret_txInflight (r : Result) : (s.ret r).txInflight = s.txInflight := rfl
@[simp] theorem ret_txIrq (r : Result) : (s.ret r).txIrq = s.txIrq := rfl
@[simp] theorem ret_rxArmed (r : Result) : (s.ret r).rxArmed = s.rxArmed := rfl
@[simp] theorem ret_rxIrq (r : Result) : (s.ret r).rxIrq = s.rxIrq := rfl
@[simp] theorem ret_rxData (r : Result) : (s.ret r).rxData = s.rxData := rfl
@[simp] theorem ret_wireOut (r : Result) : (s.ret r).wireOut = s.wireOut := rfl
@[simp] theorem ret_wireIn (r : Result) : (s.ret r).wireIn = s.wireIn := rfl
@[simp] theorem ret_wireLost (r : Result) : (s.ret r).wireLost = s.wireLost := rfl
@[simp] theorem ret_frBusy (r : Result) : (s.ret r).frBusy = s.frBusy := rfl
@[simp] theorem ret_frSeq (r : Result) : (s.ret r).frSeq = s.frSeq := rfl
@[simp] theorem ret_frPos (r : Result) : (s.ret r).frPos = s.frPos := rfl
@[simp] theorem ret_ps (r : Result) : (s.ret r).ps = s.ps := rfl
@[simp] theorem ret_rxFrames (r : Result) : (s.ret r).rxFrames = s.rxFrames := rfl
@[simp] theorem ret_touch (r : Result) : (s.ret r).touch = s.touch := rfl
@[simp] theorem ret_encCount (r : Result) : (s.ret r).encCount = s.encCount := rfl
@[simp] theorem ret_encLast (r : Result) : (s.ret r).encLast = s.encLast := rfl
@[simp] theorem ret_btnLatch (r : Result) : (s.ret r).btnLatch = s.btnLatch := rfl
@[simp] theorem ret_faults (r : Result) : (s.ret r).faults = s.faults := rfl
@[simp] theorem ret_refused (r : Result) : (s.ret r).refused = s.refused := rfl
@[simp] theorem ret_label (r : Result) : (s.ret r).label = .ret r := rfl
@[simp] theorem ret_sched (r : Result) : (s.ret r).sched = s.sched := rfl
@[simp] theorem ret_draws (r : Result) : (s.ret r).draws = s.draws := rfl
@[simp] theorem ret_drawCount (r : Result) : (s.ret r).drawCount = s.drawCount := rfl
@[simp] theorem silent_cfg : (s.silent).cfg = s.cfg := rfl
@[simp] theorem silent_tx : (s.silent).tx = s.tx := rfl
@[simp] theorem silent_rx : (s.silent).rx = s.rx := rfl
@[simp] theorem silent_initState : (s.silent).initState = s.initState := rfl
@[simp] theorem silent_txState : (s.silent).txState = s.txState := rfl
@[simp] theorem silent_rxState : (s.silent).rxState = s.rxState := rfl
@[simp] theorem silent_irqEnTx : (s.silent).irqEnTx = s.irqEnTx := rfl
@[simp] theorem silent_irqEnRx : (s.silent).irqEnRx = s.irqEnRx := rfl
@[simp] theorem silent_txInflight : (s.silent).txInflight = s.txInflight := rfl
@[simp] theorem silent_txIrq : (s.silent).txIrq = s.txIrq := rfl
@[simp] theorem silent_rxArmed : (s.silent).rxArmed = s.rxArmed := rfl
@[simp] theorem silent_rxIrq : (s.silent).rxIrq = s.rxIrq := rfl
@[simp] theorem silent_rxData : (s.silent).rxData = s.rxData := rfl
@[simp] theorem silent_wireOut : (s.silent).wireOut = s.wireOut := rfl
@[simp] theorem silent_wireIn : (s.silent).wireIn = s.wireIn := rfl
@[simp] theorem silent_wireLost : (s.silent).wireLost = s.wireLost := rfl
@[simp] theorem silent_frBusy : (s.silent).frBusy = s.frBusy := rfl
@[simp] theorem silent_frSeq : (s.silent).frSeq = s.frSeq := rfl
@[simp] theorem silent_frPos : (s.silent).frPos = s.frPos := rfl
@[simp] theorem silent_ps : (s.silent).ps = s.ps := rfl
@[simp] theorem silent_rxFrames : (s.silent).rxFrames = s.rxFrames := rfl
@[simp] theorem silent_touch : (s.silent).touch = s.touch := rfl
@[simp] theorem silent_encCount : (s.silent).encCount = s.encCount := rfl
@[simp] theorem silent_encLast : (s.silent).encLast = s.encLast := rfl
@[simp] theorem silent_btnLatch : (s.silent).btnLatch = s.btnLatch := rfl
@[simp] theorem silent_faults : (s.silent).faults = s.faults := rfl
@[simp] theorem silent_refused : (s.silent).refused = s.refused := rfl
@[simp] theorem silent_label : (s.silent).label = .silent := rfl
@[simp] theorem silent_sched : (s.silent).sched = s.sched := rfl
@[simp] theorem silent_draws : (s.silent).draws = s.draws := rfl
@[simp] theorem silent_drawCount : (s.silent).drawCount = s.drawCount := rfl

/-! ### setChan -/

@[simp] theorem setChan_cfg (c : Channel) (t : Touch) : (s.setChan c t).cfg = s.cfg := rfl
@[simp] theorem setChan_tx (c : Channel) (t : Touch) : (s.setChan c t).tx = s.tx := rfl
@[simp] theorem setChan_rx (c : Channel) (t : Touch) : (s.setChan c t).rx = s.rx := rfl
@[simp] theorem setChan_initState (c : Channel) (t : Touch) : (s.setChan c t).initState = s.initState := rfl
@[simp] theorem setChan_txState (c : Channel) (t : Touch) : (s.setChan c t).txState = s.txState := rfl
@[simp] theorem setChan_rxState (c : Channel) (t : Touch) : (s.setChan c t).rxState = s.rxState := rfl
@[simp] theorem setChan_irqEnTx (c : Channel) (t : Touch) : (s.setChan c t).irqEnTx = s.irqEnTx := rfl
@[simp] theorem setChan_irqEnRx (c : Channel) (t : Touch) : (s.setChan c t).irqEnRx = s.irqEnRx := rfl
@[simp] theorem setChan_txInflight (c : Channel) (t : Touch) : (s.setChan c t).txInflight = s.txInflight := rfl
@[simp] theorem setChan_txIrq (c : Channel) (t : Touch) : (s.setChan c t).txIrq = s.txIrq := rfl
@[simp] theorem setChan_rxArmed (c : Channel) (t : Touch) : (s.setChan c t).rxArmed = s.rxArmed := rfl
@[simp] theorem setChan_rxIrq (c : Channel) (t : Touch) : (s.setChan c t).rxIrq = s.rxIrq := rfl
@[simp] theorem setChan_rxData (c : Channel) (t : Touch) : (s.setChan c t).rxData = s.rxData := rfl
@[simp] theorem setChan_wireOut (c : Channel) (t : Touch) : (s.setChan c t).wireOut = s.wireOut := rfl
@[simp] theorem setChan_wireIn (c : Channel) (t : Touch) : (s.setChan c t).wireIn = s.wireIn := rfl
@[simp] theorem setChan_wireLost (c : Channel) (t : Touch) : (s.setChan c t).wireLost = s.wireLost := rfl
@[simp] theorem setChan_frBusy (c : Channel) (t : Touch) : (s.setChan c t).frBusy = s.frBusy := rfl
@[simp] theorem setChan_frSeq (c : Channel) (t : Touch) : (s.setChan c t).frSeq = s.frSeq := rfl
@[simp] theorem setChan_frPos (c : Channel) (t : Touch) : (s.setChan c t).frPos = s.frPos := rfl
@[simp] theorem setChan_ps (c : Channel) (t : Touch) : (s.setChan c t).ps = s.ps := rfl
@[simp] theorem setChan_rxFrames (c : Channel) (t : Touch) : (s.setChan c t).rxFrames = s.rxFrames := rfl
@[simp] theorem setChan_encCount (c : Channel) (t : Touch) : (s.setChan c t).encCount = s.encCount := rfl
@[simp] theorem setChan_encLast (c : Channel) (t : Touch) : (s.setChan c t).encLast = s.encLast := rfl
@[simp] theorem setChan_btnLatch (c : Channel) (t : Touch) : (s.setChan c t).btnLatch = s.btnLatch := rfl
@[simp] theorem setChan_faults (c : Channel) (t : Touch) : (s.setChan c t).faults = s.faults := rfl
@[simp] theorem setChan_refused (c : Channel) (t : Touch) : (s.setChan c t).refused = s.refused := rfl
@[simp] theorem setChan_label (c : Channel) (t : Touch) : (s.setChan c t).label = s.label := rfl
@[simp] theorem setChan_sched (c : Channel) (t : Touch) : (s.setChan c t).sched = s.sched := rfl
@[simp] theorem setChan_draws (c : Channel) (t : Touch) : (s.setChan c t).draws = s.draws := rfl
@[simp] theorem setChan_drawCount (c : Channel) (t : Touch) : (s.setChan c t).drawCount = s.drawCount := rfl
@[simp] theorem setChan_touch (c : Channel) (t : Touch) : (s.setChan c t).touch = s.touch.set c.index t := rfl

theorem Channel.index_inj {c c' : Channel} (h : c.index = c'.index) : c = c' := by
  cases c <;> cases c' <;> first | rfl | cases h

/-- Reading the channel just stored, where there is one. -/
theorem setChan_chan_self (c : Channel) (t : Touch) (h : s.hasChan c = true) : (s.setChan c t).chan c = some t := by
  have : c.index < s.touch.length := by simpa [State.hasChan, State.chan] using h
  simp [State.chan, this]

/-- Every other channel reads as before. -/
theorem setChan_chan_other (c c' : Channel) (t : Touch) (h : c' ≠ c) : (s.setChan c t).chan c' = s.chan c' := by
  simp [State.chan, List.getElem?_set_ne (fun e => h (Channel.index_inj e).symm)]

end Sys2Proof.Machine
end

