-- ==== Sys2Proof/Laws/Buffer.lean ====
section
/-! SUPPORT. The circular buffer: what `count`, `unread`, `cbWrite` and `cbRead` do, under the buffer invariant. -/
namespace Sys2Proof.Machine
open Sys2Proof.Safety

/-- A remainder of a number below twice the modulus. -/
theorem mod_below_twice {a m : Nat} (h : a < 2 * m) : a % m = if a < m then a else a - m := by
  split
  · exact Nat.mod_eq_of_lt ‹_›
  · rw [Nat.mod_eq_sub_mod (by omega), Nat.mod_eq_of_lt (by omega)]

theorem nextIndex_lt {n i : Nat} (h : 0 < n) : nextIndex n i < n := Nat.mod_lt _ h

theorem nextIndex_eq {n i : Nat} (h : i < n) : nextIndex n i = if i + 1 < n then i + 1 else 0 := by
  unfold nextIndex
  rw [mod_below_twice (by omega)]
  split <;> omega

variable {cap : Nat} {b : Cb}

/-- `count` without the modulus. -/
theorem count_eq (h : BufferInv cap b) :
    b.count cap = if b.full then cap else if b.head ≤ b.tail then b.tail - b.head else b.tail + cap - b.head := by
  obtain ⟨-, hh, ht, -, -⟩ := h
  unfold Cb.count modN
  split
  · rfl
  · split
    · rw [Int.emod_eq_of_lt (by omega) (by omega)]; omega
    · rw [← Int.add_emod_right, Int.emod_eq_of_lt (by omega) (by omega)]; omega

/-- What `count` is, said without its formula. -/
theorem count_spec (h : BufferInv cap b) :
    b.count cap ≤ cap ∧ (b.head + b.count cap) % cap = b.tail ∧ (b.count cap = 0 ↔ b.empty = true)
      ∧ (b.count cap = cap ↔ b.full = true) := by
  have hc := count_eq h
  obtain ⟨-, hh, ht, hfe, heq⟩ := h
  have hmod : b.head + b.count cap < 2 * cap := by
    rw [hc]; split
    · omega
    · split <;> omega
  rw [mod_below_twice hmod]
  generalize b.count cap = n at *
  cases hf : b.full <;> cases he : b.empty <;> simp only [hf, he] at hfe heq hc <;> simp at hfe heq hc ⊢ <;>
    (try split at hc) <;> (try split) <;> omega

/-- `count` is the only number with its properties. -/
theorem count_unique (h : BufferInv cap b) {c : Nat} (hc : c ≤ cap) (ht : (b.head + c) % cap = b.tail)
    (hf : c = cap ↔ b.full = true) : b.count cap = c := by
  have hs := count_spec h
  obtain ⟨-, hh, -, -, -⟩ := h
  obtain ⟨h1, h2, -, h4⟩ := hs
  by_cases hcc : c = cap
  · rw [hcc]; exact h4.2 (hf.1 hcc)
  · have : b.count cap ≠ cap := fun e => hcc (hf.2 (h4.1 e))
    rw [← h2, mod_below_twice (by omega), mod_below_twice (by omega)] at ht
    split at ht <;> split at ht <;> omega

theorem count_lt_of_not_full (h : BufferInv cap b) (hf : b.full = false) : b.count cap < cap := by
  have hs := count_spec h
  have : b.count cap ≠ cap := fun e => by rw [hs.2.2.2.1 e] at hf; cases hf
  omega

theorem count_pos_of_not_empty (h : BufferInv cap b) (he : b.empty = false) : 0 < b.count cap := by
  have hs := count_spec h
  have : b.count cap ≠ 0 := fun e => by rw [hs.2.2.1.1 e] at he; cases he
  omega

@[simp] theorem unread_length : (b.unread cap).length = b.count cap := by simp [Cb.unread]

theorem unread_eq_nil_iff (h : BufferInv cap b) : b.unread cap = [] ↔ b.empty = true := by
  rw [← (count_spec h).2.2.1, ← unread_length, List.length_eq_zero_iff]

/-- Reading a slot after writing one. -/
theorem slot_set (b : Cb) (i : Nat) (d : Byte) (hd tl : Nat) (f e : Bool) (j : Nat) (hi : i < b.data.length) :
    ({ data := b.data.set i d, head := hd, tail := tl, full := f, empty := e } : Cb).slot j = if j = i then d else b.slot j := by
  unfold Cb.slot
  by_cases hj : j = i
  · subst hj; simp [hi]
  · rw [if_neg hj]
    simp only [List.getD_eq_getElem?_getD, List.getElem?_set_ne (Ne.symm hj)]

theorem cbWrite_full (cap : Nat) (d : Byte) (hf : b.full = true) : cbWrite cap b d = (false, b) := by simp [cbWrite, hf]

theorem cbWrite_ok (cap : Nat) (d : Byte) (hf : b.full = false) :
    cbWrite cap b d = (true, { data := b.data.set b.tail d, head := b.head, tail := nextIndex cap b.tail,
                               full := b.head == nextIndex cap b.tail, empty := false }) := by
  simp [cbWrite, hf, fullAfterWrite]

theorem cbRead_empty (cap : Nat) (he : b.empty = true) : cbRead cap b = (none, b) := by simp [cbRead, he]

theorem cbRead_ok (cap : Nat) (he : b.empty = false) :
    cbRead cap b = (some (b.slot b.head), { data := b.data, head := nextIndex cap b.head, tail := b.tail, full := false,
                                            empty := nextIndex cap b.head == b.tail }) := by
  simp [cbRead, he, emptyAfterRead]

/-- A write keeps the buffer invariant. -/
theorem cbWrite_inv (h : BufferInv cap b) (d : Byte) : BufferInv cap (cbWrite cap b d).2 := by
  obtain ⟨hl, hh, ht, hfe, heq⟩ := h
  cases hf : b.full
  · have hn := nextIndex_lt (n := cap) (i := b.tail) (by omega)
    rw [cbWrite_ok cap d hf]
    refine ⟨by simp [hl], hh, hn, by simp, by simp⟩
  · rw [cbWrite_full cap d hf]; exact ⟨hl, hh, ht, hfe, heq⟩

/-- A read keeps the buffer invariant. -/
theorem cbRead_inv (h : BufferInv cap b) : BufferInv cap (cbRead cap b).2 := by
  obtain ⟨hl, hh, ht, hfe, heq⟩ := h
  cases he : b.empty
  · have hn := nextIndex_lt (n := cap) (i := b.head) (by omega)
    rw [cbRead_ok cap he]
    exact ⟨hl, hn, ht, by simp, by simp⟩
  · rw [cbRead_empty cap he]; exact ⟨hl, hh, ht, hfe, heq⟩

/-- A clear keeps the buffer invariant. -/
theorem cbClear_inv (h : BufferInv cap b) : BufferInv cap (cbClear b) := by
  obtain ⟨hl, hh, -, -, -⟩ := h
  exact ⟨hl, by show 0 < cap; omega, by show 0 < cap; omega, by simp [cbClear], by simp [cbClear]⟩

theorem cbClear_count (h : BufferInv cap b) : (cbClear b).count cap = 0 :=
  (count_spec (cbClear_inv h)).2.2.1.2 rfl

theorem cbClear_unread (h : BufferInv cap b) : (cbClear b).unread cap = [] :=
  (unread_eq_nil_iff (cbClear_inv h)).2 rfl

/-- A write that is taken adds one to the count. -/
theorem cbWrite_count (h : BufferInv cap b) (d : Byte) (hf : b.full = false) :
    (cbWrite cap b d).2.count cap = b.count cap + 1 := by
  have hs := count_spec h
  have hlt := count_lt_of_not_full h hf
  have hinv := cbWrite_inv h d
  rw [cbWrite_ok cap d hf] at hinv ⊢
  obtain ⟨hl, hh, ht, hfe, heq⟩ := h
  refine count_unique hinv hlt ?_ ?_
  · show (b.head + (b.count cap + 1)) % cap = nextIndex cap b.tail
    rw [nextIndex, ← hs.2.1, Nat.mod_add_mod, Nat.add_assoc]
  · show b.count cap + 1 = cap ↔ (b.head == nextIndex cap b.tail) = true
    have h2 := hs.2.1
    rw [mod_below_twice (by omega)] at h2
    rw [nextIndex_eq ht, beq_iff_eq]
    split at h2 <;> split <;> omega

/-- A read that returns a byte takes one from the count. -/
theorem cbRead_count (h : BufferInv cap b) (he : b.empty = false) :
    (cbRead cap b).2.count cap + 1 = b.count cap := by
  have hs := count_spec h
  have hpos := count_pos_of_not_empty h he
  have hinv := cbRead_inv h
  rw [cbRead_ok cap he] at hinv ⊢
  obtain ⟨hl, hh, ht, hfe, heq⟩ := h
  have : Cb.count cap { data := b.data, head := nextIndex cap b.head, tail := b.tail, full := false,
                        empty := nextIndex cap b.head == b.tail } = b.count cap - 1 := by
    refine count_unique hinv (by omega) ?_ ?_
    · show (nextIndex cap b.head + (b.count cap - 1)) % cap = b.tail
      rw [nextIndex, Nat.mod_add_mod, ← hs.2.1]
      congr 1
      omega
    · show b.count cap - 1 = cap ↔ false = true
      constructor
      · intro; omega
      · intro hx; cases hx
  show Cb.count cap { data := b.data, head := nextIndex cap b.head, tail := b.tail, full := false,
                      empty := nextIndex cap b.head == b.tail } + 1 = b.count cap
  omega

/-- A write that is taken puts its byte after the unread ones; one that is not changes nothing. -/
theorem cbWrite_unread (h : BufferInv cap b) (d : Byte) :
    (cbWrite cap b d).2.unread cap = if b.full then b.unread cap else b.unread cap ++ [d] := by
  cases hf : b.full
  · have hcount := cbWrite_count h d hf
    have hlt := count_lt_of_not_full h hf
    have hs := count_spec h
    unfold Cb.unread
    rw [hcount, List.range_succ, List.map_append]
    rw [cbWrite_ok cap d hf]
    obtain ⟨hl, hh, ht, -, -⟩ := h
    have ht' : b.tail < b.data.length := by omega
    simp only [slot_set b b.tail d _ _ _ _ _ ht', List.map_cons, List.map_nil, hs.2.1, if_true, Bool.false_eq_true, if_false]
    congr 1
    apply List.map_congr_left
    intro k hk
    rw [List.mem_range] at hk
    have hne : (b.head + k) % cap ≠ b.tail := by
      rw [← hs.2.1, mod_below_twice (by omega), mod_below_twice (by omega)]
      split <;> split <;> omega
    rw [if_neg hne]
  · rw [cbWrite_full cap d hf]; simp

/-- A read returns the oldest unread byte and leaves the others. -/
theorem cbRead_unread (h : BufferInv cap b) :
    (cbRead cap b).1.toList ++ (cbRead cap b).2.unread cap = b.unread cap := by
  cases he : b.empty
  · have hcount := cbRead_count h he
    have hs := count_spec h
    conv_rhs => unfold Cb.unread; rw [← hcount, List.range_succ_eq_map, List.map_cons, List.map_map]
    rw [cbRead_ok cap he]
    obtain ⟨hl, hh, ht, -, -⟩ := h
    simp only [Option.toList_some, List.singleton_append, Nat.add_zero, Nat.mod_eq_of_lt hh]
    congr 1
    unfold Cb.unread
    apply List.map_congr_left
    intro k _
    simp only [Function.comp, nextIndex, Nat.mod_add_mod, Cb.slot, Nat.succ_eq_add_one]
    rw [show b.head + 1 + k = b.head + (k + 1) by omega]
  · rw [cbRead_empty cap he]; simp

/-- `CB_READ` answers EMPTY exactly on an empty buffer. -/
theorem cbRead_fst_none_iff (cap : Nat) : (cbRead cap b).1 = none ↔ b.empty = true := by
  cases he : b.empty <;> simp [cbRead, he]

/-- `CB_WRITE` answers FULL exactly on a full buffer. -/
theorem cbWrite_fst (cap : Nat) (d : Byte) : (cbWrite cap b d).1 = !b.full := by
  cases hf : b.full <;> simp [cbWrite, hf]

@[simp] theorem cbWrite_data_length (cap : Nat) (d : Byte) : (cbWrite cap b d).2.data.length = b.data.length := by
  cases hf : b.full <;> simp [cbWrite, hf]

@[simp] theorem cbRead_data (cap : Nat) : (cbRead cap b).2.data = b.data := by
  cases he : b.empty <;> simp [cbRead, he]

@[simp] theorem cbRead_tail (cap : Nat) : (cbRead cap b).2.tail = b.tail := by
  cases he : b.empty <;> simp [cbRead, he]

@[simp] theorem cbWrite_head (cap : Nat) (d : Byte) : (cbWrite cap b d).2.head = b.head := by
  cases hf : b.full <;> simp [cbWrite, hf]

@[simp] theorem cbClear_data : (cbClear b).data = b.data := rfl

/-- Writing a list of bytes that fits puts them after the unread ones. -/
theorem cbWriteAll_spec (l : List Byte) (h : BufferInv cap b) (hroom : b.count cap + l.length ≤ cap) :
    BufferInv cap (cbWriteAll cap b l) ∧ (cbWriteAll cap b l).unread cap = b.unread cap ++ l := by
  induction l generalizing b with
  | nil => exact ⟨h, by simp [cbWriteAll]⟩
  | cons x l ih =>
    have hf : b.full = false := by
      cases hb : b.full
      · rfl
      · have := (count_spec h).2.2.2.2 hb
        simp at hroom; omega
    have hc := cbWrite_count h x hf
    simp only [List.length_cons] at hroom
    obtain ⟨h1, h2⟩ := ih (cbWrite_inv h x) (by omega)
    refine ⟨h1, ?_⟩
    show (cbWriteAll cap (cbWrite cap b x).2 l).unread cap = _
    rw [h2, cbWrite_unread h, hf]
    simp

/-- Writing any list of bytes keeps the invariant. -/
theorem cbWriteAll_inv (l : List Byte) (h : BufferInv cap b) : BufferInv cap (cbWriteAll cap b l) := by
  induction l generalizing b with
  | nil => exact h
  | cons x l ih => exact ih (cbWrite_inv h x)

@[simp] theorem cbWriteAll_data_length (cap : Nat) (l : List Byte) : (cbWriteAll cap b l).data.length = b.data.length := by
  induction l generalizing b with
  | nil => rfl
  | cons x l ih => exact ih.trans (cbWrite_data_length cap x)

end Sys2Proof.Machine
end

