-- ==== Sys2Proof/Laws/Ops.lean ====
section
/-! SUPPORT. What the shared operations of Machine/Ops.lean do: enabling, readiness, raising, refusing, drawing; and every meaning as
`whenEnabled` of its condition and its effect. -/
namespace Sys2Proof.Machine

theorem whenEnabled_true {en : Bool} {s t : State} (h : en = true) : whenEnabled en s t = .next t := by
  rw [whenEnabled, if_pos h]

theorem whenEnabled_false {en : Bool} {s t : State} (h : en = false) : whenEnabled en s t = .next s.noStep := by
  rw [whenEnabled, if_neg (by simp [h])]

/-- All that `whenEnabled` can answer. -/
theorem whenEnabled_next {en : Bool} {s t u : State} (h : whenEnabled en s t = .next u) :
    (en = true ∧ u = t) ∨ (en = false ∧ u = s.noStep) := by
  cases en
  · rw [whenEnabled_false rfl] at h; cases h; exact .inr ⟨rfl, rfl⟩
  · rw [whenEnabled_true rfl] at h; cases h; exact .inl ⟨rfl, rfl⟩

theorem whenReady_ready {op : Op} {s t : State} (h : s.initState = .ready) : whenReady op s t = t := if_pos h

theorem whenReady_notReady {op : Op} {s t : State} (h : s.initState ≠ .ready) :
    whenReady op s t = raiseApp s .notReady op (.mnemonic op) := if_neg h

theorem live_of {s : State} (h : s.refused = false) : s.live = true := by simp [State.live, h]

theorem appMay_of {s : State} (h : s.refused = false) (hb : s.frBusy = false) : s.appMay = true := by
  simp [State.appMay, State.live, h, hb]

theorem appMay_iff {s : State} : s.appMay = true ↔ s.refused = false ∧ s.frBusy = false := by
  simp [State.appMay, State.live]

/-- Raising in a command changes the records and the label only. -/
theorem raiseApp_eq (s : State) (code : FaultCode) (op : Op) (info : FaultInfo) :
    raiseApp s code op info =
      { s with faults := (s.addFault ⟨code, op, info⟩).faults, label := .ret .error } := rfl

/-- Raising in a handler changes the records and the label only. -/
theorem raiseHandler_eq (s : State) (code : FaultCode) (op : Op) (info : FaultInfo) :
    raiseHandler s code op info =
      { s with faults := (s.addFault ⟨code, op, info⟩).faults, label := .silent } := rfl

/-- Refusing changes the mark and the label only. -/
theorem refuse_eq (s : State) (r : RefuseReason) : refuse s r = { s with refused := true, label := .refused r } := rfl

/-- A record is in the set after it is added, and every other one as before. -/
theorem mem_addFault {s : State} {f g : FaultRecord} : g ∈ (s.addFault f).faults ↔ g ∈ s.faults ∨ g = f := by
  rw [addFault_faults]
  split
  · constructor
    · exact .inl
    · rintro (h | rfl) <;> assumption
  · simp

/-- Adding a record keeps the list free of repeats. -/
theorem nodup_addFault {s : State} {f : FaultRecord} (h : s.faults.Nodup) : (s.addFault f).faults.Nodup := by
  rw [addFault_faults]
  split
  · exact h
  · rw [List.nodup_append]
    exact ⟨h, by simp, fun a ha b hb => by rw [List.mem_singleton] at hb; rintro rfl; exact absurd ha (hb ▸ ‹_›)⟩

@[simp] theorem drawBytes_length (base n : Nat) : (drawBytes base n).length = n := by simp [drawBytes]

/-! ### The meanings -/

variable (s : State)

theorem exec_uartInit : exec .uartInit s = whenEnabled s.appMay s (initLink s) := rfl
theorem exec_uartPut (d : Byte) : exec (.uartPut d) s = whenEnabled s.appMay s (whenReady .uartPut s (putByte d s)) := rfl
theorem exec_uartGet : exec .uartGet s = whenEnabled s.appMay s (whenReady .uartGet s (getByte s)) := rfl
theorem exec_uartPump :
    exec .uartPump s = whenEnabled s.appMay s (whenReady .uartPump s ((pumpRx (pumpTx s)).ret .none)) := rfl
theorem exec_frameSend (len : Byte) (payload : List Byte) :
    exec (.frameSend len payload) s = whenEnabled s.appMay s (whenReady .frameSend s (sendFrame len payload s)) := rfl
theorem exec_frameStep : exec .frameStep s = whenEnabled (s.live && s.frBusy) s (putFrameByte s) := rfl
theorem exec_parserStep : exec .parserStep s = whenEnabled s.appMay s (whenReady .parserStep s (parseNext s)) := rfl
theorem exec_touchIsTouched (c : Channel) :
    exec (.touchIsTouched c) s = whenEnabled (s.appMay && s.hasChan c) s (pollOn c s) := rfl
theorem exec_encGetPosition :
    exec .encGetPosition s = whenEnabled s.appMay s (s.ret (.int (position s.cfg.encDiv s.encCount))) := rfl
theorem exec_encResetPosition : exec .encResetPosition s = whenEnabled s.appMay s ({ s with encCount := 0 }.ret .none) := rfl
theorem exec_encButtonPressed :
    exec .encButtonPressed s = whenEnabled s.appMay s ({ s with btnLatch := false }.ret (.bool s.btnLatch)) := rfl
theorem exec_evTxComplete :
    exec .evTxComplete s = whenEnabled (s.live && s.irqEnTx && s.txIrq) s (txComplete s).silent := rfl
theorem exec_evRxComplete : exec .evRxComplete s = whenEnabled (s.live && s.irqEnRx && s.rxIrq) s (rxComplete s) := rfl
theorem exec_evTouchEdge (c : Channel) (now : Nat) :
    exec (.evTouchEdge c now) s = whenEnabled (s.live && s.hasChan c) s (edgeOn c now s) := rfl
theorem exec_evEncEdge (ab : Pins) :
    exec (.evEncEdge ab) s = whenEnabled s.live s
      { s with encCount := lap s.cfg.encLimit (s.encCount + qdelta s.encLast ab), encLast := ab }.silent := rfl
theorem exec_evBtnPress : exec .evBtnPress s = whenEnabled s.live s { s with btnLatch := true }.silent := rfl
theorem exec_cbWrite (u : BufSel) (d : Byte) : exec (.cbWrite u d) s = whenEnabled s.live s (refuse s .internalOp) := rfl
theorem exec_cbRead (u : BufSel) : exec (.cbRead u) s = whenEnabled s.live s (refuse s .internalOp) := rfl
theorem exec_hwTxDone : exec .hwTxDone s = whenEnabled (s.live && s.txInflight.isSome) s (txDone s) := rfl
theorem exec_hwRxAccept : exec .hwRxAccept s = whenEnabled (s.live && s.rxArmed && !s.wireIn.isEmpty) s (rxAccept s) := rfl
theorem exec_hwRxDrop :
    exec .hwRxDrop s
      = whenEnabled (s.live && s.cfg.rxUnarmed == .mayDrop && !s.rxArmed && !s.wireIn.isEmpty) s (rxDrop s) := rfl
theorem exec_peerSend (d : Byte) :
    exec (.peerSend d) s = whenEnabled s.live s { s with wireIn := s.wireIn ++ [d] }.silent := rfl
theorem exec_reset (ab : Pins) : exec (.reset ab) s = whenEnabled s.live s (resetTo ab s) := rfl

end Sys2Proof.Machine
end

