-- ==== Sys2Proof/Laws/Exec.lean ====
section
/-! SUPPORT. Every instruction at once: what `exec` answers is `whenEnabled` of its enabling condition and its effect, and how a property
of the next state follows from that. -/
namespace Sys2Proof.Machine
open Sys2Proof.Safety

/-- What each instruction does where it is enabled, the NOT_READY check included. -/
def effect (i : Instr) (s : State) : State :=
  match i with
  | .uartInit => initLink s
  | .uartPut d => whenReady .uartPut s (putByte d s)
  | .uartGet => whenReady .uartGet s (getByte s)
  | .uartPump => whenReady .uartPump s ((pumpRx (pumpTx s)).ret .none)
  | .frameSend len payload => whenReady .frameSend s (sendFrame len payload s)
  | .frameStep => putFrameByte s
  | .parserStep => whenReady .parserStep s (parseNext s)
  | .touchIsTouched c => pollOn c s
  | .encGetPosition => s.ret (.int (position s.cfg.encDiv s.encCount))
  | .encResetPosition => { s with encCount := 0 }.ret .none
  | .encButtonPressed => { s with btnLatch := false }.ret (.bool s.btnLatch)
  | .evTxComplete => (txComplete s).silent
  | .evRxComplete => rxComplete s
  | .evTouchEdge c now => edgeOn c now s
  | .evEncEdge ab => { s with encCount := lap s.cfg.encLimit (s.encCount + qdelta s.encLast ab), encLast := ab }.silent
  | .evBtnPress => { s with btnLatch := true }.silent
  | .cbWrite _ _ => refuse s .internalOp
  | .cbRead _ => refuse s .internalOp
  | .hwTxDone => txDone s
  | .hwRxAccept => rxAccept s
  | .hwRxDrop => rxDrop s
  | .peerSend d => { s with wireIn := s.wireIn ++ [d] }.silent
  | .reset ab => resetTo ab s

theorem exec_eq_effect (i : Instr) (s : State) : exec i s = whenEnabled (enabled i s) s (effect i s) := by
  cases i <;>
    simp only [exec, execUartInit, execUartPut, execUartGet, execUartPump, execFrameSend, execFrameStep, execParserStep,
      execTouchIsTouched, execEncGetPosition, execEncResetPosition, execEncButtonPressed, execEvTxComplete, execEvRxComplete,
      execEvTouchEdge, execEvEncEdge, execEvBtnPress, execCbWrite, execCbRead, execHwTxDone, execHwRxAccept, execHwRxDrop,
      execPeerSend, execReset, enabled, State.appMay, State.live, Bool.and_true, Bool.and_assoc, effect]

theorem exec_of_enabled {i : Instr} {s : State} (h : enabled i s = true) : exec i s = .next (effect i s) := by
  rw [exec_eq_effect, whenEnabled_true h]

theorem exec_of_not_enabled {i : Instr} {s : State} (h : enabled i s = false) : exec i s = .next s.noStep := by
  rw [exec_eq_effect, whenEnabled_false h]

/-- A property of the next state: it holds where nothing but the label changes, and after the effect. -/
theorem exec_elim {P : State → Prop} {i : Instr} {s t : State} (he : exec i s = .next t) (h0 : ∀ l, P (s.setLabel l))
    (h : enabled i s = true → P (effect i s)) : P t := by
  rw [exec_eq_effect] at he
  rcases whenEnabled_next he with ⟨h3, rfl⟩ | ⟨-, rfl⟩
  · exact h h3
  · exact h0 _

/-- A property of the state after a NOT_READY check: it holds after the raise, and after the rest. -/
theorem whenReady_elim {P : State → Prop} {op : Op} {s t : State}
    (h : s.initState ≠ .ready → P (raiseApp s .notReady op (.mnemonic op))) (ht : s.initState = .ready → P t) :
    P (whenReady op s t) := by
  by_cases hr : s.initState = .ready
  · rw [whenReady_ready hr]; exact ht hr
  · rw [whenReady_notReady hr]; exact h hr

/-- A step of the machine is a settled state that differs in `sched`, `label` and `refused` at most, or runs an instruction. -/
theorem step_next {s t : State} (h : step s = .next t) :
    (∃ l rest rf, t = { s with sched := rest, label := l, refused := rf })
    ∨ ∃ o rest i, s.sched = o :: rest ∧ decode o.cmd = .ok i ∧ mayTake o.agent i = true
        ∧ exec i { s with sched := rest } = .next t := by
  unfold step fetch at h
  by_cases h1 : s.refused = true
  · rw [if_pos h1] at h; cases h
  rw [if_neg h1] at h
  by_cases h2 : s.cfg.valid = true
  · rw [if_pos h2] at h
    cases h3 : s.sched with
    | nil => rw [h3] at h; cases h; exact .inl ⟨_, _, _, rfl⟩
    | cons o rest =>
      rw [h3] at h
      simp only [takeOffer] at h
      cases h4 : decode o.cmd with
      | error e => rw [h4] at h; cases e; cases h; exact .inl ⟨_, _, _, rfl⟩
      | ok i =>
        rw [h4] at h
        by_cases h5 : mayTake o.agent i = true
        · simp only [if_pos h5] at h; exact .inr ⟨o, rest, i, rfl, h4, h5, h⟩
        · simp only [if_neg h5] at h; cases h; exact .inl ⟨_, _, _, rfl⟩
  · rw [if_neg h2] at h; cases h; exact .inl ⟨_, _, _, rfl⟩

end Sys2Proof.Machine
end

