-- ==== Sys2Proof/Laws/Transport.lean ====
section
/-! SUPPORT. What the transport's operations can do, each said once; the buffers meet their invariant. -/
namespace Sys2Proof.Machine
open Sys2Proof.Safety

variable {s : State}

/-- A read of a buffer that holds a byte: the byte, the buffer after it, and how they relate to the unread bytes. -/
theorem cbRead_cases {cap : Nat} {b : Cb} (h : BufferInv cap b) (he : b.empty = false) :
    ∃ (x : Byte) (c : Cb), cbRead cap b = (some x, c) ∧ BufferInv cap c ∧ b.unread cap = x :: c.unread cap ∧ c.data = b.data
      ∧ c.tail = b.tail ∧ c.full = false ∧ c.head = nextIndex cap b.head := by
  have hi := cbRead_inv h
  have hu := cbRead_unread h
  rw [cbRead_ok cap he] at hi hu
  exact ⟨_, _, cbRead_ok cap he, hi, hu.symm, rfl, rfl, rfl, rfl⟩

/-- A write to a buffer with room: the buffer after it, and how it relates to the unread bytes. -/
theorem cbWrite_cases {cap : Nat} {b : Cb} (h : BufferInv cap b) (d : Byte) (hf : b.full = false) :
    ∃ c : Cb, cbWrite cap b d = (true, c) ∧ BufferInv cap c ∧ c.unread cap = b.unread cap ++ [d] ∧ c.head = b.head
      ∧ c.tail = nextIndex cap b.tail ∧ c.empty = false ∧ (∀ j, j ≠ b.tail → c.slot j = b.slot j) ∧ c.slot b.tail = d := by
  have hi := cbWrite_inv h d
  have hu := cbWrite_unread h d
  rw [cbWrite_ok cap d hf] at hi hu
  have hl : b.tail < b.data.length := by have := h.1; have := h.2.2.1; omega
  refine ⟨_, cbWrite_ok cap d hf, hi, by simpa [hf] using hu, rfl, rfl, rfl, fun j hj => ?_, ?_⟩
  · rw [slot_set _ _ _ _ _ _ _ _ hl, if_neg hj]
  · rw [slot_set _ _ _ _ _ _ _ _ hl, if_pos rfl]

/-- R123, R125: the oldest byte of `tx` goes to the hardware. -/
theorem sendNext_cases (h : BufferInv s.cfg.cap s.tx) (he : s.tx.empty = false) :
    ∃ (x : Byte) (c : Cb), sendNext s = { s with tx := c, txInflight := some x } ∧ BufferInv s.cfg.cap c
      ∧ s.tx.unread s.cfg.cap = x :: c.unread s.cfg.cap ∧ c.data = s.tx.data ∧ c.tail = s.tx.tail := by
  obtain ⟨x, c, hr, hi, hu, hd, ht, -, -⟩ := cbRead_cases h he
  refine ⟨x, c, ?_, hi, hu, hd, ht⟩
  simp only [sendNext, hr, startTx]

/-- R123, the TX part: it starts a transfer, or does nothing. -/
theorem pumpTx_cases (h : BufferInv s.cfg.cap s.tx) :
    (s.txState = .yielded ∧ s.tx.empty = false ∧ ∃ (x : Byte) (c : Cb),
      pumpTx s = { s with txState := .active, tx := c, txInflight := some x } ∧ BufferInv s.cfg.cap c
        ∧ s.tx.unread s.cfg.cap = x :: c.unread s.cfg.cap ∧ c.data = s.tx.data ∧ c.tail = s.tx.tail)
    ∨ ((s.txState = .active ∨ s.tx.empty = true) ∧ pumpTx s = s) := by
  unfold pumpTx
  split
  · rename_i hc
    obtain ⟨x, c, hr, rest⟩ := sendNext_cases (s := { s with txState := .active }) h hc.2
    exact .inl ⟨hc.1, hc.2, x, c, hr, rest⟩
  · rename_i hc
    refine .inr ⟨?_, rfl⟩
    cases hs : s.txState <;> cases he : s.tx.empty <;> simp_all

/-- R123, the RX part: it arms a receive, or does nothing. -/
theorem pumpRx_cases :
    (s.rxState = .yielded ∧ s.rx.full = false ∧ pumpRx s = { s with rxState := .active, rxArmed := true })
    ∨ ((s.rxState = .active ∨ s.rx.full = true) ∧ pumpRx s = s) := by
  unfold pumpRx
  split
  · rename_i hc; exact .inl ⟨hc.1, hc.2, rfl⟩
  · rename_i hc
    refine .inr ⟨?_, rfl⟩
    cases hs : s.rxState <;> cases he : s.rx.full <;> simp_all

/-- R125: it yields, or chains the next byte. -/
theorem txComplete_cases (h : BufferInv s.cfg.cap s.tx) :
    (s.tx.empty = true ∧ txComplete s = { s with txIrq := false, txState := .yielded })
    ∨ (s.tx.empty = false ∧ ∃ (x : Byte) (c : Cb),
      txComplete s = { s with txIrq := false, tx := c, txInflight := some x } ∧ BufferInv s.cfg.cap c
        ∧ s.tx.unread s.cfg.cap = x :: c.unread s.cfg.cap ∧ c.data = s.tx.data ∧ c.tail = s.tx.tail) := by
  unfold txComplete
  cases he : s.tx.empty
  · obtain ⟨x, c, hr, rest⟩ := sendNext_cases (s := { s with txIrq := false }) h he
    exact .inr ⟨rfl, x, c, hr, rest⟩
  · exact .inl ⟨rfl, rfl⟩

/-- R126: it stores the byte and stops, stores it and chains, or raises. -/
theorem rxComplete_cases (h : BufferInv s.cfg.cap s.rx) :
    (s.rx.full = false ∧ ∃ c : Cb, BufferInv s.cfg.cap c ∧ c.unread s.cfg.cap = s.rx.unread s.cfg.cap ++ [s.rxData]
        ∧ c.head = s.rx.head ∧ c.empty = false ∧ (∀ j, j ≠ s.rx.tail → c.slot j = s.rx.slot j)
        ∧ ((c.full = true ∧ rxComplete s = { s with rxIrq := false, rx := c, rxState := .yielded, label := .silent })
          ∨ (c.full = false ∧ rxComplete s = { s with rxIrq := false, rx := c, rxArmed := true, label := .silent })))
    ∨ (s.rx.full = true ∧ rxComplete s = raiseHandler { s with rxIrq := false } .rxLost .evRxComplete (.byte s.rxData)) := by
  cases hf : s.rx.full
  · obtain ⟨c, hw, hi, hu, hh, -, he, hs, -⟩ := cbWrite_cases h s.rxData hf
    refine .inl ⟨rfl, c, hi, hu, hh, he, hs, ?_⟩
    cases hc : c.full
    · exact .inr ⟨rfl, by simp only [rxComplete, hw, rxContinue, hc]; rfl⟩
    · exact .inl ⟨rfl, by simp only [rxComplete, hw, rxContinue, hc]; rfl⟩
  · exact .inr ⟨rfl, by simp only [rxComplete, cbWrite_full _ _ hf]⟩

/-- R121 after the NOT_READY check. -/
theorem putByte_cases (d : Byte) (h : BufferInv s.cfg.cap s.tx) :
    (s.tx.full = true ∧ putByte d s = { s with label := .ret .full })
    ∨ (s.tx.full = false ∧ ∃ c : Cb, putByte d s = { s with tx := c, label := .ret .ok } ∧ BufferInv s.cfg.cap c
        ∧ c.unread s.cfg.cap = s.tx.unread s.cfg.cap ++ [d] ∧ c.head = s.tx.head ∧ c.empty = false
        ∧ ∀ j, j ≠ s.tx.tail → c.slot j = s.tx.slot j) := by
  cases hf : s.tx.full
  · obtain ⟨c, hw, hi, hu, hh, -, he, hs, -⟩ := cbWrite_cases h d hf
    exact .inr ⟨rfl, c, by rw [putByte, hw]; rfl, hi, hu, hh, he, hs⟩
  · exact .inl ⟨rfl, by rw [putByte, cbWrite_full _ _ hf]; rfl⟩

/-- R122 after the NOT_READY check. -/
theorem getByte_cases (h : BufferInv s.cfg.cap s.rx) :
    (s.rx.empty = true ∧ getByte s = { s with label := .ret .empty })
    ∨ (s.rx.empty = false ∧ ∃ (x : Byte) (c : Cb), getByte s = { s with rx := c, label := .ret (.byte x) } ∧ BufferInv s.cfg.cap c
        ∧ s.rx.unread s.cfg.cap = x :: c.unread s.cfg.cap ∧ c.data = s.rx.data ∧ c.tail = s.rx.tail ∧ c.full = false) := by
  cases he : s.rx.empty
  · obtain ⟨x, c, hr, hi, hu, hd, ht, hf, -⟩ := cbRead_cases h he
    exact .inr ⟨rfl, x, c, by rw [getByte, hr]; rfl, hi, hu, hd, ht, hf⟩
  · exact .inl ⟨rfl, by rw [getByte, cbRead_empty _ he]; rfl⟩

/-- R120: the four things UART_INIT can do. -/
theorem initLink_cases (s : State) :
    (s.initState = .ready ∧ initLink s = s.ret .ok) ∨ (s.initState = .failed ∧ initLink s = s.ret .error)
    ∨ (s.initState = .uninit ∧ s.drawBool = true ∧ initLink s = (linkUp s.afterDraw).ret .ok)
    ∨ (s.initState = .uninit ∧ s.drawBool = false
        ∧ initLink s = raiseApp { s.afterDraw with initState := .failed } .initFailed .uartInit .none) := by
  unfold initLink
  cases s.initState
  · cases hd : s.drawBool
    · exact .inr (.inr (.inr ⟨rfl, rfl, by simp [initWith]⟩))
    · exact .inr (.inr (.inl ⟨rfl, rfl, by simp [initWith]⟩))
  · exact .inl ⟨rfl, rfl⟩
  · exact .inr (.inl ⟨rfl, rfl⟩)

end Sys2Proof.Machine
end

