-- ==== Sys2Proof/Laws/Framer.lean ====
section
/-! SUPPORT. The frame and the framer: lengths, where the bytes of a list of puts land, what FRAME_SEND and FRAME_STEP can do. -/
namespace Sys2Proof.Machine
open Sys2Proof.Safety

@[simp] theorem frame_length (k : Cfg) (p : List Byte) : (frame k p).length = p.length + frameOverhead := by
  simp [frame, frameOverhead]

/-- The checksum of a concatenation continues the fold. -/
theorem cks_append (p q : List Byte) : cks (p ++ q) = q.foldl cksStep (cks p) := by simp [cks, List.foldl_append]

/-- The frame, with the length byte as the operand `len` gives it. -/
theorem frame_of_len (k : Cfg) (len : Byte) (p : List Byte) (h : len.toNat = p.length) :
    frame k p = [k.headByte, len] ++ p ++ [k.tailByte, cks p, k.crByte, k.lfByte] := by
  have : BitVec.ofNat 8 p.length = len := by rw [← h]; simp
  rw [frame, this]

theorem cbWriteAll_head (cap : Nat) (l : List Byte) (b : Cb) : (cbWriteAll cap b l).head = b.head := by
  induction l generalizing b with
  | nil => rfl
  | cons x l ih => exact (ih (cbWrite cap b x).2).trans (cbWrite_head cap x)

/-- Puts that fit change no slot but those from `tail` on. -/
theorem cbWriteAll_slot (cap : Nat) (l : List Byte) (b : Cb) (hb : BufferInv cap b) (hroom : b.count cap + l.length ≤ cap) (j : Nat)
    (h : ∀ k, k < l.length → j ≠ (b.tail + k) % cap) : (cbWriteAll cap b l).slot j = b.slot j := by
  induction l generalizing b with
  | nil => rfl
  | cons x l ih =>
    simp only [List.length_cons] at hroom h
    have hf : b.full = false := by
      cases hx : b.full
      · rfl
      · have := (count_spec hb).2.2.2.2 hx; omega
    obtain ⟨c, e, hi, -, -, ht, -, hs, -⟩ := cbWrite_cases hb x hf
    have hc := cbWrite_count hb x hf
    show (cbWriteAll cap (cbWrite cap b x).2 l).slot j = _
    rw [e] at hc ⊢
    rw [ih c hi (by simp only at hc; omega), hs]
    · have := h 0 (by omega)
      rwa [Nat.add_zero, Nat.mod_eq_of_lt hb.2.2.1] at this
    · intro k hk
      rw [ht, nextIndex, Nat.mod_add_mod, show b.tail + 1 + k = b.tail + (k + 1) by omega]
      exact h (k + 1) (by omega)

variable {s : State}

/-- R154 after the NOT_READY check: raise, decline, queue the whole frame, or start the sequencer. -/
theorem sendFrame_cases (len : Byte) (p : List Byte) (h : BufferInv s.cfg.cap s.tx) :
    (len.toNat ≠ p.length ∧ sendFrame len p s = raiseApp s .badLength .frameSend (.lengths len p.length))
    ∨ (len.toNat = p.length ∧ s.cfg.sendPolicy = .twoPhase ∧ s.tx.free s.cfg.cap < len.toNat + frameOverhead
        ∧ sendFrame len p s = { s with label := .ret .insufficientSpace })
    ∨ (len.toNat = p.length ∧ s.cfg.sendPolicy = .twoPhase ∧ len.toNat + frameOverhead ≤ s.tx.free s.cfg.cap
        ∧ ∃ c : Cb, c = cbWriteAll s.cfg.cap s.tx (frame s.cfg p) ∧ sendFrame len p s = { s with tx := c, label := .ret .ok }
          ∧ BufferInv s.cfg.cap c ∧ c.unread s.cfg.cap = s.tx.unread s.cfg.cap ++ frame s.cfg p ∧ c.head = s.tx.head)
    ∨ (len.toNat = p.length ∧ s.cfg.sendPolicy = .asImplemented
        ∧ sendFrame len p s = { s with frSeq := frame s.cfg p, frPos := 0, frBusy := true, label := .silent }) := by
  unfold sendFrame
  split
  · rename_i hl
    split
    · rename_i hp
      by_cases hr : s.tx.free s.cfg.cap < len.toNat + frameOverhead
      · exact .inr (.inl ⟨hl, hp, hr, by rw [sendTwoPhase, if_pos hr]; rfl⟩)
      · refine .inr (.inr (.inl ⟨hl, hp, by omega, _, rfl, ?_, ?_⟩))
        · rw [sendTwoPhase, if_neg hr]; rfl
        · have hroom : s.tx.count s.cfg.cap + (frame s.cfg p).length ≤ s.cfg.cap := by
            have := (count_spec h).1
            rw [frame_length]; unfold Cb.free at hr; omega
          obtain ⟨h1, h2⟩ := cbWriteAll_spec (frame s.cfg p) h hroom
          exact ⟨h1, h2, cbWriteAll_head _ _ _⟩
    · rename_i hp
      exact .inr (.inr (.inr ⟨hl, hp, rfl⟩))
  · rename_i hl; exact .inl ⟨hl, rfl⟩

/-- R156 after the put: the send is over, or goes on. -/
theorem afterPut_ends {putFull cont : Bool} (h : (putFull = true ∧ cont = false) ∨ s.frPos = s.frSeq.length) :
    afterPut putFull cont s = endSend s := by
  rw [afterPut, if_pos (by simpa [sendEnds] using h)]

theorem afterPut_goesOn {putFull cont : Bool} (h : putFull = false ∨ cont = true) (hl : s.frPos ≠ s.frSeq.length) :
    afterPut putFull cont s = s.ret .none := by
  rw [afterPut, if_neg (by rcases h with h | h <;> simp [sendEnds, h, hl])]

/-- R156: the put is taken or not; the send goes on or is over. -/
theorem putFrameByte_cases (h : BufferInv s.cfg.cap s.tx) :
    (s.tx.full = false ∧ ∃ c : Cb, BufferInv s.cfg.cap c ∧ c.unread s.cfg.cap = s.tx.unread s.cfg.cap ++ [frameByte s]
        ∧ c.head = s.tx.head ∧ c.empty = false ∧ (∀ j, j ≠ s.tx.tail → c.slot j = s.tx.slot j)
        ∧ ((s.frPos + 1 = s.frSeq.length
              ∧ putFrameByte s = { s with tx := c, frBusy := false, frSeq := [], frPos := 0, label := .ret .done })
          ∨ (s.frPos + 1 ≠ s.frSeq.length ∧ putFrameByte s = { s with tx := c, frPos := s.frPos + 1, label := .ret .none })))
    ∨ (s.tx.full = true
        ∧ (((s.drawBool = false ∨ s.frPos + 1 = s.frSeq.length) ∧ putFrameByte s =
              { s with frBusy := false, frSeq := [], frPos := 0, label := .ret .done, draws := s.draws.tail,
                       drawCount := s.drawCount + 1 })
          ∨ (s.drawBool = true ∧ s.frPos + 1 ≠ s.frSeq.length ∧ putFrameByte s =
              { s with frPos := s.frPos + 1, label := .ret .none, draws := s.draws.tail, drawCount := s.drawCount + 1 }))) := by
  cases hf : s.tx.full
  · obtain ⟨c, hw, hi, hu, hh, -, he, hs, -⟩ := cbWrite_cases h (frameByte s) hf
    refine .inl ⟨rfl, c, hi, hu, hh, he, hs, ?_⟩
    simp only [putFrameByte, hw]
    by_cases hl : s.frPos + 1 = s.frSeq.length
    · exact .inl ⟨hl, afterPut_ends (.inr hl)⟩
    · exact .inr ⟨hl, afterPut_goesOn (.inl rfl) hl⟩
  · refine .inr ⟨rfl, ?_⟩
    simp only [putFrameByte, cbWrite_full _ _ hf]
    by_cases hl : s.frPos + 1 = s.frSeq.length
    · exact .inl ⟨.inr hl, afterPut_ends (.inr hl)⟩
    · cases hd : s.drawBool
      · exact .inl ⟨.inl rfl, afterPut_ends (.inl ⟨rfl, rfl⟩)⟩
      · exact .inr ⟨rfl, hl, afterPut_goesOn (.inr rfl) hl⟩

end Sys2Proof.Machine
end

