-- ==== Sys2Proof/Laws/Memory.lean ====
section
/-! SUPPORT. `Memory.wf`: every operation on the storage arrays keeps their lengths
(10_state.md R50; for the circular buffers the lemmas are in Laws/Buffer.lean), and State.reset's arrays have them. -/
namespace Sys2Proof.Machine

theorem Memory.wf_iff {s : State} :
    Memory.wf s = true ↔ s.tx.data.length = s.cfg.cap ∧ s.rx.data.length = s.cfg.cap ∧ s.touch.length = s.cfg.nCh
      ∧ (∀ t ∈ s.touch, t.win.length = s.cfg.winN) ∧ s.ps.buf.length = maxPayload := by
  simp [Memory.wf, and_assoc]

@[simp] theorem parseByte_buf_length (k : Cfg) (p : Parser) (x : Byte) : (parseByte k p x).1.buf.length = p.buf.length := by
  unfold parseByte
  split
  · split <;> rfl
  all_goals simp

@[simp] theorem touchEdge_win_length (k : Cfg) (t : Touch) (now : Nat) : (touchEdge k t now).win.length = t.win.length := by
  unfold touchEdge
  dsimp only
  split
  · rfl
  · simp [addSample]

@[simp] theorem touchPoll_win (k : Cfg) (c : Channel) (t : Touch) : (touchPoll k c t).win = t.win := rfl

/-- Storing a channel whose window has its length keeps the form. -/
theorem setChan_wf {s : State} (h : Memory.wf s = true) (c : Channel) (t : Touch) (ht : t.win.length = s.cfg.winN) :
    Memory.wf (s.setChan c t) = true := by
  rw [Memory.wf_iff] at h ⊢
  obtain ⟨h1, h2, h3, h4, h5⟩ := h
  refine ⟨h1, h2, by simpa using h3, fun u hu => ?_, h5⟩
  rcases List.mem_or_eq_of_mem_set (show u ∈ s.touch.set c.index t from hu) with h | rfl
  · exact h4 u h
  · exact ht

/-- RESET gives every array its length. -/
theorem resetTo_wf (ab : Pins) (s : State) : Memory.wf (resetTo ab s) = true := by
  rw [Memory.wf_iff]
  simp [resetTo, State.afterReset, Cb.afterReset, Touch.afterReset, Parser.afterReset, drawUnspecified]

/-- State.reset's arrays have their lengths. -/
theorem reset_wf : Memory.wf State.reset = true := by
  rw [Memory.wf_iff]
  simp [State.reset, State.afterReset, Cb.afterReset, Touch.afterReset, Parser.afterReset, Unspecified.zero]

end Sys2Proof.Machine
end

