-- ==== Sys2Proof/Laws/Parser.lean ====
section
/-! SUPPORT. The parser: it keeps its invariant, and what PARSER_STEP can do. -/
namespace Sys2Proof.Machine
open Sys2Proof.Safety

/-- The parser keeps its invariant, whatever the configuration and the byte. -/
theorem parseByte_inv {p : Parser} (h : ParserInv p) (k : Cfg) (x : Byte) : ParserInv (parseByte k p x).1 := by
  obtain ⟨hb, hc, hp, ht, ha⟩ := h
  unfold parseByte
  split
  · split
    · exact ⟨hb, hc, by simp, by simp, ha⟩
    · exact ⟨hb, hc, hp, ht, ha⟩
  · refine ⟨hb, by simp, ?_, ?_, by simp [cks]⟩
    · by_cases hx : x = 0#8
      · simp [hx]
      · intro _
        rcases Nat.eq_zero_or_pos x.toNat with h0 | h0
        · exact absurd (BitVec.eq_of_toNat_eq (by simpa using h0)) hx
        · exact h0
    · by_cases hx : x = 0#8 <;> simp [hx]
  · rename_i hs
    have hlt := hp hs
    have hl : p.len.toNat < 256 := p.len.isLt
    refine ⟨by simpa using hb, hlt, ?_, ?_, ?_⟩
    · by_cases he : p.cnt + 1 = p.len.toNat
      · simp [he]
      · intro _; show p.cnt + 1 < p.len.toNat; omega
    · by_cases he : p.cnt + 1 = p.len.toNat <;> simp [he]
    · have hlen : p.cnt < p.buf.length := by rw [hb]; unfold maxPayload; omega
      show cksStep p.acc x = cks ((p.buf.set p.cnt x).take (p.cnt + 1))
      rw [List.take_succ_eq_append_getElem (by simpa using hlen), List.take_set_of_le (le_refl _)]
      simp [cks, List.foldl_append, ha]
  all_goals
    rename_i hs
    have := ht (by simp [hs])
    refine ⟨hb, hc, ?_, fun _ => this, ha⟩
  · split <;> simp
  · split <;> simp
  · split <;> simp
  · simp

variable {s : State}

/-- R171 after the NOT_READY check: no byte, a byte that completes a frame, or a byte that completes none. -/
theorem parseNext_cases (h : BufferInv s.cfg.cap s.rx) :
    (s.rx.empty = true ∧ parseNext s = { s with label := .ret .empty })
    ∨ (s.rx.empty = false ∧ ∃ (x : Byte) (c : Cb), BufferInv s.cfg.cap c ∧ s.rx.unread s.cfg.cap = x :: c.unread s.cfg.cap
        ∧ c.data = s.rx.data ∧ c.tail = s.rx.tail ∧ c.full = false
        ∧ ((∃ p, (parseByte s.cfg s.ps x).2 = some p ∧ parseNext s =
              { s with rx := c, ps := (parseByte s.cfg s.ps x).1, rxFrames := s.rxFrames ++ [p], label := .ret (.frame p) })
          ∨ ((parseByte s.cfg s.ps x).2 = none ∧ parseNext s =
              { s with rx := c, ps := (parseByte s.cfg s.ps x).1, label := .ret .ok }))) := by
  cases he : s.rx.empty
  · obtain ⟨x, c, hr, hi, hu, hd, ht, hf, -⟩ := cbRead_cases h he
    refine .inr ⟨rfl, x, c, hi, hu, hd, ht, hf, ?_⟩
    cases ho : (parseByte s.cfg s.ps x).2 with
    | none => exact .inr ⟨rfl, by simp only [parseNext, hr, ho]; rfl⟩
    | some p => exact .inl ⟨p, rfl, by simp only [parseNext, hr, ho]; rfl⟩
  · exact .inl ⟨rfl, by simp only [parseNext, cbRead_empty _ he]; rfl⟩

end Sys2Proof.Machine
end

