-- ==== Sys2Proof/Laws/PerInstr.lean ====
section
/-! SUPPORT. Statements made of every instruction, one lemma per constructor. -/
namespace Sys2Proof.Laws

/-- R72, R73: the opcode byte of an instruction's command record names the instruction's own row. -/
def EncodeNamesRow.Statement (i : Instr) : Prop := lookupOp (encode i).op = some i.op

theorem EncodeNamesRow.uartInit : Statement .uartInit := rfl
theorem EncodeNamesRow.uartPut (d : Byte) : Statement (.uartPut d) := by
  show lookupOp 0x02#8 = _; rfl
theorem EncodeNamesRow.uartGet : Statement .uartGet := rfl
theorem EncodeNamesRow.uartPump : Statement .uartPump := rfl
theorem EncodeNamesRow.frameSend (len : Byte) (payload : List Byte) : Statement (.frameSend len payload) := by
  show lookupOp 0x05#8 = _; rfl
theorem EncodeNamesRow.frameStep : Statement .frameStep := rfl
theorem EncodeNamesRow.parserStep : Statement .parserStep := rfl
theorem EncodeNamesRow.touchIsTouched (c : Channel) : Statement (.touchIsTouched c) := by cases c <;> rfl
theorem EncodeNamesRow.encGetPosition : Statement .encGetPosition := rfl
theorem EncodeNamesRow.encResetPosition : Statement .encResetPosition := rfl
theorem EncodeNamesRow.encButtonPressed : Statement .encButtonPressed := rfl
theorem EncodeNamesRow.evTxComplete : Statement .evTxComplete := rfl
theorem EncodeNamesRow.evRxComplete : Statement .evRxComplete := rfl
theorem EncodeNamesRow.evTouchEdge (c : Channel) (now : Nat) : Statement (.evTouchEdge c now) := by
  have h : ∀ c, lookupOp (0x28#8 ||| channelBit c) = some .evTouchEdge := by intro c; cases c <;> rfl
  exact h c
theorem EncodeNamesRow.evEncEdge (ab : Pins) : Statement (.evEncEdge ab) := by
  have h : ∀ ab : Pins, lookupOp (0x30#8 ||| ab.setWidth 8) = some .evEncEdge := by decide
  exact h ab
theorem EncodeNamesRow.evBtnPress : Statement .evBtnPress := rfl
theorem EncodeNamesRow.cbWrite (u : BufSel) (d : Byte) : Statement (.cbWrite u d) := by
  have h : ∀ u, lookupOp (0x40#8 ||| bufferBit u) = some .cbWrite := by intro u; cases u <;> rfl
  exact h u
theorem EncodeNamesRow.cbRead (u : BufSel) : Statement (.cbRead u) := by cases u <;> rfl
theorem EncodeNamesRow.hwTxDone : Statement .hwTxDone := rfl
theorem EncodeNamesRow.hwRxAccept : Statement .hwRxAccept := rfl
theorem EncodeNamesRow.hwRxDrop : Statement .hwRxDrop := rfl
theorem EncodeNamesRow.peerSend (d : Byte) : Statement (.peerSend d) := by
  show lookupOp 0x68#8 = _; rfl
theorem EncodeNamesRow.reset (ab : Pins) : Statement (.reset ab) := by
  have h : ∀ ab : Pins, lookupOp (0xF0#8 ||| ab.setWidth 8) = some .reset := by decide
  exact h ab

end Sys2Proof.Laws
end

