-- ==== Sys2Proof/Laws/Touch.lean ====
section
/-! SUPPORT. The touch detector: what a touch command can do, and that `sum` and `avg` never wrap under the channel's invariant, which
every edge keeps. -/
namespace Sys2Proof.Machine
open Sys2Proof.Safety

/-! ### The commands -/

theorem hasChan_iff {s : State} {c : Channel} : s.hasChan c = true ↔ ∃ t, s.chan c = some t := by
  simp [State.hasChan, Option.isSome_iff_exists]

theorem edgeOn_some {s : State} {c : Channel} {t : Touch} (h : s.chan c = some t) (now : Nat) :
    edgeOn c now s = (s.setChan c (touchEdge s.cfg t now)).silent := by simp only [edgeOn, h]

theorem pollOn_some {s : State} {c : Channel} {t : Touch} (h : s.chan c = some t) :
    pollOn c s = (s.setChan c (touchPoll s.cfg c t)).ret (.bool (touchPoll s.cfg c t).touched) := by simp only [pollOn, h]

/-- An edge changes the touch channels and the label at most, and keeps how many channels there are. -/
theorem edgeOn_frame (c : Channel) (now : Nat) (s : State) :
    ∃ u l, edgeOn c now s = { s with touch := u, label := l } ∧ u.length = s.touch.length := by
  cases h : s.chan c with
  | some t => exact ⟨_, _, edgeOn_some h now, List.length_set⟩
  | none => exact ⟨s.touch, .noStep, by simp only [edgeOn, h]; rfl, rfl⟩

/-- A poll changes the touch channels and the label at most, and keeps how many channels there are. -/
theorem pollOn_frame (c : Channel) (s : State) :
    ∃ u l, pollOn c s = { s with touch := u, label := l } ∧ u.length = s.touch.length := by
  cases h : s.chan c with
  | some t => exact ⟨_, _, pollOn_some h, List.length_set⟩
  | none => exact ⟨s.touch, .noStep, by simp only [pollOn, h]; rfl, rfl⟩

/-! ### Widths -/

/-- `uN` leaves a value alone that fits. -/
theorem uN_of_lt {n : Nat} {x : Nat} (h : x < 2 ^ n) : uN n (x : Int) = x := by
  unfold uN modN
  rw [← Int.natCast_emod, Nat.mod_eq_of_lt h]
  rfl

theorem uN_lt (n : Nat) (x : Int) : uN n x < 2 ^ n := by
  have h1 : 0 ≤ x % ((2 ^ n : Nat) : Int) := Int.emod_nonneg _ (by positivity)
  have h2 : x % ((2 ^ n : Nat) : Int) < ((2 ^ n : Nat) : Int) := Int.emod_lt_of_pos _ (by positivity)
  unfold uN modN
  omega

theorem elapsed_lt (k : Cfg) (p n : Nat) : elapsed k p n < 2 ^ k.tsW := uN_lt _ _

/-- R190 (c): the elapsed time in natural numbers. -/
theorem elapsed_eq {k : Cfg} {p n : Nat} (hp : p < 2 ^ k.tsW) : elapsed k p n = (n + 2 ^ k.tsW - p) % 2 ^ k.tsW := by
  unfold elapsed uN modN
  have e : (n : Int) - (p : Int) = ((n + 2 ^ k.tsW - p : Nat) : Int) - ((2 ^ k.tsW : Nat) : Int) := by
    rw [Int.ofNat_sub (by omega)]; push_cast; ring
  rw [e, Int.sub_emod_right, ← Int.natCast_emod]
  rfl

theorem le_two_pow_clog2 (n : Nat) : n ≤ 2 ^ clog2 n := by
  unfold clog2
  split
  · omega
  · have := Nat.lt_log2_self (n := n - 1); omega

/-! ### The window -/

/-- Replacing a sample changes the window's sum by the difference. -/
theorem sum_set (w : List Nat) (i : Nat) (d : Nat) (h : i < w.length) : (w.set i d).sum + w[i] = w.sum + d := by
  induction w generalizing i with
  | nil => simp at h
  | cons a w ih =>
    cases i with
    | zero => simp; omega
    | succ i =>
      have := ih i (by simpa using h)
      simp at this ⊢
      omega

/-- A window's sum, of samples below `b`. -/
theorem sum_le (w : List Nat) (b : Nat) (h : ∀ x ∈ w, x < b) : w.sum ≤ w.length * (b - 1) := by
  induction w with
  | nil => simp
  | cons a w ih =>
    have h1 := h a (by simp)
    have h2 := ih (fun x hx => h x (by simp [hx]))
    simp only [List.sum_cons, List.length_cons, Nat.add_mul, Nat.one_mul]
    omega

/-- R190 (d): a window's sum is below `WIN_N * 2^TS_W`. -/
theorem sum_lt (k : Cfg) (w : List Nat) (h : w.length = k.winN) (hpos : 0 < k.winN) (hw : ∀ x ∈ w, x < 2 ^ k.tsW) :
    w.sum < k.winN * 2 ^ k.tsW := by
  have h1 := sum_le w _ hw
  rw [h] at h1
  exact Nat.lt_of_le_of_lt h1 (Nat.mul_lt_mul_of_pos_left (Nat.sub_lt (by positivity) (by omega)) hpos)

/-- R190 (d): a window's sum is below `2^SUM_W`. -/
theorem sum_lt_sumW (k : Cfg) (w : List Nat) (h : w.length = k.winN) (hpos : 0 < k.winN) (hw : ∀ x ∈ w, x < 2 ^ k.tsW) :
    w.sum < 2 ^ k.sumW := by
  unfold Cfg.sumW
  rw [Nat.pow_add, Nat.mul_comm]
  exact Nat.lt_of_lt_of_le (sum_lt k w h hpos hw) (Nat.mul_le_mul_right _ (le_two_pow_clog2 _))

theorem Touch.slot_eq {t : Touch} {i : Nat} (h : i < t.win.length) : t.slot i = t.win[i] := by
  simp [Touch.slot, h]

/-- R190: what a sample does, with exact sums. -/
theorem addSample_spec {k : Cfg} {t : Touch} (h : TouchInv k t) {d : Nat} (hd : d < 2 ^ k.tsW) :
    TouchInv k (addSample k t d) ∧ (addSample k t d).win = t.win.set t.idx d
      ∧ (addSample k t d).sum + t.slot t.idx = t.sum + d
      ∧ (addSample k t d).idx = nextIndex k.winN t.idx ∧ (addSample k t d).prevTs = t.prevTs
      ∧ (addSample k t d).first = t.first ∧ (addSample k t d).touched = t.touched := by
  obtain ⟨hl, hi, hs, ha, hb, hp⟩ := h
  have hpos : 0 < k.winN := by omega
  have hlt : t.idx < t.win.length := by omega
  have hset := sum_set t.win t.idx d hlt
  have hslot := Touch.slot_eq hlt
  have hb' : ∀ x ∈ t.win.set t.idx d, x < 2 ^ k.tsW := by
    intro x hx
    rcases List.mem_or_eq_of_mem_set hx with h | rfl
    · exact hb x h
    · exact hd
  have hl' : (t.win.set t.idx d).length = k.winN := by simpa using hl
  have hw := sum_lt_sumW k _ hl' hpos hb'
  have hw0 := sum_lt_sumW k t.win hl hpos hb
  have hge : t.win[t.idx] ≤ t.win.sum := by
    have := sum_set t.win t.idx 0 hlt
    omega
  have e1 : uN k.sumW ((t.sum : Int) - (t.slot t.idx : Int)) = t.sum - t.slot t.idx := by
    rw [hslot, hs, ← Int.ofNat_sub hge]; exact uN_of_lt (by omega)
  have e2 : (addSample k t d).sum = (t.win.set t.idx d).sum := by
    show uN k.sumW (((uN k.sumW ((t.sum : Int) - (t.slot t.idx : Int)) : Nat) : Int) + (d : Int)) = _
    rw [e1, ← Int.natCast_add, uN_of_lt] <;> rw [hslot, hs] <;> omega
  refine ⟨⟨hl', Nat.mod_lt _ hpos, e2, ?_, hb', hp⟩, rfl, ?_, rfl, rfl, rfl, rfl⟩
  · refine uN_of_lt ?_
    show (addSample k t d).sum / k.winN < _
    rw [e2, Nat.div_lt_iff_lt_mul hpos, Nat.mul_comm]
    exact sum_lt k _ hl' hpos hb'
  · rw [e2, hslot, hs]; exact hset

/-- Every edge keeps the channel's invariant. -/
theorem touchEdge_inv {k : Cfg} {t : Touch} (h : TouchInv k t) (now : Nat) : TouchInv k (touchEdge k t now) := by
  obtain ⟨h1, h2, h3, h4, h5, -⟩ := h
  unfold touchEdge
  dsimp only
  split
  · exact ⟨h1, h2, h3, h4, h5, uN_lt k.tsW now⟩
  · exact (addSample_spec (t := { t with prevTs := uN k.tsW now }) ⟨h1, h2, h3, h4, h5, uN_lt k.tsW now⟩ (elapsed_lt _ _ _)).1

/-- R192: the stored state after a poll is the comparison itself. -/
theorem touchedAfterPoll_eq (b : Bool) (a t : Nat) : touchedAfterPoll b a t = decide (t ≤ a) := by
  unfold touchedAfterPoll
  cases b <;> by_cases h : t ≤ a <;> simp [h]
  omega

end Sys2Proof.Machine
end

