-- ==== Sys2Proof/Tests/Slice0.lean ====
section
/-! SUPPORT. Tests on fixed values: ill-formed terms refused, the opcode map's rows written out from 30_encoding.md R72, single steps from the
vectors of 95_test_vectors.md (each test names its vector), and a witness for every statement that has hypotheses. -/
namespace Sys2Proof.Tests
open Sys2Proof Sys2Proof.Machine Sys2Proof.Safety

/-! ### Well-formedness -/

theorem test_wf_frameSend_short : (Instr.frameSend 3#8 [0x01#8]).wf Config.default = false := by decide
theorem test_wf_frameSend_long : (Instr.frameSend 0#8 [0x01#8]).wf Config.default = false := by decide
theorem test_wf_frameSend_ok : (Instr.frameSend 2#8 [0x41#8, 0x42#8]).wf Config.default = true := by decide
theorem test_wf_now_wide : (Instr.evTouchEdge .zero (2 ^ 32)).wf Config.default = false := by decide
theorem test_wf_now_ok : (Instr.evTouchEdge .zero (2 ^ 32 - 1)).wf Config.default = true := by decide
theorem test_valid_default : Config.default.valid = true := by decide
theorem test_valid_cap : ({ Config.default with cap := 0 } : Cfg).valid = false := by decide
theorem test_valid_winN : ({ Config.default with winN := 0 } : Cfg).valid = false := by decide
theorem test_valid_encLimit : ({ Config.default with encLimit := 0 } : Cfg).valid = false := by decide
theorem test_valid_encDiv : ({ Config.default with encDiv := 0 } : Cfg).valid = false := by decide

/-- R6's derived widths under the default configuration: `IDX_W` = 4, `SUM_W` = 36. -/
theorem test_widths : Config.default.idxW = 4 ∧ Config.default.sumW = 36 := by decide

/-! ### Decoding: the words of R72, bit by bit -/

theorem test_decode_uartInit : decodeTableWord 8 0b00000001 = some .uartInit := by decide
theorem test_decode_uartPut : decode { op := 0b00000010#8, d := 0x41#8 } = .ok (.uartPut 0x41#8) := by decide
theorem test_decode_uartGet : decodeTableWord 8 0b00000011 = some .uartGet := by decide
theorem test_decode_uartPump : decodeTableWord 8 0b00000100 = some .uartPump := by decide
theorem test_decode_frameSend :
    decode { op := 0b00000101#8, len := 2#8, payload := [0x41#8, 0x42#8] } = .ok (.frameSend 2#8 [0x41#8, 0x42#8]) := by decide
theorem test_decode_frameStep : decodeTableWord 8 0b00000110 = some .frameStep := by decide
theorem test_decode_parserStep : decodeTableWord 8 0b00000111 = some .parserStep := by decide
theorem test_decode_touchIsTouched : decodeTableWord 8 0b00001001 = some (.touchIsTouched .one) := by decide
theorem test_decode_encGetPosition : decodeTableWord 8 0b00001100 = some .encGetPosition := by decide
theorem test_decode_encResetPosition : decodeTableWord 8 0b00001101 = some .encResetPosition := by decide
theorem test_decode_encButtonPressed : decodeTableWord 8 0b00001110 = some .encButtonPressed := by decide
theorem test_decode_evTxComplete : decodeTableWord 8 0b00100000 = some .evTxComplete := by decide
theorem test_decode_evRxComplete : decodeTableWord 8 0b00100001 = some .evRxComplete := by decide
theorem test_decode_evTouchEdge : decode { op := 0b00101000#8, now := 1000 } = .ok (.evTouchEdge .zero 1000) := by decide
theorem test_decode_evEncEdge : decodeTableWord 8 0b00110010 = some (.evEncEdge 0b10#2) := by decide
theorem test_decode_evBtnPress : decodeTableWord 8 0b00110100 = some .evBtnPress := by decide
theorem test_decode_cbWrite : decode { op := 0b01000001#8, d := 0x7F#8 } = .ok (.cbWrite .rx 0x7F#8) := by decide
theorem test_decode_cbRead : decodeTableWord 8 0b01000010 = some (.cbRead .tx) := by decide
theorem test_decode_hwTxDone : decodeTableWord 8 0b01100000 = some .hwTxDone := by decide
theorem test_decode_hwRxAccept : decodeTableWord 8 0b01100001 = some .hwRxAccept := by decide
theorem test_decode_hwRxDrop : decodeTableWord 8 0b01100010 = some .hwRxDrop := by decide
theorem test_decode_peerSend : decode { op := 0b01101000#8, d := 0xCC#8 } = .ok (.peerSend 0xCC#8) := by decide
theorem test_decode_reset : decodeTableWord 8 0b11110001 = some (.reset 0b01#2) := by decide

/-- X1: unassigned opcodes. -/
theorem test_decode_unassigned :
    ∀ w ∈ [0x00, 0x0A, 0x1F, 0x22, 0x35, 0x50, 0x63, 0x69, 0xEF, 0xF4], decodeTableWord 8 w = none := by decide

/-! ### States for the tests -/

/-- The default configuration with the OPEN rows given test values. -/
def cfg : Cfg :=
  { Config.default with
    thresh := #v[100#32, 50#32], hwCompletes := true, baud := 9600, tsUnit := .microsecond, encForwardDir := .clockwise
    btnActiveLevel := .low, touchEdgeKind := .both }

/-- A small configuration: four slots in each buffer, three in each window. -/
def small : Cfg := { cfg with cap := 4, winN := 3 }

/-- The state after reset, under `cfg`. -/
def start : State := State.afterReset cfg 0#2 (Unspecified.zero cfg)

/-- The same under `small`. -/
def tiny : State := State.afterReset small 0#2 (Unspecified.zero small)

/-- The link is up. -/
def up (s : State) : State := { s with initState := .ready, irqEnTx := true, irqEnRx := true }

/-- An empty buffer after the bytes of `l` have been written. -/
def filled (cap : Nat) (l : List Byte) : Cb := cbWriteAll cap (Cb.afterReset (List.replicate cap 0#8)) l

/-- The state a step leads to. -/
def nextOf (o : Host.Outcome State Fault Refusal) : Option State :=
  match o with
  | .next t => some t
  | .fault _ => none
  | .refused _ => none

/-- Something about the state a step leads to. -/
def seen {α : Type} (f : State → α) (o : Host.Outcome State Fault Refusal) : Option α := (nextOf o).map f

/-! ### The circular buffer: vectors B4 to B6 and B9 -/

theorem test_b4_write_fills :
    let r := cbWrite 16 (filled 16 (List.replicate 15 1#8)) 0x7F#8
    r.1 = true ∧ r.2.tail = 0 ∧ r.2.full = true ∧ r.2.empty = false := by decide
theorem test_b5_write_full :
    cbWrite 16 (filled 16 (List.replicate 16 1#8)) 0x01#8 = (false, filled 16 (List.replicate 16 1#8)) := by decide
theorem test_b6_read_full :
    let r := cbRead 4 (filled 4 [5#8, 6#8, 7#8, 8#8])
    r.1 = some 5#8 ∧ r.2.head = 1 ∧ r.2.full = false ∧ r.2.empty = false := by decide
theorem test_b9_cap_one :
    let r := cbWrite 1 (filled 1 []) 0x05#8
    r.1 = true ∧ r.2.full = true ∧ r.2.empty = false := by decide

/-! ### Single steps -/

/-- U1. -/
theorem test_u1_init :
    seen (fun t => (t.label, t.initState, t.irqEnTx, t.irqEnRx, t.draws)) (exec .uartInit { start with draws := [true] })
      = some (.ret .ok, .ready, true, true, []) := by decide
/-- U3. -/
theorem test_u3_init_fails :
    seen (fun t => (t.label, t.initState, t.faults)) (exec .uartInit { start with draws := [false] })
      = some (.ret .error, .failed, [⟨.initFailed, .uartInit, .none⟩]) := by decide
/-- U5. -/
theorem test_u5_put_uninit :
    seen (fun t => (t.label, t.faults, t.tx.empty)) (exec (.uartPut 0x01#8) start)
      = some (.ret .error, [⟨.notReady, .uartPut, .mnemonic .uartPut⟩], true) := by decide
/-- U8. -/
theorem test_u8_get_empty : seen State.label (exec .uartGet (up start)) = some (.ret .empty) := by decide
/-- P7, step 54. -/
theorem test_p7_get :
    seen (fun t => (t.label, t.rx.head)) (exec .uartGet { up tiny with rx := filled 4 [0x50#8, 0x51#8] })
      = some (.ret (.byte 0x50#8), 1) := by decide
/-- U9. -/
theorem test_u9_pump :
    seen (fun t => (t.label, t.txState, t.txInflight, t.tx.empty, t.rxState, t.rxArmed))
        (exec .uartPump { up start with tx := filled 16 [0x41#8] })
      = some (.ret .none, .active, some 0x41#8, true, .active, true) := by decide
/-- U11. -/
theorem test_u11_pump_rx_full :
    seen (fun t => (t.rxState, t.rxArmed)) (exec .uartPump { up tiny with rx := filled 4 [1#8, 2#8, 3#8, 4#8] })
      = some (.yielded, false) := by decide
/-- U13. -/
theorem test_u13_tx_chains :
    seen (fun t => (t.txIrq, t.txInflight, t.tx.empty, t.txState))
        (exec .evTxComplete { up start with txState := .active, txIrq := true, tx := filled 16 [0x42#8] })
      = some (false, some 0x42#8, true, .active) := by decide
/-- U14. -/
theorem test_u14_tx_yields :
    seen (fun t => (t.txIrq, t.txState)) (exec .evTxComplete { up start with txState := .active, txIrq := true })
      = some (false, .yielded) := by decide
/-- U16, with four slots: one short of the last place. -/
theorem test_u16_rx_chains :
    seen (fun t => (t.rx.unread 4, t.rxArmed, t.rxState))
        (exec .evRxComplete { up tiny with rxState := .active, rxIrq := true, rxData := 0x7E#8, rx := filled 4 [1#8, 2#8] })
      = some ([1#8, 2#8, 0x7E#8], true, .active) := by decide
/-- U17. -/
theorem test_u17_rx_fills :
    seen (fun t => (t.rx.full, t.rxState, t.rxArmed))
        (exec .evRxComplete
          { up start with rxState := .active, rxIrq := true, rxData := 0x7E#8, rx := filled 16 (List.replicate 15 1#8) })
      = some (true, .yielded, false) := by decide
/-- U12. -/
theorem test_u12_tx_done :
    seen (fun t => (t.wireOut, t.txInflight, t.txIrq)) (exec .hwTxDone { up start with txInflight := some 0x41#8 })
      = some ([0x41#8], none, true) := by decide
/-- U15. -/
theorem test_u15_rx_accept :
    seen (fun t => (t.rxData, t.wireIn, t.rxArmed, t.rxIrq))
        (exec .hwRxAccept { up start with rxArmed := true, wireIn := [0xCC#8, 0x01#8] })
      = some (0xCC#8, [0x01#8], false, true) := by decide
/-- U18. -/
theorem test_u18_rx_drop :
    seen (fun t => (t.wireIn, t.wireLost)) (exec .hwRxDrop { up start with wireIn := [0x55#8] }) = some ([], [0x55#8]) := by decide
/-- U19. -/
theorem test_u19_rx_held :
    seen (fun t => (t.label, t.wireIn, t.wireLost))
        (exec .hwRxDrop { up start with cfg := { cfg with rxUnarmed := .held }, wireIn := [0x55#8] })
      = some (.noStep, [0x55#8], []) := by decide
/-- U20. -/
theorem test_u20_peer : seen State.wireIn (exec (.peerSend 0xCC#8) { start with wireIn := [1#8] }) = some [1#8, 0xCC#8] := by decide

/-- Section 2.3: the checksums of [41, 42], [01, 00], [00, 01] and [12, 34, 56]. -/
theorem test_cks :
    cks [0x41#8, 0x42#8] = 0xE2#8 ∧ cks [0x01#8, 0x00#8] = 0x80#8 ∧ cks [0x00#8, 0x01#8] = 0x01#8
      ∧ cks [0x12#8, 0x34#8, 0x56#8] = 0xF4#8 := by decide
/-- F1. -/
theorem test_f1_send :
    seen (fun t => (t.label, t.tx.unread 16)) (exec (.frameSend 2#8 [0x41#8, 0x42#8]) (up start))
      = some (.ret .ok, [0xCC#8, 0x02#8, 0x41#8, 0x42#8, 0xB9#8, 0xE2#8, 0x0D#8, 0x0A#8]) := by decide
/-- F7: NOT_READY wins over BAD_LENGTH. -/
theorem test_f7_priority :
    seen State.faults (exec (.frameSend 3#8 [0x01#8]) start) = some [⟨.notReady, .frameSend, .mnemonic .frameSend⟩] := by decide
/-- F8's seventh step with the draw true: the byte is dropped and the send goes on. -/
theorem test_f8_step_drops :
    seen (fun t => (t.label, t.frBusy, t.frPos, t.tx.tail))
        (exec .frameStep { up tiny with tx := filled 4 [1#8, 2#8, 3#8, 4#8], frBusy := true, frSeq := [0xCC#8, 2#8, 3#8], frPos := 1,
                                        draws := [true] })
      = some (.ret .none, true, 2, 0) := by decide
/-- F9: with the draw false the send is given up. -/
theorem test_f9_step_gives_up :
    seen (fun t => (t.label, t.frBusy, t.frPos, t.frSeq))
        (exec .frameStep { up tiny with tx := filled 4 [1#8, 2#8, 3#8, 4#8], frBusy := true, frSeq := [0xCC#8, 2#8, 3#8], frPos := 1,
                                        draws := [false] })
      = some (.ret .done, false, 0, []) := by decide
/-- X6: FRAME_STEP has no step without a send in progress; X7: UART_PUT has none during one. -/
theorem test_x6_x7 :
    seen State.label (exec .frameStep start) = some .noStep
      ∧ seen State.label (exec (.uartPut 1#8) { up start with frBusy := true, frSeq := [1#8] }) = some .noStep := by decide

/-- P-a and P-g, as far as the parser itself goes. -/
theorem test_pa_pg :
    (feedParser cfg [0xCC#8, 0x01#8, 0x41#8, 0xB9#8, 0x41#8, 0x0D#8, 0x0A#8] start.ps).2 = [[0x41#8]]
      ∧ (feedParser cfg [0xCC#8, 0x02#8, 0x41#8, 0x42#8, 0xB9#8, 0xE2#8, 0x0D#8, 0x0A#8] start.ps).2 = [[0x41#8, 0x42#8]] := by
  decide
/-- P-d: a bad checksum resynchronises at once. P-f: the byte that ends a bad frame is consumed. -/
theorem test_pd_pf :
    (feedParser cfg [0xCC#8, 0x01#8, 0x41#8, 0xB9#8, 0x42#8, 0x0D#8, 0x0A#8, 0xCC#8, 0x00#8, 0xB9#8, 0x00#8, 0x0D#8, 0x0A#8] start.ps).2
        = [[]]
      ∧ (feedParser cfg [0xCC#8, 0x01#8, 0x41#8, 0xB9#8, 0x41#8, 0x0D#8, 0xCC#8] start.ps).1.state = .awaitHead := by
  decide
/-- P-h, and the last step of P-c. -/
theorem test_ph_pc :
    seen State.label (exec .parserStep (up start)) = some (.ret .empty)
      ∧ seen (fun t => (t.label, t.rxFrames))
          (exec .parserStep { up tiny with rx := filled 4 [0x0A#8], ps := { tiny.ps with state := .awaitLf } })
        = some (.ret (.frame []), [[]]) := by decide

/-- `start` with its first channel past its baseline, at 1000, and its second just before the clock wraps. -/
def edged : State :=
  { start with
    touch := [{ Touch.afterReset 10 1000 with first := false }, { Touch.afterReset 10 0xFFFFFFF0 with first := false }] }

/-- What a channel holds after an outcome. -/
def chanOf {α : Type} (c : Channel) (f : Touch → α) (o : Host.Outcome State Fault Refusal) : Option α :=
  (nextOf o).bind (fun t => (t.chan c).map f)

/-- T2. -/
theorem test_t2_edge :
    chanOf .zero (fun t => (t.slot 0, t.sum, t.idx, t.avg)) (exec (.evTouchEdge .zero 1150) edged) = some (150, 150, 1, 15)
      ∧ chanOf .one Touch.sum (exec (.evTouchEdge .zero 1150) edged) = some 0 := by decide
/-- T8: the clock wraps between two edges. -/
theorem test_t8_wraps :
    chanOf .one (fun t => (t.sum, t.avg, t.prevTs)) (exec (.evTouchEdge .one 0x00000010) edged) = some (32, 3, 0x10) := by decide
/-- T10: an average equal to the threshold counts as touched. T5: one below it does not, whatever was stored. -/
theorem test_t10_t5_poll :
    seen State.label (exec (.touchIsTouched .zero) { start with touch := [{ Touch.afterReset 10 0 with avg := 100 }] })
        = some (.ret (.bool true))
      ∧ chanOf .zero Touch.touched
          (exec (.touchIsTouched .zero) { start with touch := [{ Touch.afterReset 10 0 with avg := 99, touched := true }] })
        = some false := by decide
/-- With `N_CH` = 1 there is no second channel; with `TS_W` = 8 the elapsed time is taken modulo 256. -/
theorem test_parameters :
    seen State.label (exec (.touchIsTouched .one) { start with touch := [Touch.afterReset 10 0] }) = some .noStep
      ∧ (touchEdge { cfg with tsW := 8, thresh := #v[1#8, 2#8] } { Touch.afterReset 10 250 with first := false } 4).sum = 10 := by decide

/-- Q5 and Q7. -/
theorem test_q5_q7 :
    seen (fun t => (t.encCount, t.encLast)) (exec (.evEncEdge 0b01#2) { start with encCount := 16, encLast := 0b11#2 })
        = some (15, 0b01#2)
      ∧ seen (fun t => (t.encCount, t.encLast)) (exec (.evEncEdge 0b01#2) { start with encCount := 95 }) = some (0, 0b01#2) := by
  decide
/-- Q8 and Q10. -/
theorem test_q8_q10 :
    seen (fun t => (t.encCount, t.encLast)) (exec (.evEncEdge 0b10#2) { start with encCount := -95 }) = some (0, 0b10#2)
      ∧ seen (fun t => (t.encCount, t.encLast)) (exec (.evEncEdge 0b10#2) { start with encCount := 7, encLast := 0b01#2 })
        = some (7, 0b10#2) := by decide
/-- Section 2.7's division vectors at -95, -3, -5, 7 and 95, and its reset of the position. -/
theorem test_position :
    position 4 (-95) = -23 ∧ position 4 (-3) = 0 ∧ position 4 (-5) = -1 ∧ position 4 7 = 1 ∧ position 4 95 = 23 := by decide
theorem test_get_and_reset_position :
    seen State.label (exec .encGetPosition { start with encCount := -5 }) = some (.ret (.int (-1)))
      ∧ seen (fun t => (t.encCount, t.encLast)) (exec .encResetPosition { start with encCount := -37, encLast := 0b11#2 })
        = some (0, 0b11#2) := by decide
/-- Section 2.7's button vector. -/
theorem test_button :
    seen State.btnLatch (exec .evBtnPress start) = some true
      ∧ seen (fun t => (t.label, t.btnLatch)) (exec .encButtonPressed { start with btnLatch := true })
        = some (.ret (.bool true), false) := by decide

/-- X2 and X3. -/
theorem test_x2_x3 :
    seen (fun t => (t.label, t.refused)) (exec (.cbWrite .tx 0#8) start) = some (.refused .internalOp, true)
      ∧ seen (fun t => (t.label, t.refused)) (exec (.cbRead .rx) start) = some (.refused .internalOp, true) := by decide
/-- X5. -/
theorem test_x5_reset :
    seen (fun t => (t.encLast, t.initState, t.faults, t.encCount, t.tx.empty, t.cfg == cfg))
        (exec (.reset 0b10#2) { up start with encCount := 5, faults := [⟨.initFailed, .uartInit, .none⟩], tx := filled 16 [1#8] })
      = some (0b10#2, .uninit, [], 0, true, true) := by decide
/-- P1, step 3, by the schedule: the offer is taken off and its command runs. -/
theorem test_step_put :
    seen (fun t => (t.label, t.sched, t.tx.unread 4)) (step { up tiny with sched := [⟨.app, { op := 0x02#8, d := 0x41#8 }⟩] })
      = some (.ret .ok, [], [0x41#8]) := by decide
/-- The first instruction after reset, for a command of each agent but the peer (`step` on `State.reset` itself). -/
theorem test_first_steps :
    seen State.label (step (State.reset.withFetchWord 8 0x0C)) = some (.ret (.int 0))
      ∧ seen State.label (step (State.reset.withFetchWord 8 0x33)) = some .silent
      ∧ seen State.label (step (State.reset.withFetchWord 8 0x60)) = some .noStep
      ∧ seen State.label (step (State.reset.withFetchWord 8 0xF1)) = some .silent
      ∧ seen State.label (step (State.reset.withFetchWord 8 0x00)) = some (.refused .badOpcode) := by decide

/-! ### Witnesses: states and operands that meet the hypotheses of the statements, each clause at a boundary -/

/-- A link in the middle of a transmission: one byte in flight, two waiting, a receive latched, a channel past its baseline. -/
def busy : State :=
  { up tiny with
    txState := .active, txInflight := some 0x30#8, tx := filled 4 [0x31#8, 0x32#8]
    rxState := .active, rxIrq := true, rxData := 0x40#8, rx := filled 4 [0x41#8], wireIn := [0x42#8]
    encCount := 95, faults := [⟨.initFailed, .uartInit, .none⟩] }

/-- A send in progress under AS_IMPLEMENTED, with a full buffer. -/
def sending : State :=
  { up { tiny with cfg := { small with sendPolicy := .asImplemented } } with
    tx := filled 4 [1#8, 2#8, 3#8, 4#8], frBusy := true, frSeq := [0xCC#8, 2#8, 3#8], frPos := 1, draws := [true] }

/-- The invariant but for the parser's part, as a computation, in the parts that Lean decides one by one. -/
def meets (s : State) : Bool :=
  s.cfg.valid && s.tx.data.length == s.cfg.cap && s.rx.data.length == s.cfg.cap && decide (BufferInv s.cfg.cap s.tx) && decide (BufferInv s.cfg.cap s.rx) && decide (TransportInv s)
    && s.touch.length == s.cfg.nCh && decide (∀ t ∈ s.touch, TouchInv s.cfg t) && decide (EncoderInv s.cfg.encLimit s.encCount)
    && decide (FramerInv s) && decide (FaultInv s.faults)

/-- The parser as it is after a reset. -/
theorem parser_after_reset (k : Cfg) : ParserInv (Parser.afterReset (Unspecified.zero k).psBuf) :=
  ⟨List.length_replicate, Nat.zero_le _, (by rintro ⟨⟩), (by rintro (h | h | h | h) <;> cases h), rfl⟩

theorem inv_of_meets {s : State} {k : Cfg} (hp : s.ps = Parser.afterReset (Unspecified.zero k).psBuf) (h : meets s = true) : Inv s := by
  simp only [meets, Bool.and_eq_true, decide_eq_true_eq, beq_iff_eq] at h
  obtain ⟨⟨⟨⟨⟨⟨⟨⟨⟨⟨h1, h2⟩, h3⟩, h4⟩, h5⟩, h6⟩, h7⟩, h8⟩, h9⟩, h10⟩, h11⟩ := h
  have h12 : ParserInv s.ps := hp ▸ parser_after_reset k
  have hw : Memory.wf s = true := by rw [Memory.wf_iff]; exact ⟨h2, h3, h7, fun t ht => (h8 t ht).1, h12.1⟩
  exact ⟨h1, hw, h4, h5, h6, h8, h9, h10, h12, h11⟩

theorem test_witness_invariants : Inv start ∧ Inv tiny ∧ Inv (up tiny) ∧ Inv busy ∧ Inv sending :=
  ⟨inv_of_meets rfl (by decide), inv_of_meets rfl (by decide), inv_of_meets rfl (by decide), inv_of_meets rfl (by decide), inv_of_meets rfl (by decide)⟩

/-- UnassignedOpcodesRefused, StepRunsDecodedInstruction, WrongAgentHasNoStep: a decoding command by its own agent, one by another agent,
the ends of every unassigned range and the opcodes beside them. -/
theorem test_witness_schedule :
    start.refused = false ∧ start.cfg.valid = true
      ∧ (∃ o : Offer, o.agent = .app ∧ decode o.cmd = .ok (.uartPut 1#8) ∧ mayTake o.agent (.uartPut 1#8) = true)
      ∧ (∃ o : Offer, decode o.cmd = .ok .evTxComplete ∧ Instr.evTxComplete.agent = some .isrTx ∧ o.agent ≠ .isrTx)
      ∧ (∀ n ∈ [0x00, 0x0A, 0x0B, 0x0F, 0x1F, 0x22, 0x27, 0x2A, 0x2F, 0x35, 0x3F, 0x44, 0x5F, 0x63, 0x67, 0x69, 0xEF, 0xF4, 0xFF],
          decode { op := BitVec.ofNat 8 n } = .error .badOpcode)
      ∧ (∀ n ∈ [0x01, 0x09, 0x0C, 0x0E, 0x20, 0x21, 0x28, 0x29, 0x30, 0x34, 0x40, 0x43, 0x60, 0x62, 0x68, 0xF0, 0xF3],
          decode { op := BitVec.ofNat 8 n } ≠ .error .badOpcode) := by
  refine ⟨rfl, by decide, ⟨⟨.app, { op := 0x02#8, d := 1#8 }⟩, by decide⟩, ⟨⟨.app, { op := 0x20#8 }⟩, by decide⟩, by decide, by decide⟩

/-- RefusedRunEnds, BadConfigurationRefused: a refused state, and each broken configuration. -/
theorem test_witness_refused :
    ({ start with refused := true } : State).refused = true
      ∧ (∀ k ∈ [{ cfg with cap := 0 }, { cfg with winN := 0 }, { cfg with encLimit := 0 }, { cfg with encDiv := 0 }],
          ({ start with cfg := k } : State).refused = false ∧ k.valid = false) := by decide

/-- BufferWriteEnqueues, BufferReadDequeues, BufferCallsAreFifo, FullAfterCapacityWrites, FreeSpaceCountsFreeSlots: buffers of one and of
four slots, empty, with one byte, one short of full, full, wrapped. -/
theorem test_witness_buffers :
    (BufferInv 1 (filled 1 []) ∧ (filled 1 []).empty = true) ∧ (BufferInv 1 (filled 1 [1#8]) ∧ (filled 1 [1#8]).full = true)
      ∧ (BufferInv 4 (filled 4 [1#8]) ∧ (filled 4 [1#8]).count 4 = 1 ∧ (filled 4 [1#8]).empty = false)
      ∧ (BufferInv 4 (filled 4 [1#8, 2#8, 3#8]) ∧ (filled 4 [1#8, 2#8, 3#8]).count 4 = 3 ∧ (filled 4 [1#8, 2#8, 3#8]).full = false)
      ∧ (BufferInv 4 (filled 4 [1#8, 2#8, 3#8, 4#8]) ∧ (filled 4 [1#8, 2#8, 3#8, 4#8]).full = true)
      ∧ BufferInv 4 (cbWrite 4 (cbRead 4 (filled 4 [1#8, 2#8, 3#8, 4#8])).2 5#8).2
      ∧ ([2#8, 3#8, 4#8] : List Byte).length + 1 = 4 := by decide

/-- UartInitBringsLinkUp, InternalPrimitivesRefused: UART_INIT in each state and with each draw. -/
theorem test_witness_init :
    start.refused = false ∧ start.frBusy = false ∧ start.initState = .uninit ∧ (up start).initState = .ready
      ∧ ({ start with initState := .failed } : State).initState = .failed
      ∧ ({ start with draws := [true] } : State).drawBool = true ∧ ({ start with draws := [false] } : State).drawBool = false := by
  decide

/-- UartPutQueuesByte, UartGetTakesOldestByte, UartPumpStartsTransfers, ParserFollowsTransitionTable: a buffer with room, empty and with a
byte (a full one: test_witness_buffers); each direction's state. -/
theorem test_witness_transport :
    (up tiny).refused = false ∧ (up tiny).frBusy = false ∧ (up tiny).initState = .ready ∧ (up tiny).txState = .yielded
      ∧ (up tiny).rxState = .yielded ∧ BufferInv 4 (up tiny).tx ∧ (up tiny).tx.full = false ∧ (up tiny).rx.empty = true
      ∧ busy.refused = false ∧ busy.frBusy = false ∧ busy.initState = .ready ∧ busy.txState = .active ∧ busy.rxState = .active
      ∧ busy.tx.empty = false ∧ busy.rx.unread busy.cfg.cap = [0x41#8] ∧ BufferInv busy.cfg.cap busy.rx := by decide

/-- TransmitCompleteChainsOrYields, ReceiveCompleteStoresByte, ReceiveNeverOverflows, HardwareAndPeerMoveWireBytes: each step enabled, with
each buffer state that a clause names. -/
theorem test_witness_handlers :
    (∀ s ∈ [{ busy with txInflight := none, txIrq := true },
            { busy with txInflight := none, txIrq := true, tx := filled 4 [] }],
        s.refused = false ∧ s.irqEnTx = true ∧ s.txIrq = true ∧ BufferInv s.cfg.cap s.tx)
      ∧ (∀ l ∈ [[], [1#8, 2#8], [1#8, 2#8, 3#8], [1#8, 2#8, 3#8, 4#8]],
          busy.irqEnRx = true ∧ busy.rxIrq = true ∧ BufferInv busy.cfg.cap ({ busy with rx := filled 4 l } : State).rx)
      ∧ enabled .evRxComplete busy = true ∧ busy.txInflight = some 0x30#8
      ∧ ({ up tiny with rxArmed := true, wireIn := [1#8] } : State).rxArmed = true
      ∧ busy.cfg.rxUnarmed = .mayDrop ∧ busy.rxArmed = false ∧ busy.wireIn = [0x42#8]
      ∧ ({ small with rxUnarmed := .held } : Cfg).rxUnarmed = .held := by decide

/-- NotReadyIsPrecise: each of the five commands, and both states that are not READY. -/
theorem test_witness_notReady :
    (∀ s ∈ [start, { start with initState := .failed }], s.refused = false ∧ s.frBusy = false ∧ s.initState ≠ .ready)
      ∧ (Instr.uartPut 1#8).op = .uartPut ∧ Instr.uartGet.op = .uartGet ∧ Instr.uartPump.op = .uartPump
      ∧ (Instr.frameSend 3#8 [1#8]).op = .frameSend ∧ Instr.parserStep.op = .parserStep := by decide

/-- SelfChainingDrainsTransmitBuffer: a yielded link with two bytes queued. -/
theorem test_witness_drain :
    Inv { up tiny with tx := filled 4 [1#8, 2#8] } ∧ ({ up tiny with tx := filled 4 [1#8, 2#8] } : State).tx.empty = false :=
  ⟨inv_of_meets rfl (by decide), by decide⟩

/-- DrainTxEmptiesActiveDirection: the byte in flight, and the interrupt pending. -/
theorem test_witness_drainTx :
    Inv { up tiny with tx := filled 4 [1#8, 2#8], txState := .active, txInflight := some 9#8 }
      ∧ Inv { up tiny with tx := filled 4 [1#8, 2#8], txState := .active, txIrq := true } :=
  ⟨inv_of_meets rfl (by decide), inv_of_meets rfl (by decide)⟩

/-- TransmitPathKeepsOrder, ReceivePathKeepsOrder, StateChangesOnlyByItsWriters, FaultRecordsFollowFaultTable: steps that move a byte on each
path, one that drops one, one that adds a fault. -/
theorem test_witness_paths :
    Inv busy ∧ Inv { busy with txInflight := none, txIrq := true } ∧ (nextOf (exec (.uartPut 7#8) busy)).isSome = true ∧ (nextOf (exec .hwTxDone busy)).isSome = true
      ∧ (nextOf (exec .evRxComplete busy)).isSome = true ∧ (nextOf (exec .uartGet busy)).isSome = true
      ∧ (nextOf (exec .hwRxDrop busy)).isSome = true ∧ Instr.hwRxDrop.op ≠ .reset
      ∧ seen State.faults (exec (.frameSend 1#8 []) busy)
          = some [⟨.initFailed, .uartInit, .none⟩, ⟨.badLength, .frameSend, .lengths 1#8 0⟩] :=
  ⟨inv_of_meets rfl (by decide), inv_of_meets rfl (by decide), by decide⟩

/-- AsImplementedSendQueuesFramePrefix: TX yielded with a byte queued, and steps of each kind. -/
theorem test_witness_asImplemented :
    let s := { sending with frBusy := false, frSeq := [], frPos := 0, tx := filled 4 [9#8] }
    BufferInv 4 s.tx ∧ TransportInv s ∧ s.txState = .yielded ∧ s.refused = false ∧ s.initState = .ready ∧ (1#8).toNat = [5#8].length
      ∧ (∀ i ∈ [Instr.frameStep, .evTxComplete, .evEncEdge 1#2, .hwRxAccept, .peerSend 7#8],
          i = .frameStep ∨ isHandler i = true ∨ i.agent = some .hw ∨ i.agent = some .peer)
      ∧ 1 + 6 ≤ (List.replicate 7 Instr.frameStep).count .frameStep ∧ Instr.evTxComplete ∉ List.replicate 7 Instr.frameStep := by decide

/-- TwoPhaseSendIsAllOrNothing, BadLengthIsPrecise, AsImplementedSendStartsSequencer: a frame that just
fits, one byte too many, a frame longer than the buffer; a bad length; the other policy. -/
theorem test_witness_frameSend :
    (up start).cfg.sendPolicy = .twoPhase ∧ BufferInv 16 (up start).tx
      ∧ (10#8).toNat + 6 ≤ (up start).tx.free 16 ∧ (10#8).toNat = (List.replicate 10 1#8).length
      ∧ (up start).tx.free 16 < (11#8).toNat + 6 ∧ 16 < (11#8).toNat + 6 ∧ (11#8).toNat = (List.replicate 11 1#8).length
      ∧ (filled 16 [1#8]).free 16 < (10#8).toNat + 6 ∧ (3#8).toNat ≠ [1#8].length
      ∧ sending.cfg.sendPolicy = .asImplemented ∧ ({ sending with frBusy := false } : State).refused = false
      ∧ enabled .frameStep sending = true ∧ Instr.frameStep.agent = some .app := by decide

/-- FrameStepPutsOneByte: room, no room with each draw, the last byte. -/
theorem test_witness_frameStep :
    sending.refused = false ∧ sending.frBusy = true ∧ sending.frSeq[sending.frPos]? = some 2#8 ∧ BufferInv 4 sending.tx
      ∧ sending.tx.full = true ∧ sending.drawBool = true ∧ ({ sending with draws := [false] } : State).drawBool = false
      ∧ (filled 4 [1#8]).full = false ∧ sending.frSeq[2]? = some 3#8 ∧ 2 + 1 = sending.frSeq.length
      ∧ sending.frPos + 1 ≠ sending.frSeq.length := by decide

/-- ParserInvertsFrame: a whole payload buffer, the longest payload, bytes that are no head. -/
theorem test_witness_parser :
    BufferInv busy.cfg.cap busy.rx ∧ start.ps.state = .awaitHead ∧ start.ps.buf.length = maxPayload
      ∧ (List.replicate 255 0#8).length ≤ maxPayload ∧ (∀ x ∈ [0x00#8, 0x0A#8], x ≠ cfg.headByte) :=
  ⟨by decide, rfl, List.length_replicate, (List.length_replicate (n := 255)).le, by decide⟩

/-- ParserStepsEmitFrame: a whole frame in `rx`, with a byte behind it. -/
theorem test_witness_frame_received :
    Inv { up start with rx := filled 16 (frame cfg [0x41#8] ++ [0xCC#8]) }
      ∧ (filled 16 (frame cfg [0x41#8] ++ [0xCC#8])).unread 16 = frame cfg [0x41#8] ++ [0xCC#8] :=
  ⟨inv_of_meets rfl (by decide), by decide⟩

/-- TouchEdgeUpdatesWindow, TouchPollComparesAverage, TouchAverageIsWindowMean: both kinds of edge; a clock about to wrap; a channel there
is not. -/
theorem test_witness_touch :
    start.refused = false ∧ start.frBusy = false ∧ cfg.valid = true ∧ small.valid = true ∧ 2 ^ 32 - 1 < 2 ^ start.cfg.tsW
      ∧ start.chan .zero = some (Touch.afterReset 10 0) ∧ TouchInv cfg (Touch.afterReset 10 0)
      ∧ (Touch.afterReset 10 0).first = true
      ∧ edged.chan .one = some { Touch.afterReset 10 0xFFFFFFF0 with first := false }
      ∧ TouchInv cfg { Touch.afterReset 10 0xFFFFFFF0 with first := false }
      ∧ ({ start with touch := [Touch.afterReset 10 0] } : State).chan .one = none ∧ Channel.one.index < cfg.nCh := by decide

/-- LapResetsToZero, EncoderEdgeCountsAndLaps, EncoderAndButtonCommands, PositionRangeAndTruncation, FullCyclesCountSixteen: both ends of the
range, and the lap's boundary values. -/
theorem test_witness_encoder :
    EncoderInv 96 95 ∧ EncoderInv 96 (-95) ∧ ¬EncoderInv 96 96 ∧ 1 ≤ cfg.encLimit ∧ lap 96 96 = 0 ∧ lap 96 95 = 95
      ∧ lap 96 (-96) = 0 ∧ lap 96 (-95) = -95 ∧ EncoderInv 1 0 ∧ 1 ≤ cfg.encDiv
      ∧ start.refused = false ∧ start.encCount = 0 ∧ start.encLast = 0b00#2 ∧ 16 < start.cfg.encLimit ∧ (17 : Nat) > 16 := by decide

/-- SingleByteErrorChangesChecksum, ResetRestoresEveryField, NothingPersistsAcrossReset, HandlersCommute: two bytes that differ; two states
under one configuration; two different handlers, both enabled. -/
theorem test_witness_pairs :
    (0x41#8 : Byte) ≠ 0x42#8 ∧ start.refused = false ∧ (up start).refused = false ∧ start.cfg = (up start).cfg
      ∧ isHandler .evRxComplete = true ∧ isHandler (.evTouchEdge .one 5) = true
      ∧ Instr.evRxComplete.agent ≠ (Instr.evTouchEdge .one 5).agent
      ∧ enabled .evRxComplete busy = true ∧ enabled (.evTouchEdge .one 5) busy = true := by decide

/-- StepKeepsInvariant, UnspecifiedStorageIsInvisible: a step from a state that meets the invariant; two states that differ in storage that
nothing reads. -/
theorem test_witness_storage :
    Inv busy ∧ (nextOf (step busy)).isSome = true ∧ Inv { busy with touch := [Touch.afterReset 3 7, Touch.afterReset 3 0] }
      ∧ SameReadable busy { busy with touch := [Touch.afterReset 3 7, Touch.afterReset 3 0] } :=
  ⟨inv_of_meets rfl (by decide), by decide, inv_of_meets rfl (by decide), rfl, rfl, rfl, rfl, fun _ => rfl,
    .cons ⟨rfl, fun h => nomatch h⟩ (.cons ⟨rfl, fun _ => rfl⟩ .nil)⟩

/-- QuiescentMeansNoLinkStepLeft: a quiescent state, and one that is not. -/
theorem test_witness_quiescent : Inv (up tiny) ∧ quiescent (up tiny) = true ∧ Inv busy ∧ quiescent busy = false :=
  ⟨inv_of_meets rfl (by decide), by decide, inv_of_meets rfl (by decide), by decide⟩

/-- The schedule of ScheduleReachesEndState, for two bytes. -/
def drainSchedule : List Offer :=
  offersBy .app [.uartPump] ++ (List.replicate 2 (offersBy .hw [.hwTxDone] ++ offersBy .isrTx [.evTxComplete])).flatten

/-- ScheduleReachesEndState: a yielded link with two bytes queued and the schedule for them. -/
theorem test_witness_end_schedule :
    Inv { up tiny with tx := filled 4 [1#8, 2#8], sched := drainSchedule }
      ∧ ({ up tiny with tx := filled 4 [1#8, 2#8], sched := drainSchedule } : State).txState = .yielded
      ∧ (filled 4 [1#8, 2#8]).count 4 = 2 :=
  ⟨inv_of_meets rfl (by decide), rfl, by decide⟩

/-- R286: the end state of that schedule; cut short, it has none; nor with a step that is not enabled. -/
theorem test_endState :
    (endState { up tiny with tx := filled 4 [1#8, 2#8], sched := drainSchedule }).map State.wireOut = some [1#8, 2#8]
      ∧ (endState { up tiny with tx := filled 4 [1#8, 2#8], sched := drainSchedule.take 4 }).isNone = true
      ∧ (endState { up tiny with sched := offersBy .hw [.hwTxDone] }).isNone = true := by decide

/-- The three states of a run in which a byte in flight reaches the wire and then only the position is read. -/
def runState : Nat → State
  | 0 => { up tiny with txState := .active, txInflight := some 0x41#8 }
  | 1 => { up tiny with txState := .active, wireOut := [0x41#8], txIrq := true, label := .silent }
  | _ + 2 => { up tiny with txState := .active, wireOut := [0x41#8], txIrq := true, label := .ret (.int 0) }

/-- Its offers: HW_TX_DONE once, then ENC_GET_POSITION for ever. -/
def runOffer : Nat → Offer
  | 0 => ⟨.hw, { op := 0x60#8 }⟩
  | _ + 1 => ⟨.app, { op := 0x0C#8 }⟩

/-- The run, for FairHardwarePutsByteOnWire. -/
def run : EnvRun where
  offer := runOffer
  state := runState
  follows := by
    intro n
    match n with
    | 0 => rfl
    | 1 => rfl
    | _ + 2 => exact (rfl : step ((runState 2).offered (runOffer 1)) = .next (runState 2))

theorem test_witness_run :
    run.hardwareFair ∧ (run.state 0).cfg.hwCompletes = true ∧ (∀ m, Inv (run.state m))
      ∧ (∀ m, 0 ≤ m → ∀ ab, ¬run.takes (.reset ab) m) ∧ (run.state 0).txInflight = some 0x41#8 := by
  have never : ∀ i, enabled i (run.state 1) = false → enabled i (run.state 2) = false → run.fairTo i := by
    intro i h1 h2 n hn
    have h := hn (n + 1) (by omega)
    match n with
    | 0 => rw [h1] at h; cases h
    | k + 1 => rw [show run.state (k + 1 + 1) = run.state 2 from rfl, h2] at h; cases h
  refine ⟨fun _ => ⟨never _ (by decide) (by decide), never _ (by decide) (by decide)⟩, rfl, ?_, ?_, rfl⟩
  · intro m
    match m with
    | 0 => exact inv_of_meets (s := runState 0) rfl (by decide)
    | 1 => exact inv_of_meets (s := runState 1) rfl (by decide)
    | _ + 2 => exact inv_of_meets (s := runState 2) rfl (by decide)
  · intro m _ ab ht
    match m with
    | 0 => exact nomatch (show decode { op := 0x60#8 } = .ok (.reset ab) from ht.1)
    | _ + 1 => exact nomatch (show decode { op := 0x0C#8 } = .ok (.reset ab) from ht.1)

/-- R234, D53. -/
theorem test_fault_numbers :
    FaultCode.notReady.number = 1 ∧ FaultCode.initFailed.number = 2 ∧ FaultCode.badLength.number = 3 ∧ FaultCode.rxLost.number = 4 := by
  decide

/-! ### The program notation (R95's own examples, R96) -/

theorem test_text_bytes :
    programOf "UART_PUT 0x41\nPEER_SEND 0x41\n; a comment\nTOUCH_IS_TOUCHED 1"
      = some [.uartPut 0x41#8, .peerSend 0x41#8, .touchIsTouched .one] := by decide

theorem test_text_edges :
    programOf "EV_TOUCH_EDGE 0, 1200\nEV_ENC_EDGE 0b01\nRESET 0b00"
      = some [.evTouchEdge .zero 1200, .evEncEdge 0b01#2, .reset 0b00#2] := by decide

theorem test_text_payload : programOf "FRAME_SEND 2, [0x41, 0x42]" = some [.frameSend 2#8 [0x41#8, 0x42#8]] := by decide

theorem test_text_pseudo :
    programOf "SEND [0x41, 0x42]\nPUTS [1, 2]" = some [.frameSend 2#8 [0x41#8, 0x42#8], .uartPut 1#8, .uartPut 2#8]
      ∧ programOf "UART_PUT 256" = none ∧ programOf "NOP" = none ∧ programOf "EV_ENC_EDGE 4" = none := by decide

end Sys2Proof.Tests
end

/-! PROOF. A configuration that breaks R7: what `Cfg.valid` says of one, and what `fetch` and `step` answer. -/
namespace Sys2Proof.Machine

/-- R7, constraint by constraint. -/
theorem cfg_valid_iff (c : Cfg) : c.valid = true ↔ 1 ≤ c.cap ∧ 1 ≤ c.winN ∧ 1 ≤ c.encLimit ∧ 1 ≤ c.encDiv := by
  simp only [Cfg.valid, Bool.and_eq_true, decide_eq_true_eq, and_assoc]

theorem cfg_valid_eq_false_iff (c : Cfg) :
    c.valid = false ↔ c.cap = 0 ∨ c.winN = 0 ∨ c.encLimit = 0 ∨ c.encDiv = 0 := by
  rw [← Bool.not_eq_true, cfg_valid_iff]
  omega

/-- R7, R233: the configuration is looked at before the schedule is. -/
theorem fetch_of_invalid {s : State} (hlive : s.refused = false) (hcfg : s.cfg.valid = false) :
    fetch s = .settled (refuse s .badConfig) := by
  simp [fetch, hlive, hcfg]

theorem step_of_settled {s t : State} (h : fetch s = .settled t) : step s = .next t := by
  simp only [step, h]

/-- Settles O9: a broken constraint makes the configuration invalid, so `fetch` settles on the refusal whatever the schedule holds. -/
theorem badConfigurationRefused : Obligations.BadConfigurationRefused := by
  intro s hlive hbroken
  have hcfg : s.cfg.valid = false := (cfg_valid_eq_false_iff s.cfg).mpr hbroken
  exact step_of_settled (fetch_of_invalid hlive hcfg)

end Sys2Proof.Machine

/-! PROOF. The invariant at reset (R40): `State.reset` and every state RESET leads to are `State.afterReset` of a valid configuration over
storage of the right sizes. -/
namespace Sys2Proof.Machine
open Sys2Proof.Safety

theorem bufferInv_afterReset {cap : Nat} {data : List Byte} (hpos : 0 < cap) (hlen : data.length = cap) :
    BufferInv cap (Cb.afterReset data) :=
  ⟨hlen, hpos, hpos, by simp [Cb.afterReset], by simp [Cb.afterReset]⟩

theorem touchInv_afterReset {k : Cfg} {prev : Nat} (hpos : 0 < k.winN) (hprev : prev < 2 ^ k.tsW) :
    TouchInv k (Touch.afterReset k.winN prev) := by
  refine ⟨List.length_replicate, hpos, ?_, ?_, ?_, hprev⟩
  · simp [Touch.afterReset]
  · simp [Touch.afterReset]
  · intro x hx
    rw [List.eq_of_mem_replicate hx]
    positivity

theorem parserInv_afterReset {buf : List Byte} (hlen : buf.length = maxPayload) : ParserInv (Parser.afterReset buf) :=
  ⟨hlen, Nat.zero_le _, by simp [Parser.afterReset], by simp [Parser.afterReset], rfl⟩

theorem encoderInv_zero {limit : Nat} (hpos : 1 ≤ limit) : EncoderInv limit 0 := ⟨by omega, by omega⟩

/-- The reset values meet the invariant, whatever the unspecified storage of the right sizes holds. -/
theorem inv_afterReset {c : Cfg} {ab : Pins} {u : Unspecified} (hcfg : c.valid = true)
    (hmem : Memory.wf (State.afterReset c ab u) = true) (hprev : ∀ p ∈ u.prev, p < 2 ^ c.tsW) :
    Inv (State.afterReset c ab u) := by
  obtain ⟨hcap, hwin, hlimit, -⟩ := (cfg_valid_iff c).mp hcfg
  obtain ⟨htx, hrx, -, -, hbuf⟩ := Memory.wf_iff.mp hmem
  have htouch : ∀ t ∈ u.prev.map (Touch.afterReset c.winN), TouchInv c t := by
    intro t ht
    obtain ⟨p, hp, rfl⟩ := List.mem_map.mp ht
    exact touchInv_afterReset hwin (hprev p hp)
  have htransport : TransportInv (State.afterReset c ab u) := by
    simp [TransportInv, State.afterReset, Cb.afterReset]
  have hframer : FramerInv (State.afterReset c ab u) := by
    simp [FramerInv, State.afterReset]
  exact ⟨hcfg, hmem, bufferInv_afterReset hcap htx, bufferInv_afterReset hcap hrx, htransport, htouch,
    encoderInv_zero hlimit, hframer, parserInv_afterReset hbuf, List.nodup_nil, by simp [State.afterReset]⟩

/-- R260: RESET restores the invariant under a valid configuration. -/
theorem resetTo_inv {s : State} (hcfg : s.cfg.valid = true) (ab : Pins) : Inv (resetTo ab s) := by
  have hprev : ∀ p ∈ (drawUnspecified s.cfg s.drawCount).prev, p < 2 ^ s.cfg.tsW := by
    intro p hp
    obtain ⟨i, -, rfl⟩ := List.mem_map.mp hp
    exact uN_lt _ _
  exact inv_afterReset (ab := ab) hcfg (resetTo_wf ab s) hprev

/-- Settles O51: R40's values are those of `State.afterReset`, and `Config.default` has two channels with windows of ten samples. -/
theorem resetStateHoldsResetValues : Obligations.ResetStateHoldsResetValues := by
  have htouch : ∀ t ∈ State.reset.touch, t = Touch.afterReset 10 0 := by
    intro t ht
    obtain ⟨p, hp, rfl⟩ := List.mem_map.mp ht
    rw [List.eq_of_mem_replicate hp]
    rfl
  have hchannels : ∀ t ∈ State.reset.touch,
      t.win = List.replicate 10 0 ∧ t.sum = 0 ∧ t.avg = 0 ∧ t.idx = 0 ∧ t.first = true ∧ t.touched = false := by
    intro t ht
    rw [htouch t ht]
    exact ⟨rfl, rfl, rfl, rfl, rfl, rfl⟩
  exact ⟨rfl, rfl, rfl, rfl, rfl, rfl, rfl, rfl, rfl, rfl, rfl, rfl, rfl, rfl,
    rfl, rfl, rfl, rfl, rfl, rfl, rfl, rfl, rfl, rfl, rfl, rfl, rfl, rfl,
    rfl, hchannels, rfl, rfl, rfl, rfl⟩

/-- Settles O52: the storage of `State.reset` has its sizes (`reset_wf`) and every unspecified `prev_ts` is 0 there. -/
theorem resetStateMeetsInvariant : Obligations.ResetStateMeetsInvariant := by
  have hprev : ∀ p ∈ (Unspecified.zero Config.default).prev, p < 2 ^ Config.default.tsW := by
    intro p hp
    rw [List.eq_of_mem_replicate hp]
    positivity
  exact inv_afterReset rfl reset_wf hprev

end Sys2Proof.Machine

/-! PROOF. Every step keeps the invariant (10_state.md R41 to R43): one lemma per operation, through what Laws/ says that operation
can do. A state that writes the link's fields alone needs the buffers' and the transport's parts again (`inv_of_link_update`). -/
namespace Sys2Proof.Machine
open Sys2Proof.Safety

variable {s : State}

/-! ### The parts of the invariant that an update concerns -/

theorem bufferInv_tx (h : Inv s) : BufferInv s.cfg.cap s.tx := by
  obtain ⟨-, -, htx, -⟩ := h
  exact htx

theorem bufferInv_rx (h : Inv s) : BufferInv s.cfg.cap s.rx := by
  obtain ⟨-, -, -, hrx, -⟩ := h
  exact hrx

theorem transportInv_of_inv (h : Inv s) : TransportInv s := by
  obtain ⟨-, -, -, -, htr, -⟩ := h
  exact htr

theorem framerInv_of_inv (h : Inv s) : FramerInv s := by
  obtain ⟨-, -, -, -, -, -, -, hfr, -⟩ := h
  exact hfr

/-- The fields of the two buffers and of the transport, `init_state` and the interrupt enables apart. -/
theorem inv_of_link_update {t : State} (h : Inv s)
    (hframe : t = { s with
      tx := t.tx, rx := t.rx, txState := t.txState, rxState := t.rxState, txInflight := t.txInflight, txIrq := t.txIrq
      rxArmed := t.rxArmed, rxIrq := t.rxIrq, rxData := t.rxData, wireOut := t.wireOut, wireIn := t.wireIn
      wireLost := t.wireLost, label := t.label })
    (htx : BufferInv s.cfg.cap t.tx) (hrx : BufferInv s.cfg.cap t.rx) (htr : TransportInv t) : Inv t := by
  obtain ⟨hcfg, hmem, -, -, -, htouch, henc, hfr, hps, hflt⟩ := h
  obtain ⟨-, -, hch, hwin, hbuf⟩ := Memory.wf_iff.mp hmem
  rw [hframe] at htr ⊢
  exact ⟨hcfg, Memory.wf_iff.mpr ⟨htx.1, hrx.1, hch, hwin, hbuf⟩, htx, hrx, htr, htouch, henc, hfr, hps, hflt⟩

theorem setLabel_inv (h : Inv s) (l : Label) : Inv (s.setLabel l) := h

/-- Storing a channel that meets its invariant. -/
theorem setChan_inv (h : Inv s) (c : Channel) {t : Touch} (ht : TouchInv s.cfg t) : Inv (s.setChan c t) := by
  obtain ⟨hcfg, hmem, htx, hrx, htr, htouch, henc, hfr, hps, hflt⟩ := h
  refine ⟨hcfg, setChan_wf hmem c t ht.1, htx, hrx, htr, fun u hu => ?_, henc, hfr, hps, hflt⟩
  rcases List.mem_or_eq_of_mem_set hu with hmem | rfl
  · exact htouch u hmem
  · exact ht

/-- R232, R128: adding a record that is not RX_LOST's. -/
theorem addFault_inv (h : Inv s) {f : FaultRecord} (hf : f.code ≠ .rxLost) : Inv (s.addFault f) := by
  obtain ⟨hcfg, hmem, htx, hrx, htr, htouch, henc, hfr, hps, hnodup, hcode⟩ := h
  refine ⟨hcfg, hmem, htx, hrx, htr, htouch, henc, hfr, hps, nodup_addFault hnodup, fun g hg => ?_⟩
  rcases mem_addFault.mp hg with hold | rfl
  · exact hcode g hold
  · exact hf

theorem raiseApp_inv (h : Inv s) {code : FaultCode} (hc : code ≠ .rxLost) (op : Op) (info : FaultInfo) :
    Inv (raiseApp s code op info) :=
  addFault_inv (f := ⟨code, op, info⟩) h hc

/-- R234: the NOT_READY check keeps the invariant where the rest of the command does. -/
theorem whenReady_inv (h : Inv s) (op : Op) {t : State} (ht : s.initState = .ready → Inv t) : Inv (whenReady op s t) :=
  whenReady_elim (P := Inv) (fun _ => raiseApp_inv h (by simp) _ _) ht

/-- A new `tx` on an initialised link. -/
theorem inv_of_tx (h : Inv s) (hr : s.initState = .ready) {c : Cb} (hc : BufferInv s.cfg.cap c) (l : Label) :
    Inv { s with tx := c, label := l } := by
  obtain ⟨htx1, htx2, hrx1, hrx2, hrx3, -, hen⟩ := transportInv_of_inv h
  exact inv_of_link_update h rfl hc (bufferInv_rx h) ⟨htx1, htx2, hrx1, hrx2, hrx3, absurd hr, hen⟩

/-- A new `rx` that is not full, on an initialised link. -/
theorem inv_of_rx (h : Inv s) (hr : s.initState = .ready) {c : Cb} (hc : BufferInv s.cfg.cap c) (hf : c.full = false) (l : Label) :
    Inv { s with rx := c, label := l } := by
  obtain ⟨htx1, htx2, hrx1, hrx2, -, -, hen⟩ := transportInv_of_inv h
  exact inv_of_link_update h rfl (bufferInv_tx h) hc ⟨htx1, htx2, hrx1, hrx2, fun _ => hf, absurd hr, hen⟩

/-- The sequencer's three fields (R28). -/
theorem inv_of_framer (h : Inv s) {busy : Bool} {seq : List Byte} {pos : Nat}
    (hfr : FramerInv { s with frBusy := busy, frSeq := seq, frPos := pos }) :
    Inv { s with frBusy := busy, frSeq := seq, frPos := pos } := by
  obtain ⟨hcfg, hmem, htx, hrx, htr, htouch, henc, -, hps, hflt⟩ := h
  exact ⟨hcfg, hmem, htx, hrx, htr, htouch, henc, hfr, hps, hflt⟩

/-- The parser's fields (R29). -/
theorem inv_of_parser (h : Inv s) {p : Parser} (hp : ParserInv p) : Inv { s with ps := p } := by
  obtain ⟨hcfg, hmem, htx, hrx, htr, htouch, henc, hfr, -, hflt⟩ := h
  obtain ⟨hm1, hm2, hm3, hm4, -⟩ := Memory.wf_iff.mp hmem
  exact ⟨hcfg, Memory.wf_iff.mpr ⟨hm1, hm2, hm3, hm4, hp.1⟩, htx, hrx, htr, htouch, henc, hfr, hp, hflt⟩

/-- The encoder count (R43). -/
theorem inv_of_encCount (h : Inv s) {n : Int} (hn : EncoderInv s.cfg.encLimit n) : Inv { s with encCount := n } := by
  obtain ⟨hcfg, hmem, htx, hrx, htr, htouch, -, hfr, hps, hflt⟩ := h
  exact ⟨hcfg, hmem, htx, hrx, htr, htouch, hn, hfr, hps, hflt⟩

/-! ### The application's transport operations -/

/-- R241: an enabled interrupt source means an initialised link. -/
theorem ready_of_irqEnTx (h : Inv s) (he : s.irqEnTx = true) : s.initState = .ready := by
  obtain ⟨-, -, -, -, -, -, htx, -⟩ := transportInv_of_inv h
  exact htx.mpr he

theorem ready_of_irqEnRx (h : Inv s) (he : s.irqEnRx = true) : s.initState = .ready := by
  obtain ⟨-, -, -, -, -, -, -, hrx⟩ := transportInv_of_inv h
  exact hrx.mpr he

/-- R154, R155: a send in progress means an initialised link. -/
theorem not_busy_of_not_ready (h : Inv s) (hn : s.initState ≠ .ready) : s.frBusy = false := by
  obtain ⟨-, hbusy, -⟩ := framerInv_of_inv h
  by_contra hb
  obtain ⟨-, -, hr⟩ := hbusy (by simpa using hb)
  exact hn hr

/-- A change of `init_state` where no send is in progress: the transport's part has to hold again. -/
theorem inv_of_initState (h : Inv s) (hb : s.frBusy = false) {i : InitState} (htr : TransportInv { s with initState := i }) :
    Inv { s with initState := i } := by
  obtain ⟨hcfg, hmem, htx, hrx, -, htouch, henc, ⟨hlen, -, hidle⟩, hps, hflt⟩ := h
  refine ⟨hcfg, hmem, htx, hrx, htr, htouch, henc, ⟨hlen, fun hbusy => ?_, hidle⟩, hps, hflt⟩
  exact absurd hbusy (by simp [hb])

theorem linkUp_inv (h : Inv s) (hu : s.initState ≠ .ready) : Inv (linkUp s) := by
  have hb := not_busy_of_not_ready h hu
  obtain ⟨hcfg, hmem, htx, hrx, -, htouch, henc, ⟨hlen, -, hidle⟩, hps, hflt⟩ := h
  have htr : TransportInv (linkUp s) := by
    simp [TransportInv, linkUp, cbClear]
  refine ⟨hcfg, hmem, cbClear_inv htx, cbClear_inv hrx, htr, htouch, henc, ⟨hlen, fun hbusy => ?_, hidle⟩, hps, hflt⟩
  exact absurd hbusy (by simp [linkUp, hb])

theorem initFailed_inv (h : Inv s) (hu : s.initState = .uninit) : Inv { s with initState := .failed } := by
  have hn : s.initState ≠ .ready := by simp [hu]
  refine inv_of_initState h (not_busy_of_not_ready h hn) ?_
  obtain ⟨htx1, htx2, hrx1, hrx2, hrx3, hidle, henTx, henRx⟩ := transportInv_of_inv h
  refine ⟨htx1, htx2, hrx1, hrx2, hrx3, fun _ => hidle hn, ?_, ?_⟩
  · simpa [hu] using henTx
  · simpa [hu] using henRx

/-- R120. -/
theorem initLink_inv (h : Inv s) : Inv (initLink s) := by
  have hdraw : Inv s.afterDraw := h
  rcases initLink_cases s with ⟨-, e⟩ | ⟨-, e⟩ | ⟨hu, -, e⟩ | ⟨hu, -, e⟩ <;> rw [e]
  · exact h
  · exact h
  · exact setLabel_inv (linkUp_inv hdraw (by simp [hu])) _
  · exact raiseApp_inv (initFailed_inv hdraw hu) (by simp) _ _

/-- R121. -/
theorem putByte_inv (h : Inv s) (hr : s.initState = .ready) (d : Byte) : Inv (putByte d s) := by
  rcases putByte_cases d (bufferInv_tx h) with ⟨-, e⟩ | ⟨-, c, e, hc, -⟩ <;> rw [e]
  · exact h
  · exact inv_of_tx h hr hc _

/-- R122. -/
theorem getByte_inv (h : Inv s) (hr : s.initState = .ready) : Inv (getByte s) := by
  rcases getByte_cases (bufferInv_rx h) with ⟨-, e⟩ | ⟨-, x, c, e, hc, -, -, -, hf⟩ <;> rw [e]
  · exact h
  · exact inv_of_rx h hr hc hf _

/-- R123, the TX part: nothing was in flight or pending on a yielded direction. -/
theorem pumpTx_inv (h : Inv s) (hr : s.initState = .ready) : Inv (pumpTx s) := by
  rcases pumpTx_cases (bufferInv_tx h) with ⟨hy, -, x, c, e, hc, -⟩ | ⟨-, e⟩ <;> rw [e]
  · obtain ⟨htx, -, hrx1, hrx2, hrx3, -, hen⟩ := transportInv_of_inv h
    have hidle : s.txIrq = false := by simpa [hy] using fun hirq => htx.mpr (.inr hirq)
    exact inv_of_link_update h rfl hc (bufferInv_rx h) ⟨by simp, by simp [hidle], hrx1, hrx2, hrx3, absurd hr, hen⟩
  · exact h

/-- R123, the RX part: likewise, and `rx` has room. -/
theorem pumpRx_inv (h : Inv s) (hr : s.initState = .ready) : Inv (pumpRx s) := by
  rcases pumpRx_cases (s := s) with ⟨hy, hf, e⟩ | ⟨-, e⟩ <;> rw [e]
  · obtain ⟨htx1, htx2, hrx, -, -, -, hen⟩ := transportInv_of_inv h
    have hidle : s.rxIrq = false := by simpa [hy] using fun hirq => hrx.mpr (.inr hirq)
    exact inv_of_link_update h rfl (bufferInv_tx h) (bufferInv_rx h) ⟨htx1, htx2, by simp, by simp [hidle], fun _ => hf, absurd hr, hen⟩
  · exact h

@[simp] theorem pumpTx_initState (s : State) : (pumpTx s).initState = s.initState := by
  unfold pumpTx sendNext
  split
  · split <;> rfl
  · rfl

/-! ### The framer and the parser -/

/-- R154. -/
theorem sendFrame_inv (h : Inv s) (hr : s.initState = .ready) (len : Byte) (payload : List Byte) :
    Inv (sendFrame len payload s) := by
  rcases sendFrame_cases len payload (bufferInv_tx h) with
    ⟨-, e⟩ | ⟨-, -, -, e⟩ | ⟨-, -, -, c, -, e, hc, -⟩ | ⟨hlen, hp, e⟩ <;> rw [e]
  · exact raiseApp_inv h (by simp) _ _
  · exact h
  · exact inv_of_tx h hr hc _
  · have hbyte : payload.length ≤ maxPayload := by
      have := len.isLt
      unfold maxPayload
      omega
    have hfr : FramerInv { s with frBusy := true, frSeq := frame s.cfg payload, frPos := 0 } := by
      refine ⟨?_, fun _ => ⟨?_, hp, hr⟩, by simp⟩
      · simpa using hbyte
      · simp [frameOverhead]
    exact inv_of_framer h hfr

/-- R156: the send is over. -/
theorem endSend_inv (h : Inv s) : Inv (endSend s) := by
  have hfr : FramerInv { s with frBusy := false, frSeq := [], frPos := 0 } := by simp [FramerInv]
  exact inv_of_framer h hfr

/-- R156: the send goes on with the next byte of the frame. -/
theorem nextFrameByte_inv (h : Inv s) (hb : s.frBusy = true) (hne : s.frPos + 1 ≠ s.frSeq.length) :
    Inv { s with frPos := s.frPos + 1 } := by
  obtain ⟨hlen, hbusy, -⟩ := framerInv_of_inv h
  obtain ⟨hpos, hp, hr⟩ := hbusy hb
  have hfr : FramerInv { s with frPos := s.frPos + 1 } :=
    ⟨hlen, fun _ => ⟨by show s.frPos + 1 < s.frSeq.length; omega, hp, hr⟩, by simp [hb]⟩
  exact inv_of_framer h hfr

/-- R156. -/
theorem putFrameByte_inv (h : Inv s) (hb : s.frBusy = true) : Inv (putFrameByte s) := by
  obtain ⟨-, hbusy, -⟩ := framerInv_of_inv h
  obtain ⟨-, -, hr⟩ := hbusy hb
  rcases putFrameByte_cases (bufferInv_tx h) with
    ⟨-, c, hc, -, -, -, -, ⟨-, e⟩ | ⟨hne, e⟩⟩ | ⟨-, ⟨-, e⟩ | ⟨-, hne, e⟩⟩ <;> rw [e]
  · exact endSend_inv (inv_of_tx h hr hc .noStep)
  · exact nextFrameByte_inv (inv_of_tx h hr hc .noStep) hb hne
  · exact endSend_inv h
  · exact nextFrameByte_inv h hb hne

/-- R171. -/
theorem parseNext_inv (h : Inv s) (hr : s.initState = .ready) : Inv (parseNext s) := by
  have hps : ∀ x, ParserInv (parseByte s.cfg s.ps x).1 := by
    obtain ⟨-, -, -, -, -, -, -, -, hps, -⟩ := h
    exact parseByte_inv hps s.cfg
  rcases parseNext_cases (bufferInv_rx h) with ⟨-, e⟩ | ⟨-, x, c, hc, -, -, -, hf, ⟨p, -, e⟩ | ⟨-, e⟩⟩ <;> rw [e]
  · exact h
  · exact inv_of_parser (inv_of_rx h hr hc hf .noStep) (hps x)
  · exact inv_of_parser (inv_of_rx h hr hc hf .noStep) (hps x)

/-! ### The touch detector and the encoder -/

theorem touchInv_of_chan (h : Inv s) {c : Channel} {t : Touch} (ht : s.chan c = some t) : TouchInv s.cfg t := by
  obtain ⟨-, -, -, -, -, htouch, -⟩ := h
  exact htouch t (List.mem_of_getElem? ht)

/-- R190. -/
theorem edgeOn_inv (h : Inv s) (c : Channel) (now : Nat) : Inv (edgeOn c now s) := by
  cases ht : s.chan c with
  | some t => rw [edgeOn_some ht]; exact setChan_inv h c (touchEdge_inv (touchInv_of_chan h ht) now)
  | none => simp only [edgeOn, ht]; exact setLabel_inv h .noStep

/-- R191: a poll writes `touched`, of which the invariant says nothing. -/
theorem pollOn_inv (h : Inv s) (c : Channel) : Inv (pollOn c s) := by
  cases ht : s.chan c with
  | some t => rw [pollOn_some ht]; exact setChan_inv h c (t := touchPoll s.cfg c t) (touchInv_of_chan (t := t) h ht)
  | none => simp only [pollOn, ht]; exact setLabel_inv h .noStep

/-- R212: whatever the count was, the lap reset puts it in its range. -/
theorem lap_inv {limit : Nat} (hpos : 1 ≤ limit) (x : Int) : EncoderInv limit (lap limit x) := by
  unfold lap
  split <;> constructor <;> omega

theorem encLimit_pos (h : Inv s) : 1 ≤ s.cfg.encLimit := by
  obtain ⟨hcfg, -⟩ := h
  obtain ⟨-, -, hlimit, -⟩ := (cfg_valid_iff _).mp hcfg
  exact hlimit

/-! ### The handlers, the hardware and the peer -/

/-- R125: the acknowledged interrupt leaves nothing pending and nothing in flight but the chained byte. -/
theorem txComplete_inv (h : Inv s) (hen : s.irqEnTx = true) (hirq : s.txIrq = true) : Inv (txComplete s) := by
  have hr := ready_of_irqEnTx h hen
  obtain ⟨htx1, htx2, hrx1, hrx2, hrx3, -, hen⟩ := transportInv_of_inv h
  rcases txComplete_cases (bufferInv_tx h) with ⟨-, e⟩ | ⟨-, x, c, e, hc, -⟩ <;> rw [e]
  · have hnone : s.txInflight.isSome = false := by simpa [hirq] using htx2
    exact inv_of_link_update h rfl (bufferInv_tx h) (bufferInv_rx h) ⟨by simp [hnone], by simp, hrx1, hrx2, hrx3, absurd hr, hen⟩
  · have hact : s.txState = .active := htx1.mpr (.inr hirq)
    exact inv_of_link_update h rfl hc (bufferInv_rx h) ⟨by simp [hact], by simp, hrx1, hrx2, hrx3, absurd hr, hen⟩

/-- R126, R128: `rx` has room while RX is active, so the handler stores its byte. -/
theorem rxComplete_inv (h : Inv s) (hen : s.irqEnRx = true) (hirq : s.rxIrq = true) : Inv (rxComplete s) := by
  have hr := ready_of_irqEnRx h hen
  obtain ⟨htx1, htx2, hrx1, hrx2, hrx3, -, hen⟩ := transportInv_of_inv h
  have hact : s.rxState = .active := hrx1.mpr (.inr hirq)
  rcases rxComplete_cases (bufferInv_rx h) with ⟨-, c, hc, -, -, -, -, ⟨hf, e⟩ | ⟨hf, e⟩⟩ | ⟨hfull, -⟩
  · have hidle : s.rxArmed = false := by simpa [hirq] using hrx2
    rw [e]
    exact inv_of_link_update h rfl (bufferInv_tx h) hc ⟨htx1, htx2, by simp [hidle], by simp, by simp, absurd hr, hen⟩
  · rw [e]
    exact inv_of_link_update h rfl (bufferInv_tx h) hc ⟨htx1, htx2, by simp [hact], by simp, fun _ => hf, absurd hr, hen⟩
  · exact absurd (hrx3 hact) (by simp [hfull])

/-- R130: the byte in flight gives way to its pending interrupt. -/
theorem txDone_inv (h : Inv s) : Inv (txDone s) := by
  cases hi : s.txInflight with
  | none => simp only [txDone, hi]; exact setLabel_inv h .noStep
  | some b =>
    obtain ⟨htx1, -, hrest⟩ := transportInv_of_inv h
    have hact : s.txState = .active := htx1.mpr (.inl (by simp [hi]))
    simp only [txDone, hi]
    exact inv_of_link_update h rfl (bufferInv_tx h) (bufferInv_rx h) ⟨by simp [hact], by simp, hrest⟩

/-- R131: the armed receive gives way to its pending interrupt. -/
theorem rxAccept_inv (h : Inv s) (ha : s.rxArmed = true) : Inv (rxAccept s) := by
  cases hw : s.wireIn with
  | nil => simp only [rxAccept, hw]; exact setLabel_inv h .noStep
  | cons b rest =>
    obtain ⟨htx1, htx2, hrx1, -, hrest⟩ := transportInv_of_inv h
    have hact : s.rxState = .active := hrx1.mpr (.inl ha)
    simp only [rxAccept, hw]
    exact inv_of_link_update h rfl (bufferInv_tx h) (bufferInv_rx h) ⟨htx1, htx2, by simp [hact], by simp, hrest⟩

/-- R132. -/
theorem rxDrop_inv (h : Inv s) : Inv (rxDrop s) := by
  cases hw : s.wireIn with
  | nil => simp only [rxDrop, hw]; exact setLabel_inv h .noStep
  | cons b rest => simp only [rxDrop, hw]; exact h

/-! ### Every step -/

/-- What an instruction does where it is enabled keeps the invariant. -/
theorem effect_inv (h : Inv s) {i : Instr} (he : enabled i s = true) : Inv (effect i s) := by
  cases i with
  | uartInit => exact initLink_inv h
  | uartPut d => exact whenReady_inv h _ (putByte_inv h · d)
  | uartGet => exact whenReady_inv h _ (getByte_inv h)
  | uartPump => exact whenReady_inv h _ fun hr => pumpRx_inv (pumpTx_inv h hr) (by simpa using hr)
  | frameSend len payload => exact whenReady_inv h _ (sendFrame_inv h · len payload)
  | frameStep =>
    obtain ⟨-, hbusy⟩ : s.refused = false ∧ s.frBusy = true := by simpa [enabled] using he
    exact putFrameByte_inv h hbusy
  | parserStep => exact whenReady_inv h _ (parseNext_inv h)
  | touchIsTouched c => exact pollOn_inv h c
  | encGetPosition => exact h
  | encResetPosition => exact inv_of_encCount h (encoderInv_zero (encLimit_pos h))
  | encButtonPressed => exact h
  | evTxComplete =>
    obtain ⟨-, hen, hirq⟩ : s.refused = false ∧ s.irqEnTx = true ∧ s.txIrq = true := by simpa [enabled] using he
    exact txComplete_inv h hen hirq
  | evRxComplete =>
    obtain ⟨-, hen, hirq⟩ : s.refused = false ∧ s.irqEnRx = true ∧ s.rxIrq = true := by simpa [enabled] using he
    exact rxComplete_inv h hen hirq
  | evTouchEdge c now => exact edgeOn_inv h c now
  | evEncEdge ab => exact inv_of_encCount h (lap_inv (encLimit_pos h) _)
  | evBtnPress => exact h
  | cbWrite u d => exact h
  | cbRead u => exact h
  | hwTxDone => exact txDone_inv h
  | hwRxAccept =>
    obtain ⟨-, harmed, -⟩ : s.refused = false ∧ s.rxArmed = true ∧ s.wireIn ≠ [] := by simpa [enabled] using he
    exact rxAccept_inv h harmed
  | hwRxDrop => exact rxDrop_inv h
  | peerSend d => exact h
  | reset ab => exact resetTo_inv h.1 ab

theorem exec_inv (h : Inv s) {i : Instr} {t : State} (he : exec i s = .next t) : Inv t :=
  exec_elim he (setLabel_inv h) (effect_inv h)

/-- Settles O53: a settled step writes `sched`, `label` and `refused` alone, of which the invariant says nothing; a step that runs an
instruction keeps it by `exec_inv`. -/
theorem stepKeepsInvariant : Obligations.StepKeepsInvariant := by
  intro s t h hstep
  rcases step_next hstep with ⟨l, rest, rf, rfl⟩ | ⟨o, rest, i, -, -, -, hexec⟩
  · exact h
  · exact exec_inv (s := { s with sched := rest }) h hexec

end Sys2Proof.Machine

/-! PROOF. The frame of each operation: which fields it can write, in every state (no invariant assumed), and the label it gives. -/
namespace Sys2Proof.Machine

variable {s : State}

/-! ### The buffers -/

/-- A put that is not taken leaves the buffer as it was. -/
theorem cbWrite_split (cap : Nat) (b : Cb) (d : Byte) :
    (∃ c, cbWrite cap b d = (true, c) ∧ c.head = b.head) ∨ cbWrite cap b d = (false, b) := by
  cases hf : b.full
  · exact .inl ⟨_, cbWrite_ok cap d hf, rfl⟩
  · exact .inr (cbWrite_full cap d hf)

/-- A read that answers EMPTY leaves the buffer as it was. -/
theorem cbRead_split (cap : Nat) (b : Cb) :
    (∃ x c, cbRead cap b = (some x, c) ∧ c.data = b.data ∧ c.tail = b.tail) ∨ cbRead cap b = (none, b) := by
  cases he : b.empty
  · exact .inl ⟨_, _, cbRead_ok cap he, rfl, rfl⟩
  · exact .inr (cbRead_empty cap he)

/-! ### Readiness -/

theorem whenReady_cases (op : Op) (s t : State) :
    whenReady op s t = t
      ∨ ∃ f, whenReady op s t = { s with faults := f, label := .ret .error } := by
  by_cases hr : s.initState = .ready
  · exact .inl (whenReady_ready hr)
  · exact .inr ⟨_, (whenReady_notReady hr).trans (raiseApp_eq _ _ _ _)⟩

/-! ### The application's operations -/

theorem putByte_frame (d : Byte) (s : State) :
    ∃ c r, putByte d s = { s with tx := c, label := .ret r } ∧ c.head = s.tx.head :=
  ⟨_, _, rfl, cbWrite_head _ _⟩

theorem getByte_frame (s : State) :
    ∃ c r, getByte s = { s with rx := c, label := .ret r } ∧ c.data = s.rx.data ∧ c.tail = s.rx.tail :=
  ⟨_, _, rfl, cbRead_data _, cbRead_tail _⟩

theorem sendNext_frame (s : State) :
    ∃ c o, sendNext s = { s with tx := c, txInflight := o } ∧ c.data = s.tx.data ∧ c.tail = s.tx.tail := by
  rcases cbRead_split s.cfg.cap s.tx with ⟨x, c, e, hd, ht⟩ | e
  · exact ⟨c, some x, by simp only [sendNext, e, startTx], hd, ht⟩
  · exact ⟨s.tx, s.txInflight, by simp only [sendNext, e], rfl, rfl⟩

theorem pumpTx_frame (s : State) :
    ∃ d c o, pumpTx s = { s with txState := d, tx := c, txInflight := o } ∧ c.data = s.tx.data ∧ c.tail = s.tx.tail := by
  unfold pumpTx
  split
  · obtain ⟨c, o, e, hc⟩ := sendNext_frame { s with txState := .active }
    exact ⟨.active, c, o, e, hc⟩
  · exact ⟨s.txState, s.tx, s.txInflight, rfl, rfl, rfl⟩

theorem pumpRx_frame (s : State) : ∃ d a, pumpRx s = { s with rxState := d, rxArmed := a } := by
  unfold pumpRx
  split
  · exact ⟨_, _, rfl⟩
  · exact ⟨s.rxState, s.rxArmed, rfl⟩

theorem pump_frame (s : State) :
    ∃ d c o d' a, (pumpRx (pumpTx s)).ret .none
        = { s with txState := d, tx := c, txInflight := o, rxState := d', rxArmed := a, label := .ret .none }
      ∧ c.data = s.tx.data ∧ c.tail = s.tx.tail := by
  obtain ⟨d, c, o, etx, hc⟩ := pumpTx_frame s
  obtain ⟨d', a, erx⟩ := pumpRx_frame (pumpTx s)
  exact ⟨d, c, o, d', a, by rw [erx, etx]; rfl, hc⟩

theorem sendFrame_frame (len : Byte) (payload : List Byte) (s : State) :
    ∃ c busy seq pos f l, sendFrame len payload s
        = { s with tx := c, frBusy := busy, frSeq := seq, frPos := pos, faults := f, label := l }
      ∧ c.head = s.tx.head ∧ l ≠ .noStep := by
  unfold sendFrame
  split
  · split
    · unfold sendTwoPhase
      split
      · exact ⟨s.tx, s.frBusy, s.frSeq, s.frPos, s.faults, _, rfl, rfl, by simp⟩
      · exact ⟨_, s.frBusy, s.frSeq, s.frPos, s.faults, _, rfl, cbWriteAll_head _ _ _, by simp⟩
    · exact ⟨s.tx, _, _, _, s.faults, _, rfl, rfl, by simp⟩
  · exact ⟨s.tx, s.frBusy, s.frSeq, s.frPos, _, _, rfl, rfl, by simp⟩

theorem afterPut_frame (putFull cont : Bool) (s : State) :
    ∃ busy seq pos r, afterPut putFull cont s = { s with frBusy := busy, frSeq := seq, frPos := pos, label := .ret r } := by
  unfold afterPut
  split
  · exact ⟨_, _, _, _, rfl⟩
  · exact ⟨s.frBusy, s.frSeq, s.frPos, _, rfl⟩

theorem putFrameByte_frame (s : State) :
    ∃ c busy seq pos d n r, putFrameByte s
        = { s with tx := c, frBusy := busy, frSeq := seq, frPos := pos, draws := d, drawCount := n, label := .ret r }
      ∧ c.head = s.tx.head := by
  rcases cbWrite_split s.cfg.cap s.tx (frameByte s) with ⟨c, e, hc⟩ | e
  · obtain ⟨busy, seq, pos, r, ea⟩ := afterPut_frame false true { s with tx := c, frPos := s.frPos + 1 }
    exact ⟨c, busy, seq, pos, s.draws, s.drawCount, r, by simp only [putFrameByte, e, ea], hc⟩
  · obtain ⟨busy, seq, pos, r, ea⟩ := afterPut_frame true s.drawBool { s with frPos := s.frPos + 1 }.afterDraw
    exact ⟨s.tx, busy, seq, pos, _, _, r, by simp only [putFrameByte, e]; exact ea, rfl⟩

theorem parseNext_frame (s : State) :
    ∃ c p fs r, parseNext s = { s with rx := c, ps := p, rxFrames := fs, label := .ret r }
      ∧ c.data = s.rx.data ∧ c.tail = s.rx.tail := by
  rcases cbRead_split s.cfg.cap s.rx with ⟨x, c, e, hc⟩ | e
  · refine ⟨c, (parseByte s.cfg s.ps x).1, ?_⟩
    cases ho : (parseByte s.cfg s.ps x).2 with
    | none => exact ⟨s.rxFrames, _, by simp only [parseNext, e, ho, emitFrame]; rfl, hc⟩
    | some p => exact ⟨_, _, by simp only [parseNext, e, ho, emitFrame]; rfl, hc⟩
  · exact ⟨s.rx, s.ps, s.rxFrames, _, by simp only [parseNext, e]; rfl, rfl, rfl⟩

/-! ### The handlers, the hardware -/

theorem txComplete_frame (s : State) :
    ∃ d c o, txComplete s = { s with txIrq := false, txState := d, tx := c, txInflight := o }
      ∧ c.data = s.tx.data ∧ c.tail = s.tx.tail := by
  unfold txComplete
  split
  · exact ⟨_, s.tx, s.txInflight, rfl, rfl, rfl⟩
  · obtain ⟨c, o, e, hc⟩ := sendNext_frame { s with txIrq := false }
    exact ⟨s.txState, c, o, e, hc⟩

theorem rxContinue_frame (s : State) : ∃ d a, rxContinue s = { s with rxState := d, rxArmed := a } := by
  unfold rxContinue
  split
  · exact ⟨_, s.rxArmed, rfl⟩
  · exact ⟨s.rxState, _, rfl⟩

theorem rxComplete_frame (s : State) :
    ∃ c d a f, rxComplete s = { s with rxIrq := false, rx := c, rxState := d, rxArmed := a, faults := f, label := .silent }
      ∧ c.head = s.rx.head := by
  rcases cbWrite_split s.cfg.cap s.rx s.rxData with ⟨c, e, hc⟩ | e
  · obtain ⟨d, a, ec⟩ := rxContinue_frame { s with rxIrq := false, rx := c }
    exact ⟨c, d, a, s.faults, by simp only [rxComplete, e, ec]; rfl, hc⟩
  · exact ⟨s.rx, s.rxState, s.rxArmed, _, by simp only [rxComplete, e]; rfl, rfl⟩

theorem txDone_frame (s : State) :
    ∃ w o q l, txDone s = { s with wireOut := w, txInflight := o, txIrq := q, label := l }
      ∧ (s.txInflight.isSome = true → l ≠ .noStep) := by
  cases h : s.txInflight with
  | none => exact ⟨s.wireOut, s.txInflight, s.txIrq, .noStep, by simp only [txDone, h]; rw [← h]; rfl, by simp⟩
  | some b => exact ⟨_, _, _, _, by simp only [txDone, h]; rfl, by simp⟩

theorem rxAccept_frame (s : State) :
    ∃ x w a q l, rxAccept s = { s with rxData := x, wireIn := w, rxArmed := a, rxIrq := q, label := l }
      ∧ (s.wireIn ≠ [] → l ≠ .noStep) := by
  cases h : s.wireIn with
  | nil => exact ⟨s.rxData, s.wireIn, s.rxArmed, s.rxIrq, .noStep, by simp only [rxAccept, h]; rw [← h]; rfl, by simp⟩
  | cons b rest => exact ⟨_, _, _, _, _, by simp only [rxAccept, h]; rfl, by simp⟩

theorem rxDrop_frame (s : State) :
    ∃ w v l, rxDrop s = { s with wireLost := w, wireIn := v, label := l } ∧ (s.wireIn ≠ [] → l ≠ .noStep) := by
  cases h : s.wireIn with
  | nil => exact ⟨s.wireLost, s.wireIn, .noStep, by simp only [rxDrop, h]; rw [← h]; rfl, by simp⟩
  | cons b rest => exact ⟨_, _, _, by simp only [rxDrop, h]; rfl, by simp⟩

/-! ### The touch channels -/

/-- Storing an element that looks like the one it replaces, seen through `f`. -/
theorem map_getElem?_set_of_eq {α β : Type} {l : List α} {i : Nat} {a b : α} (f : α → β) (ha : l[i]? = some a) (hf : f b = f a)
    (j : Nat) : (l.set i b)[j]?.map f = l[j]?.map f := by
  by_cases hj : i = j
  · subst hj
    simp [List.getElem?_set_self', ha, hf]
  · rw [List.getElem?_set_ne hj]

/-- Two lists that agree but at `i` can differ, seen through `f`, at `i` alone. -/
theorem index_eq_of_map_ne {α β : Type} {u v : List α} {i : Nat} (f : α → β) (h : ∀ j, j ≠ i → u[j]? = v[j]?) (j : Nat)
    (hne : ¬ u[j]?.map f = v[j]?.map f) : i = j := by
  by_contra hij
  exact hne (by rw [h j (Ne.symm hij)])

/-- R190: an edge writes its own channel, and not that channel's `touched`. -/
theorem edgeOn_touch (c : Channel) (now : Nat) (s : State) :
    (∀ j : Nat, (edgeOn c now s).touch[j]?.map Touch.touched = s.touch[j]?.map Touch.touched)
      ∧ ∀ j : Nat, j ≠ c.index → (edgeOn c now s).touch[j]? = s.touch[j]? := by
  cases ht : s.chan c with
  | none => simp only [edgeOn, ht]; exact ⟨fun _ => rfl, fun _ _ => rfl⟩
  | some t =>
    have hf : (touchEdge s.cfg t now).touched = t.touched := by
      unfold touchEdge
      dsimp only
      split <;> rfl
    rw [edgeOn_some ht]
    exact ⟨map_getElem?_set_of_eq Touch.touched ht hf, fun j hj => List.getElem?_set_ne hj.symm⟩

/-- R191: a poll writes its own channel's `touched` alone. -/
theorem pollOn_touch (c : Channel) (s : State) :
    (∀ j : Nat, (pollOn c s).touch[j]?.map (fun x : Touch => { x with touched := false })
        = s.touch[j]?.map (fun x : Touch => { x with touched := false }))
      ∧ ∀ j : Nat, j ≠ c.index → (pollOn c s).touch[j]? = s.touch[j]? := by
  cases ht : s.chan c with
  | none => simp only [pollOn, ht]; exact ⟨fun _ => rfl, fun _ _ => rfl⟩
  | some t =>
    rw [pollOn_some ht]
    exact ⟨map_getElem?_set_of_eq (b := touchPoll s.cfg c t) _ ht rfl, fun j hj => List.getElem?_set_ne hj.symm⟩

end Sys2Proof.Machine

/-! PROOF. Where an instruction takes a step (O7), and which instructions write which field (O55): each instruction through the frame of
its operation. -/
namespace Sys2Proof.Machine
open Sys2Proof.Safety

variable {s : State}

/-- R93: the effect of an enabled instruction is a step, so its label is not `noStep`. -/
theorem effect_label_ne_noStep {i : Instr} (he : enabled i s = true) : (effect i s).label ≠ .noStep := by
  have hready : ∀ (op : Op) (t : State), t.label ≠ .noStep → (whenReady op s t).label ≠ .noStep := by
    intro op t ht
    rcases whenReady_cases op s t with e | ⟨f, e⟩ <;> rw [e]
    · exact ht
    · simp
  cases i with
  | uartInit => rcases initLink_cases s with ⟨-, e⟩ | ⟨-, e⟩ | ⟨-, -, e⟩ | ⟨-, -, e⟩ <;> simp [effect, e, raiseApp_eq]
  | uartPut d => exact hready _ _ (by simp [putByte])
  | uartGet => exact hready _ _ (by simp [getByte])
  | uartPump => exact hready _ _ (by simp)
  | frameSend len payload =>
    obtain ⟨c, busy, seq, pos, f, l, e, -, hl⟩ := sendFrame_frame len payload s
    exact hready _ _ (by simpa [e] using hl)
  | frameStep =>
    obtain ⟨c, busy, seq, pos, d, n, r, e, -⟩ := putFrameByte_frame s
    simp [effect, e]
  | parserStep =>
    obtain ⟨c, p, fs, r, e, -⟩ := parseNext_frame s
    exact hready _ _ (by simp [e])
  | touchIsTouched c =>
    obtain ⟨-, -, hchan⟩ : s.refused = false ∧ s.frBusy = false ∧ s.hasChan c = true := by simpa [enabled] using he
    obtain ⟨t, ht⟩ := hasChan_iff.mp hchan
    simp [effect, pollOn_some ht]
  | encGetPosition => simp [effect]
  | encResetPosition => simp [effect]
  | encButtonPressed => simp [effect]
  | evTxComplete => simp [effect]
  | evRxComplete =>
    obtain ⟨c, d, a, f, e, -⟩ := rxComplete_frame s
    simp [effect, e]
  | evTouchEdge c now =>
    obtain ⟨-, hchan⟩ : s.refused = false ∧ s.hasChan c = true := by simpa [enabled] using he
    obtain ⟨t, ht⟩ := hasChan_iff.mp hchan
    simp [effect, edgeOn_some ht]
  | evEncEdge ab => simp [effect]
  | evBtnPress => simp [effect]
  | cbWrite u d => simp [effect]
  | cbRead u => simp [effect]
  | hwTxDone =>
    obtain ⟨-, hsome⟩ : s.refused = false ∧ s.txInflight.isSome = true := by simpa [enabled] using he
    obtain ⟨w, o, q, l, e, hl⟩ := txDone_frame s
    simpa [effect, e] using hl hsome
  | hwRxAccept =>
    obtain ⟨-, -, hwire⟩ : s.refused = false ∧ s.rxArmed = true ∧ s.wireIn ≠ [] := by simpa [enabled] using he
    obtain ⟨x, w, a, q, l, e, hl⟩ := rxAccept_frame s
    simpa [effect, e] using hl hwire
  | hwRxDrop =>
    have hwire : s.wireIn ≠ [] := by
      rintro hnil
      simp [enabled, hnil] at he
    obtain ⟨w, v, l, e, hl⟩ := rxDrop_frame s
    simpa [effect, e] using hl hwire
  | peerSend d => simp [effect]
  | reset ab => simp [effect, resetTo]

/-- Settles O7: an enabled instruction answers its effect, whose label is a step's; any other answers the state with `noStep`. -/
theorem stepsExactlyWhereEnabled : Obligations.StepsExactlyWhereEnabled := by
  intro i s
  cases he : enabled i s with
  | true => exact ⟨effect i s, exec_of_enabled he, by simp [effect_label_ne_noStep he], by simp⟩
  | false => exact ⟨s.noStep, exec_of_not_enabled he, by simp, fun _ => rfl⟩

/-- Settles O55: a disabled instruction writes the label alone, and the effect of each enabled one writes what its operation's frame
names. -/
theorem stateChangesOnlyByItsWriters : Obligations.StateChangesOnlyByItsWriters := by
  intro s t i hexec hreset
  rw [exec_eq_effect] at hexec
  rcases whenEnabled_next hexec with ⟨-, rfl⟩ | ⟨-, rfl⟩
  case inr => simp
  cases i with
  | uartInit =>
    rcases initLink_cases s with ⟨-, e⟩ | ⟨-, e⟩ | ⟨-, -, e⟩ | ⟨-, -, e⟩ <;> simp [effect, e, linkUp, raiseApp_eq, Instr.op]
  | uartPut d =>
    obtain ⟨c, r, e, hhead⟩ := putByte_frame d s
    rcases whenReady_cases .uartPut s (putByte d s) with ew | ⟨f, ew⟩ <;> simp only [effect, ew]
    · simp [e, hhead, Instr.op]
    · simp [Instr.op]
  | uartGet =>
    obtain ⟨c, r, e, hdata, htail⟩ := getByte_frame s
    rcases whenReady_cases .uartGet s (getByte s) with ew | ⟨f, ew⟩ <;> simp only [effect, ew]
    · simp [e, hdata, htail, Instr.op]
    · simp [Instr.op]
  | uartPump =>
    obtain ⟨d, c, o, d', a, e, hdata, htail⟩ := pump_frame s
    rcases whenReady_cases .uartPump s ((pumpRx (pumpTx s)).ret .none) with ew | ⟨f, ew⟩ <;> simp only [effect, ew]
    · simp [e, hdata, htail, Instr.op]
    · simp [Instr.op]
  | frameSend len payload =>
    obtain ⟨c, busy, seq, pos, g, l, e, hhead, -⟩ := sendFrame_frame len payload s
    rcases whenReady_cases .frameSend s (sendFrame len payload s) with ew | ⟨f, ew⟩ <;> simp only [effect, ew]
    · simp [e, hhead, Instr.op]
    · simp [Instr.op]
  | frameStep =>
    obtain ⟨c, busy, seq, pos, d, n, r, e, hhead⟩ := putFrameByte_frame s
    simp [effect, e, hhead, Instr.op]
  | parserStep =>
    obtain ⟨c, p, fs, r, e, hdata, htail⟩ := parseNext_frame s
    rcases whenReady_cases .parserStep s (parseNext s) with ew | ⟨f, ew⟩ <;> simp only [effect, ew]
    · simp [e, hdata, htail, Instr.op]
    · simp [Instr.op]
  | touchIsTouched c =>
    obtain ⟨u, l, e, hlen⟩ := pollOn_frame c s
    obtain ⟨hkept, hother⟩ := pollOn_touch c s
    rw [e] at hkept hother
    simpa [effect, e, hlen, hkept, Instr.op] using index_eq_of_map_ne Touch.touched hother
  | encGetPosition => simp [effect]
  | encResetPosition => simp [effect, Instr.op]
  | encButtonPressed => simp [effect, Instr.op]
  | evTxComplete =>
    obtain ⟨d, c, o, e, hdata, htail⟩ := txComplete_frame s
    simp [effect, e, hdata, htail, Instr.op]
  | evRxComplete =>
    obtain ⟨c, d, a, f, e, hhead⟩ := rxComplete_frame s
    simp [effect, e, hhead, Instr.op]
  | evTouchEdge c now =>
    obtain ⟨u, l, e, hlen⟩ := edgeOn_frame c now s
    obtain ⟨hkept, hother⟩ := edgeOn_touch c now s
    rw [e] at hkept hother
    simpa [effect, e, hlen, hkept, Instr.op] using index_eq_of_map_ne (fun x : Touch => { x with touched := false }) hother
  | evEncEdge ab => simp [effect, Instr.op]
  | evBtnPress => simp [effect, Instr.op]
  | cbWrite u d => simp [effect, Instr.op]
  | cbRead u => simp [effect, Instr.op]
  | hwTxDone =>
    obtain ⟨w, o, q, l, e, -⟩ := txDone_frame s
    simp [effect, e, Instr.op]
  | hwRxAccept =>
    obtain ⟨x, w, a, q, l, e, -⟩ := rxAccept_frame s
    simp [effect, e, Instr.op]
  | hwRxDrop =>
    obtain ⟨w, v, l, e, -⟩ := rxDrop_frame s
    simp [effect, e, Instr.op]
  | peerSend d => simp [effect, Instr.op]
  | reset ab => exact absurd rfl hreset

end Sys2Proof.Machine

/-! PROOF. The byte paths keep their order (20_memory.md R61, R63). Each operation that writes a field of a path is a lemma here, through what
Laws/ says the operation can do; that no other instruction touches a path is read off the writers of each field (O55). -/
namespace Sys2Proof.Machine
open Sys2Proof.Safety

variable {s : State}

/-! ### Instructions that leave a path alone -/

/-- The instructions that write `tx`, the byte in flight or `wire_out`. -/
def txPathWriters : List Op := [.reset, .uartInit, .uartPut, .uartPump, .frameSend, .frameStep, .evTxComplete, .hwTxDone]

/-- The instructions that write `rx`, `rx_irq`, `rx_data` or `wire_in`. -/
def rxPathWriters : List Op := [.reset, .uartInit, .uartGet, .parserStep, .evRxComplete, .hwRxAccept, .hwRxDrop, .peerSend]

theorem cb_eq_of_fields {b c : Cb} (hdata : c.data = b.data) (hhead : c.head = b.head) (htail : c.tail = b.tail)
    (hfull : c.full = b.full) (hempty : c.empty = b.empty) : c = b := by
  cases b
  cases c
  simp_all

theorem txPath_eq_of_not_writer {t : State} {i : Instr} (he : exec i s = .next t) (hi : i.op ∉ txPathWriters) :
    txPath t = txPath s := by
  simp only [txPathWriters, List.mem_cons, List.not_mem_nil, or_false, not_or] at hi
  obtain ⟨hreset, hinit, hput, hpump, hsend, hstep, hcomplete, hdone⟩ := hi
  obtain ⟨-, hlink, -, hout, -, -, -, -, -, -, -, -, -, -, -, -, hcfg, -⟩ := stateChangesOnlyByItsWriters s t i he hreset
  obtain ⟨hcontents, hhead, hflags, -, -, -, -, -, hinflight, -⟩ := hlink hinit
  have htx : t.tx = s.tx := by
    apply cb_eq_of_fields <;> by_contra hne <;> simp_all
  have hfl : t.txInflight = s.txInflight := by
    by_contra hne
    simp_all
  have hwire : t.wireOut = s.wireOut := by
    by_contra hne
    exact hdone (hout hne)
  simp only [txPath, htx, hfl, hwire, hcfg]

theorem rxPath_eq_of_not_writer {t : State} {i : Instr} (he : exec i s = .next t) (hi : i.op ∉ rxPathWriters) :
    rxPath t = rxPath s := by
  simp only [rxPathWriters, List.mem_cons, List.not_mem_nil, or_false, not_or] at hi
  obtain ⟨hreset, hinit, hget, hparse, hcomplete, haccept, hdrop, hpeer⟩ := hi
  obtain ⟨-, hlink, hlatch, -, hin, -, -, -, -, -, -, -, -, -, -, -, hcfg, -⟩ := stateChangesOnlyByItsWriters s t i he hreset
  obtain ⟨-, -, -, hcontents, hhead, hflags, -, -, -, -, hirq, -⟩ := hlink hinit
  have hrx : t.rx = s.rx := by
    apply cb_eq_of_fields <;> by_contra hne <;> simp_all
  have hpending : t.rxIrq = s.rxIrq := by
    by_contra hne
    simp_all
  have hdata : t.rxData = s.rxData := by
    by_contra hne
    exact haccept (hlatch hne)
  have hwire : t.wireIn = s.wireIn := by
    by_contra hne
    simp_all
  simp only [rxPath, hrx, hpending, hdata, hwire, hcfg]

/-- R132: no other instruction records a lost byte. -/
theorem wireLost_eq_of_not_drop {t : State} {i : Instr} (he : exec i s = .next t) (hreset : i.op ≠ .reset) (hi : i.op ≠ .hwRxDrop) :
    t.wireLost = s.wireLost := by
  obtain ⟨-, -, -, -, -, hlost, -⟩ := stateChangesOnlyByItsWriters s t i he hreset
  by_contra hne
  exact hi (hlost hne)

/-! ### The link at rest -/

/-- R42: with TX yielded nothing is in flight. -/
theorem txInflight_none_of_yielded (h : Inv s) (hy : s.txState = .yielded) : s.txInflight = none := by
  obtain ⟨htx, -⟩ := transportInv_of_inv h
  by_contra hsome
  exact absurd (htx.mpr (.inl (Option.isSome_iff_ne_none.mpr hsome))) (by simp [hy])

/-- R42: with TX-complete pending nothing is in flight. -/
theorem txInflight_none_of_txIrq (h : Inv s) (hirq : s.txIrq = true) : s.txInflight = none := by
  obtain ⟨-, hone, -⟩ := transportInv_of_inv h
  by_contra hsome
  exact hone ⟨Option.isSome_iff_ne_none.mpr hsome, hirq⟩

/-- R121, R126: before the link is initialised nothing is queued or in flight towards the wire. -/
theorem tx_idle_of_not_ready (h : Inv s) (hn : s.initState ≠ .ready) : s.txInflight = none ∧ s.tx.unread s.cfg.cap = [] := by
  obtain ⟨-, -, -, -, -, hidle, -⟩ := transportInv_of_inv h
  obtain ⟨hy, -, he, -⟩ := hidle hn
  exact ⟨txInflight_none_of_yielded h hy, (unread_eq_nil_iff (bufferInv_tx h)).mpr he⟩

/-- R121, R126: nor is anything latched or queued on the receive side. -/
theorem rx_idle_of_not_ready (h : Inv s) (hn : s.initState ≠ .ready) : s.rxIrq = false ∧ s.rx.unread s.cfg.cap = [] := by
  obtain ⟨-, -, hrx, -, -, hidle, -⟩ := transportInv_of_inv h
  obtain ⟨-, hy, -, he⟩ := hidle hn
  refine ⟨?_, (unread_eq_nil_iff (bufferInv_rx h)).mpr he⟩
  by_contra hirq
  exact absurd (hrx.mpr (.inr (by simpa using hirq))) (by simp [hy])

/-! ### The transmit path -/

/-- R120: the buffer that a successful initialisation clears was empty. -/
theorem initLink_txPath (h : Inv s) : txPath (initLink s) = txPath s := by
  rcases initLink_cases s with ⟨-, e⟩ | ⟨-, e⟩ | ⟨hu, -, e⟩ | ⟨-, -, e⟩ <;> rw [e]
  case inr.inr.inl =>
    obtain ⟨hnone, hunread⟩ := tx_idle_of_not_ready h (by simp [hu])
    simp [txPath, linkUp, hnone, hunread, cbClear_unread (bufferInv_tx h)]
  all_goals rfl

/-- R121: a byte that is taken goes to the end of the path. -/
theorem putByte_txPath (h : Inv s) (d : Byte) : ∃ added, txPath (putByte d s) = txPath s ++ added := by
  rcases putByte_cases d (bufferInv_tx h) with ⟨-, e⟩ | ⟨-, c, e, -, hu, -⟩ <;> rw [e]
  · exact ⟨[], (List.append_nil _).symm⟩
  · exact ⟨[d], by simp [txPath, hu]⟩

/-- R123: the oldest byte of `tx` moves to the hardware, which held none. -/
theorem pumpTx_txPath (h : Inv s) : txPath (pumpTx s) = txPath s := by
  rcases pumpTx_cases (bufferInv_tx h) with ⟨hy, -, x, c, e, -, hu, -⟩ | ⟨-, e⟩ <;> rw [e]
  simp [txPath, hu, txInflight_none_of_yielded h hy]

theorem pumpRx_txPath (s : State) : txPath (pumpRx s) = txPath s := by
  obtain ⟨d, a, e⟩ := pumpRx_frame s
  rw [e]
  rfl

/-- R154: a frame that is taken goes to the end of the path. -/
theorem sendFrame_txPath (h : Inv s) (len : Byte) (payload : List Byte) :
    ∃ added, txPath (sendFrame len payload s) = txPath s ++ added := by
  rcases sendFrame_cases len payload (bufferInv_tx h) with
    ⟨-, e⟩ | ⟨-, -, -, e⟩ | ⟨-, -, -, c, -, e, -, hu, -⟩ | ⟨-, -, e⟩ <;> rw [e]
  case inr.inr.inl => exact ⟨frame s.cfg payload, by simp [txPath, hu]⟩
  all_goals exact ⟨[], (List.append_nil _).symm⟩

/-- R156: likewise the byte of a frame that is taken. -/
theorem putFrameByte_txPath (h : Inv s) : ∃ added, txPath (putFrameByte s) = txPath s ++ added := by
  rcases putFrameByte_cases (bufferInv_tx h) with ⟨-, c, -, hu, -, -, -, ⟨-, e⟩ | ⟨-, e⟩⟩ | ⟨-, ⟨-, e⟩ | ⟨-, -, e⟩⟩ <;> rw [e]
  · exact ⟨[frameByte s], by simp [txPath, hu]⟩
  · exact ⟨[frameByte s], by simp [txPath, hu]⟩
  · exact ⟨[], (List.append_nil _).symm⟩
  · exact ⟨[], (List.append_nil _).symm⟩

/-- R125: the next byte is chained where the last one has left the hardware. -/
theorem txComplete_txPath (h : Inv s) (hirq : s.txIrq = true) : txPath (txComplete s) = txPath s := by
  rcases txComplete_cases (bufferInv_tx h) with ⟨-, e⟩ | ⟨-, x, c, e, -, hu, -⟩ <;> rw [e]
  · rfl
  · simp [txPath, hu, txInflight_none_of_txIrq h hirq]

/-- R130: the byte in flight goes to the end of `wire_out`. -/
theorem txDone_txPath (s : State) : txPath (txDone s) = txPath s := by
  cases hi : s.txInflight with
  | none => simp only [txDone, hi]; rfl
  | some b => simp [txDone, txPath, hi]

/-- What O27 says of the state `t` after the instruction `i` in `s`. -/
def TxPathGrows (i : Instr) (s t : State) : Prop :=
  ∃ added : List Byte, txPath t = txPath s ++ added
    ∧ (added ≠ [] → i.op = .uartPut ∨ i.op = .frameSend ∨ i.op = .frameStep)

theorem TxPathGrows.of_eq {i : Instr} {t : State} (e : txPath t = txPath s) : TxPathGrows i s t := ⟨[], by simp [e], by simp⟩

theorem TxPathGrows.of_put {i : Instr} {t : State} (hi : i.op = .uartPut ∨ i.op = .frameSend ∨ i.op = .frameStep)
    (h : ∃ added, txPath t = txPath s ++ added) : TxPathGrows i s t := by
  obtain ⟨added, e⟩ := h
  exact ⟨added, e, fun _ => hi⟩

/-- Settles O27: an instruction that writes a field of the transmit path moves bytes along it or, if it is a put, adds them at its end. -/
theorem transmitPathKeepsOrder : Obligations.TransmitPathKeepsOrder := by
  intro s t i h he hreset
  by_cases hw : i.op ∈ txPathWriters
  case neg => exact TxPathGrows.of_eq (txPath_eq_of_not_writer he hw)
  refine exec_elim (P := TxPathGrows i s) he (fun l => .of_eq rfl) fun hen => ?_
  cases i with
  | uartInit => exact .of_eq (initLink_txPath h)
  | uartPut d => exact whenReady_elim (fun _ => .of_eq rfl) fun _ => .of_put (.inl rfl) (putByte_txPath h d)
  | uartPump =>
    exact whenReady_elim (fun _ => .of_eq rfl) fun _ => .of_eq ((pumpRx_txPath (pumpTx s)).trans (pumpTx_txPath h))
  | frameSend len payload =>
    exact whenReady_elim (fun _ => .of_eq rfl) fun _ => .of_put (.inr (.inl rfl)) (sendFrame_txPath h len payload)
  | frameStep => exact .of_put (.inr (.inr rfl)) (putFrameByte_txPath h)
  | evTxComplete =>
    obtain ⟨-, -, hirq⟩ : s.refused = false ∧ s.irqEnTx = true ∧ s.txIrq = true := by simpa [enabled] using hen
    exact .of_eq (txComplete_txPath h hirq)
  | hwTxDone => exact .of_eq (txDone_txPath s)
  | reset ab => exact absurd rfl hreset
  | _ => simp [Instr.op, txPathWriters] at hw

/-! ### The receive path -/

/-- R120: the buffer that a successful initialisation clears was empty, and no byte was latched. -/
theorem initLink_rxPath (h : Inv s) : rxPath (initLink s) = rxPath s := by
  rcases initLink_cases s with ⟨-, e⟩ | ⟨-, e⟩ | ⟨hu, -, e⟩ | ⟨-, -, e⟩ <;> rw [e]
  case inr.inr.inl =>
    obtain ⟨hirq, hunread⟩ := rx_idle_of_not_ready h (by simp [hu])
    simp [rxPath, linkUp, hirq, hunread, cbClear_unread (bufferInv_rx h)]
  all_goals rfl

/-- R122: at most the oldest byte leaves the path. -/
theorem getByte_rxPath (h : Inv s) : ∃ taken, rxPath s = taken ++ rxPath (getByte s) ∧ taken.length ≤ 1 := by
  rcases getByte_cases (bufferInv_rx h) with ⟨-, e⟩ | ⟨-, x, c, e, -, hu, -⟩ <;> rw [e]
  · exact ⟨[], rfl, Nat.zero_le _⟩
  · exact ⟨[x], by simp [rxPath, hu], le_refl _⟩

/-- R171: likewise, whether or not the byte completes a frame. -/
theorem parseNext_rxPath (h : Inv s) : ∃ taken, rxPath s = taken ++ rxPath (parseNext s) ∧ taken.length ≤ 1 := by
  rcases parseNext_cases (bufferInv_rx h) with ⟨-, e⟩ | ⟨-, x, c, -, hu, -, -, -, ⟨p, -, e⟩ | ⟨-, e⟩⟩ <;> rw [e]
  · exact ⟨[], rfl, Nat.zero_le _⟩
  · exact ⟨[x], by simp [rxPath, hu], le_refl _⟩
  · exact ⟨[x], by simp [rxPath, hu], le_refl _⟩

/-- R126, R128: the latched byte goes to the end of `rx`, which has room while RX is active. -/
theorem rxComplete_rxPath (h : Inv s) (hirq : s.rxIrq = true) : rxPath (rxComplete s) = rxPath s := by
  rcases rxComplete_cases (bufferInv_rx h) with ⟨-, c, -, hu, -, -, -, ⟨-, e⟩ | ⟨-, e⟩⟩ | ⟨hfull, -⟩
  · simp [e, rxPath, hu, hirq]
  · simp [e, rxPath, hu, hirq]
  · obtain ⟨-, -, hrx, -, hroom, -⟩ := transportInv_of_inv h
    exact absurd (hroom (hrx.mpr (.inr hirq))) (by simp [hfull])

/-- R131: the peer's oldest byte is latched where none was. -/
theorem rxAccept_rxPath (h : Inv s) (harmed : s.rxArmed = true) : rxPath (rxAccept s) = rxPath s := by
  obtain ⟨-, -, -, hone, -⟩ := transportInv_of_inv h
  have hirq : s.rxIrq = false := by simpa [harmed] using hone
  cases hw : s.wireIn with
  | nil => simp only [rxAccept, hw]; rfl
  | cons b rest => simp [rxAccept, rxPath, hw, hirq]

/-- R133: the peer's new byte goes to the end of the path. -/
theorem peerSend_rxPath (s : State) (d : Byte) : rxPath s ++ [d] = rxPath { s with wireIn := s.wireIn ++ [d] }.silent :=
  List.append_assoc _ _ _

/-- R132: the peer's oldest byte, if there is one, moves to `wire_lost`. -/
theorem rxDrop_moves (s : State) :
    ∃ lost, s.wireIn = lost ++ (rxDrop s).wireIn ∧ (rxDrop s).wireLost = s.wireLost ++ lost ∧ lost.length ≤ 1 := by
  cases hw : s.wireIn with
  | nil => exact ⟨[], by simp [rxDrop, hw]⟩
  | cons b rest => exact ⟨[b], by simp [rxDrop, hw]⟩

/-- The part of the statement about HW_RX_DROP: enabled or not, it writes the peer's bytes and the lost ones alone. -/
theorem exec_hwRxDrop_moves {t : State} (he : exec .hwRxDrop s = .next t) :
    t.rx = s.rx ∧ t.rxIrq = s.rxIrq ∧ t.rxData = s.rxData
      ∧ ∃ lost : List Byte, s.wireIn = lost ++ t.wireIn ∧ t.wireLost = s.wireLost ++ lost ∧ lost.length ≤ 1 := by
  rw [exec_eq_effect] at he
  rcases whenEnabled_next he with ⟨-, rfl⟩ | ⟨-, rfl⟩
  · obtain ⟨w, v, l, e, -⟩ := rxDrop_frame s
    refine ⟨?_, ?_, ?_, rxDrop_moves s⟩ <;> simp only [effect, e]
  · exact ⟨rfl, rfl, rfl, [], rfl, (List.append_nil _).symm, Nat.zero_le _⟩

/-- What O28 says of the receive path of the state `t` after the instruction `i` in `s`, HW_RX_DROP apart. -/
def RxPathMoves (i : Instr) (s t : State) : Prop :=
  ∃ taken added : List Byte, rxPath s ++ added = taken ++ rxPath t
    ∧ taken.length ≤ 1 ∧ (taken ≠ [] → i.op = .uartGet ∨ i.op = .parserStep)
    ∧ (added ≠ [] → ∃ d, i = .peerSend d ∧ added = [d])

theorem RxPathMoves.of_eq {i : Instr} {t : State} (e : rxPath t = rxPath s) : RxPathMoves i s t :=
  ⟨[], [], by simp [e], Nat.zero_le _, by simp, by simp⟩

theorem RxPathMoves.of_take {i : Instr} {t : State} (hi : i.op = .uartGet ∨ i.op = .parserStep)
    (h : ∃ taken, rxPath s = taken ++ rxPath t ∧ taken.length ≤ 1) : RxPathMoves i s t := by
  obtain ⟨taken, e, hlen⟩ := h
  exact ⟨taken, [], by simpa using e, hlen, fun _ => hi, by simp⟩

/-- Settles O28: an instruction that writes a field of the receive path moves a byte along it, takes the oldest one (UART_GET, PARSER_STEP)
or adds the peer's (PEER_SEND). -/
theorem receivePathKeepsOrder : Obligations.ReceivePathKeepsOrder := by
  intro s t i h he hreset
  refine ⟨fun hdrop => ⟨wireLost_eq_of_not_drop he hreset hdrop, ?_⟩, fun hdrop => ?_⟩
  case refine_2 =>
    cases i with
    | hwRxDrop => exact exec_hwRxDrop_moves he
    | _ => simp [Instr.op] at hdrop
  by_cases hw : i.op ∈ rxPathWriters
  case neg => exact RxPathMoves.of_eq (rxPath_eq_of_not_writer he hw)
  refine exec_elim (P := RxPathMoves i s) he (fun l => .of_eq rfl) fun hen => ?_
  cases i with
  | uartInit => exact .of_eq (initLink_rxPath h)
  | uartGet => exact whenReady_elim (fun _ => .of_eq rfl) fun _ => .of_take (.inl rfl) (getByte_rxPath h)
  | parserStep => exact whenReady_elim (fun _ => .of_eq rfl) fun _ => .of_take (.inr rfl) (parseNext_rxPath h)
  | evRxComplete =>
    obtain ⟨-, -, hirq⟩ : s.refused = false ∧ s.irqEnRx = true ∧ s.rxIrq = true := by simpa [enabled] using hen
    exact .of_eq (rxComplete_rxPath h hirq)
  | hwRxAccept =>
    obtain ⟨-, harmed, -⟩ : s.refused = false ∧ s.rxArmed = true ∧ s.wireIn ≠ [] := by simpa [enabled] using hen
    exact .of_eq (rxAccept_rxPath h harmed)
  | hwRxDrop => exact absurd rfl hdrop
  | peerSend d => exact ⟨[], [d], peerSend_rxPath s d, Nat.zero_le _, by simp, fun _ => ⟨d, rfl, rfl⟩⟩
  | reset ab => exact absurd rfl hreset
  | _ => simp [Instr.op, rxPathWriters] at hw

end Sys2Proof.Machine

/-! PROOF. Storage that no rule reads before it is written is invisible (20_memory.md R57). The relation `SameReadable` is split into one relation
per kind of storage; each operation on that storage answers the same from related arguments and relates what it leaves. -/
namespace Sys2Proof.Safety
open Sys2Proof.Machine

/-! ### The buffers -/

/-- Two buffers that differ at most in slots that hold no unread byte. -/
def SameBuffer (cap : Nat) (b c : Cb) : Prop := c = { b with data := c.data } ∧ c.unread cap = b.unread cap

section Buffers
variable {cap : Nat} {b c : Cb}

theorem SameBuffer.full_eq (h : SameBuffer cap b c) : c.full = b.full := by rw [h.1]

theorem SameBuffer.empty_eq (h : SameBuffer cap b c) : c.empty = b.empty := by rw [h.1]

theorem SameBuffer.free_eq (h : SameBuffer cap b c) : c.free cap = b.free cap := by
  rw [h.1]
  rfl

/-- R102: a clear leaves no unread byte, whatever the buffers held. -/
theorem sameBuffer_clear (hb : BufferInv cap b) (hc : BufferInv cap c) :
    SameBuffer cap (cbClear b) (cbClear c) :=
  ⟨rfl, (cbClear_unread hc).trans (cbClear_unread hb).symm⟩

/-- R100: a write reads the flags and indices alone, and puts its byte after the unread ones. -/
theorem SameBuffer.write (h : SameBuffer cap b c) (hb : BufferInv cap b) (hc : BufferInv cap c) (d : Byte) :
    SameBuffer cap (cbWrite cap b d).2 (cbWrite cap c d).2 := by
  have hfull := h.full_eq
  obtain ⟨hfields, hunread⟩ := h
  refine ⟨?_, by rw [cbWrite_unread hc, cbWrite_unread hb, hfull, hunread]⟩
  cases hf : b.full
  · rw [cbWrite_ok cap d hf, cbWrite_ok cap d (hfull.trans hf), hfields]
  · rw [cbWrite_full cap d hf, cbWrite_full cap d (hfull.trans hf)]
    exact hfields

theorem SameBuffer.write_taken (h : SameBuffer cap b c) (d : Byte) : (cbWrite cap c d).1 = (cbWrite cap b d).1 := by
  rw [cbWrite_fst, cbWrite_fst, h.full_eq]

theorem SameBuffer.writeAll (l : List Byte) (h : SameBuffer cap b c) (hb : BufferInv cap b) (hc : BufferInv cap c) :
    SameBuffer cap (cbWriteAll cap b l) (cbWriteAll cap c l) := by
  induction l generalizing b c with
  | nil => exact h
  | cons x l ih => exact ih (h.write hb hc x) (cbWrite_inv hb x) (cbWrite_inv hc x)

/-- A read answers the oldest unread byte, so the same from both. -/
theorem SameBuffer.read (h : SameBuffer cap b c) (hb : BufferInv cap b) (hc : BufferInv cap c) :
    (cbRead cap c).1 = (cbRead cap b).1 ∧ SameBuffer cap (cbRead cap b).2 (cbRead cap c).2 := by
  have he := h.empty_eq
  obtain ⟨hfields, hunread⟩ := h
  cases hbe : b.empty
  · have hce : c.empty = false := he.trans hbe
    obtain ⟨x, b', eb, -, hub, -⟩ := cbRead_cases hb hbe
    obtain ⟨y, c', ec, -, huc, -⟩ := cbRead_cases hc hce
    obtain ⟨hxy, hrest⟩ : y = x ∧ c'.unread cap = b'.unread cap := by
      rw [hub, huc] at hunread
      simpa using hunread
    refine ⟨by rw [eb, ec, hxy], ?_, by rw [eb, ec, hrest]⟩
    rw [cbRead_ok cap hbe, cbRead_ok cap hce, hfields]
  · rw [cbRead_empty cap hbe, cbRead_empty cap (he.trans hbe)]
    exact ⟨rfl, hfields, hunread⟩

end Buffers

/-! ### The parser -/

/-- Two parsers that differ at most in buffer bytes from `ps_cnt` on. -/
def SameParser (p q : Parser) : Prop := q = { p with buf := q.buf } ∧ q.buf.take q.cnt = p.buf.take p.cnt

section Parsers
variable {p q : Parser}

/-- Lists that agree up to a bound have the same elements below it. -/
theorem getD_of_take_eq {α : Type} {l m : List α} {n i : Nat} (h : m.take n = l.take n) (hi : i < n) (d : α) :
    m.getD i d = l.getD i d := by
  rw [List.getD_eq_getElem?_getD, List.getD_eq_getElem?_getD, ← List.getElem?_take_of_lt hi, h, List.getElem?_take_of_lt hi]

/-- R171: the payload is read once all its bytes have been collected. -/
theorem SameParser.payload_eq (h : SameParser p q) (hcnt : p.cnt = p.len.toNat) : q.payload = p.payload := by
  obtain ⟨hfields, htake⟩ := h
  have hlen : q.len = p.len := by rw [hfields]
  have hqcnt : q.cnt = p.len.toNat := by rw [hfields, hcnt]
  rw [hqcnt, hcnt] at htake
  simp only [Parser.payload, hlen]
  exact List.map_congr_left fun i hi => getD_of_take_eq htake (List.mem_range.mp hi) _

/-- R171: storing the next byte extends what both have collected. -/
theorem take_set_succ_eq {l m : List Byte} {n : Nat} (h : m.take n = l.take n) (hl : n < l.length) (hm : n < m.length) (x : Byte) :
    (m.set n x).take (n + 1) = (l.set n x).take (n + 1) := by
  have hstored : ∀ {k : List Byte}, n < k.length → (k.set n x).take (n + 1) = k.take n ++ [x] := by
    intro k hk
    rw [List.take_succ_eq_append_getElem (by simpa using hk), List.take_set_of_le (le_refl _), List.getElem_set_self]
  rw [hstored hl, hstored hm, h]

/-- R171: of its buffer the parser reads what it has collected, and that once it is complete. -/
theorem SameParser.parse (h : SameParser p q) (hp : ParserInv p) (hq : ParserInv q) (k : Cfg) (x : Byte) :
    (parseByte k q x).2 = (parseByte k p x).2 ∧ SameParser (parseByte k p x).1 (parseByte k q x).1 := by
  have hpayload := h.payload_eq
  obtain ⟨_, _, _, _, buf⟩ := p
  obtain ⟨state, len, cnt, acc, buf'⟩ := q
  obtain ⟨hfields, htake⟩ := h
  obtain ⟨rfl, rfl, rfl, rfl, -⟩ := Parser.mk.inj hfields
  obtain ⟨hpl, -, hlt, hdone, -⟩ := hp
  obtain ⟨hql, -⟩ := hq
  cases state with
  | awaitHead =>
    by_cases hx : x = k.headByte
    · simp only [parseByte, if_pos hx]
      exact ⟨trivial, rfl, htake⟩
    · simp only [parseByte, if_neg hx]
      exact ⟨trivial, rfl, htake⟩
  | awaitLength => exact ⟨rfl, rfl, rfl⟩
  | awaitPayload =>
    have hroom : cnt < maxPayload := by
      have hcnt : cnt < len.toNat := hlt rfl
      have := len.isLt
      unfold maxPayload
      omega
    exact ⟨rfl, rfl, take_set_succ_eq htake (hroom.trans_eq hpl.symm) (hroom.trans_eq hql.symm) x⟩
  | awaitTail | awaitChecksum | awaitCr => exact ⟨rfl, rfl, htake⟩
  | awaitLf =>
    have hcnt : cnt = len.toNat := hdone (by simp)
    exact ⟨by simp only [parseByte, hpayload hcnt], rfl, htake⟩

end Parsers

/-! ### The touch channels -/

theorem SameChannel.refl (t : Touch) : SameChannel t t := ⟨rfl, fun _ => rfl⟩

/-- R190: the first edge does not read `prev_ts`, and after it there is nothing left to differ in. -/
theorem SameChannel.edge_eq {t u : Touch} (h : SameChannel t u) (k : Cfg) (now : Nat) : touchEdge k u now = touchEdge k t now := by
  obtain ⟨hfields, hprev⟩ := h
  by_cases hf : t.first = true
  · rw [hfields]
    simp [touchEdge, hf]
  · have hsame : u = t := by rw [hfields, hprev (by simpa using hf)]
    rw [hsame]

/-- R191: a poll does not read `prev_ts`. -/
theorem SameChannel.poll {t u : Touch} (h : SameChannel t u) (k : Cfg) (c : Channel) :
    (touchPoll k c u).touched = (touchPoll k c t).touched ∧ SameChannel (touchPoll k c t) (touchPoll k c u) := by
  obtain ⟨hfields, hprev⟩ := h
  refine ⟨by rw [hfields]; rfl, by rw [hfields]; rfl, hprev⟩

theorem forall₂_getElem? {α β : Type} {R : α → β → Prop} {l : List α} {m : List β} (h : List.Forall₂ R l m) (i : Nat) :
    (l[i]? = none ∧ m[i]? = none) ∨ ∃ a b, l[i]? = some a ∧ m[i]? = some b ∧ R a b := by
  induction h generalizing i with
  | nil => exact .inl ⟨rfl, rfl⟩
  | cons hab _ ih =>
    cases i with
    | zero => exact .inr ⟨_, _, rfl, rfl, hab⟩
    | succ i => simpa using ih i

theorem forall₂_set {α β : Type} {R : α → β → Prop} {l : List α} {m : List β} (h : List.Forall₂ R l m) (i : Nat) {a : α} {b : β}
    (hab : R a b) : List.Forall₂ R (l.set i a) (m.set i b) := by
  induction h generalizing i with
  | nil => exact .nil
  | cons hcd hrest ih =>
    cases i with
    | zero => exact .cons hab hrest
    | succ i => exact .cons hcd (ih i)

/-! ### The states -/

variable {s t : State}

/-- R57 by the kinds of storage: `t` is `s` but for its storage, and each kind is related. -/
theorem sameReadable_iff : SameReadable s t ↔ ∃ (tx rx : Cb) (ps : Parser) (x : Byte) (touch : List Touch),
    t = { s with tx := tx, rx := rx, ps := ps, rxData := x, touch := touch }
      ∧ SameBuffer s.cfg.cap s.tx tx ∧ SameBuffer s.cfg.cap s.rx rx ∧ SameParser s.ps ps
      ∧ (s.rxIrq = true → x = s.rxData) ∧ List.Forall₂ SameChannel s.touch touch := by
  constructor
  · rintro ⟨hfields, htx, hrx, hps, hx, htouch⟩
    have hcfg : t.cfg = s.cfg := by rw [hfields]
    rw [hcfg] at htx hrx
    exact ⟨t.tx, t.rx, t.ps, t.rxData, t.touch, by rw [hfields], ⟨by rw [hfields], htx⟩,
      ⟨by rw [hfields], hrx⟩, ⟨by rw [hfields], hps⟩, hx, htouch⟩
  · rintro ⟨tx, rx, ps, x, touch, rfl, ⟨etx, htx⟩, ⟨erx, hrx⟩, ⟨eps, hps⟩, hx, htouch⟩
    exact ⟨by rw [← etx, ← erx, ← eps], htx, hrx, hps, hx, htouch⟩

theorem SameReadable.refl (s : State) : SameReadable s s :=
  ⟨rfl, rfl, rfl, rfl, fun _ => rfl, List.forall₂_same.mpr fun t _ => SameChannel.refl t⟩

theorem SameReadable.of_eq (h : t = s) : SameReadable s t := by
  rw [h]
  exact .refl s

theorem SameReadable.cfg_eq (h : SameReadable s t) : t.cfg = s.cfg := by rw [h.1]

theorem SameReadable.tx_same (h : SameReadable s t) : SameBuffer s.cfg.cap s.tx t.tx := by
  obtain ⟨_, _, _, _, _, rfl, htx, -⟩ := sameReadable_iff.mp h
  exact htx

theorem SameReadable.rx_same (h : SameReadable s t) : SameBuffer s.cfg.cap s.rx t.rx := by
  obtain ⟨_, _, _, _, _, rfl, -, hrx, -⟩ := sameReadable_iff.mp h
  exact hrx

theorem SameReadable.tx_inv (h : SameReadable s t) (ht : Inv t) : BufferInv s.cfg.cap t.tx :=
  h.cfg_eq ▸ bufferInv_tx ht

theorem SameReadable.rx_inv (h : SameReadable s t) (ht : Inv t) : BufferInv s.cfg.cap t.rx :=
  h.cfg_eq ▸ bufferInv_rx ht

/-- A channel of one state is a channel of the other. -/
theorem SameReadable.chan_cases (h : SameReadable s t) (c : Channel) :
    (s.chan c = none ∧ t.chan c = none) ∨ ∃ a b, s.chan c = some a ∧ t.chan c = some b ∧ SameChannel a b := by
  obtain ⟨-, -, -, -, -, htouch⟩ := h
  exact forall₂_getElem? htouch c.index

/-! ### Updates -/

theorem SameReadable.setTx (h : SameReadable s t) {b c : Cb} (hb : SameBuffer s.cfg.cap b c) :
    SameReadable { s with tx := b } { t with tx := c } := by
  obtain ⟨tx, rx, ps, x, touch, rfl, -, hrx, hps, hx, htouch⟩ := sameReadable_iff.mp h
  exact sameReadable_iff.mpr ⟨c, rx, ps, x, touch, rfl, hb, hrx, hps, hx, htouch⟩

theorem SameReadable.setRx (h : SameReadable s t) {b c : Cb} (hb : SameBuffer s.cfg.cap b c) :
    SameReadable { s with rx := b } { t with rx := c } := by
  obtain ⟨tx, rx, ps, x, touch, rfl, htx, -, hps, hx, htouch⟩ := sameReadable_iff.mp h
  exact sameReadable_iff.mpr ⟨tx, c, ps, x, touch, rfl, htx, hb, hps, hx, htouch⟩

theorem SameReadable.setParser (h : SameReadable s t) {p q : Parser} (hp : SameParser p q) :
    SameReadable { s with ps := p } { t with ps := q } := by
  obtain ⟨tx, rx, ps, x, touch, rfl, htx, hrx, -, hx, htouch⟩ := sameReadable_iff.mp h
  exact sameReadable_iff.mpr ⟨tx, rx, q, x, touch, rfl, htx, hrx, hp, hx, htouch⟩

/-- R131: the hardware latches a byte and makes its interrupt pending. -/
theorem SameReadable.latch (h : SameReadable s t) (b : Byte) :
    SameReadable { s with rxData := b, rxIrq := true } { t with rxData := b, rxIrq := true } := by
  obtain ⟨tx, rx, ps, x, touch, rfl, htx, hrx, hps, -, htouch⟩ := sameReadable_iff.mp h
  exact sameReadable_iff.mpr ⟨tx, rx, ps, b, touch, rfl, htx, hrx, hps, fun _ => rfl, htouch⟩

theorem SameReadable.setChan (h : SameReadable s t) (c : Channel) {a b : Touch} (hab : SameChannel a b) :
    SameReadable (s.setChan c a) (t.setChan c b) := by
  obtain ⟨tx, rx, ps, x, touch, rfl, htx, hrx, hps, hx, htouch⟩ := sameReadable_iff.mp h
  exact sameReadable_iff.mpr ⟨tx, rx, ps, x, _, rfl, htx, hrx, hps, hx, forall₂_set htouch c.index hab⟩

/-- An update of other fields that is computed from other fields: it commutes with a change of the storage (`hf`), leaves what
`SameReadable` speaks of (`hs`), and makes no receive interrupt pending (`hirq`). -/
theorem SameReadable.update (h : SameReadable s t) (f : State → State)
    (hf : ∀ tx rx ps x touch, f { s with tx := tx, rx := rx, ps := ps, rxData := x, touch := touch }
      = { f s with tx := tx, rx := rx, ps := ps, rxData := x, touch := touch } := by intros; rfl)
    (hs : f s = { f s with cfg := s.cfg, tx := s.tx, rx := s.rx, ps := s.ps, rxData := s.rxData, touch := s.touch } := by rfl)
    (hirq : (f s).rxIrq = true → s.rxIrq = true := by exact id) : SameReadable (f s) (f t) := by
  obtain ⟨tx, rx, ps, x, touch, rfl, htx, hrx, hps, hx, htouch⟩ := sameReadable_iff.mp h
  refine sameReadable_iff.mpr ⟨tx, rx, ps, x, touch, hf _ _ _ _ _, ?_⟩
  rw [hs]
  exact ⟨htx, hrx, hps, fun hpending => hx (hirq hpending), htouch⟩

theorem SameReadable.setLabel (h : SameReadable s t) (l : Label) : SameReadable (s.setLabel l) (t.setLabel l) :=
  h.update (·.setLabel l)

/-- R126: with the interrupt acknowledged nothing reads the latched byte. -/
theorem SameReadable.ackRx (h : SameReadable s t) : SameReadable { s with rxIrq := false } { t with rxIrq := false } :=
  h.update ({ · with rxIrq := false }) (hirq := by simp)

/-- R232: raising reads and writes the fault records. -/
theorem SameReadable.raise (h : SameReadable s t) (code : FaultCode) (op : Op) (info : FaultInfo) :
    SameReadable (raiseApp s code op info) (raiseApp t code op info) :=
  h.update (raiseApp · code op info)

/-- R234: the NOT_READY check reads `init_state`. -/
theorem SameReadable.ifReady (h : SameReadable s t) (op : Op) {s' t' : State} (h' : s.initState = .ready → SameReadable s' t') :
    SameReadable (whenReady op s s') (whenReady op t t') := by
  have hinit : t.initState = s.initState := by rw [h.1]
  by_cases hr : s.initState = .ready
  · rw [whenReady_ready hr, whenReady_ready (hinit.trans hr)]
    exact h' hr
  · rw [whenReady_notReady hr, whenReady_notReady (hinit ▸ hr)]
    exact h.raise _ _ _

/-! ### The application's operations -/

/-- R120. -/
theorem SameReadable.init (h : SameReadable s t) (hs : Inv s) (ht : Inv t) : SameReadable (initLink s) (initLink t) := by
  have hinit : t.initState = s.initState := by rw [h.1]
  have hdraw : t.drawBool = s.drawBool := by rw [h.1]; rfl
  unfold initLink
  rw [hinit, hdraw]
  have hdrawn : SameReadable s.afterDraw t.afterDraw := h.update State.afterDraw
  cases s.initState with
  | ready => exact h.setLabel _
  | failed => exact h.setLabel _
  | uninit =>
    cases s.drawBool with
    | false => exact (hdrawn.update ({ · with initState := .failed })).raise _ _ _
    | true =>
      have htx := sameBuffer_clear (bufferInv_tx hs) (h.tx_inv ht)
      have hrx := sameBuffer_clear (bufferInv_rx hs) (h.rx_inv ht)
      exact ((hdrawn.setTx htx).setRx hrx).update (fun u =>
        { u with irqEnTx := true, irqEnRx := true, txState := .yielded, rxState := .yielded, txInflight := none, txIrq := false
                 rxArmed := false, rxIrq := false, initState := .ready, label := .ret .ok }) (hirq := by simp)

/-- R121. -/
theorem SameReadable.put (h : SameReadable s t) (hs : Inv s) (ht : Inv t) (d : Byte) : SameReadable (putByte d s) (putByte d t) := by
  obtain ⟨tx, _, _, _, _, rfl, htx, -⟩ := sameReadable_iff.mp h
  have htaken : (cbWrite s.cfg.cap tx d).1 = (cbWrite s.cfg.cap s.tx d).1 := htx.write_taken d
  unfold putByte
  dsimp only
  rw [htaken]
  exact (h.setTx (htx.write (bufferInv_tx hs) (bufferInv_tx ht) d)).setLabel _

/-- R122. -/
theorem SameReadable.get (h : SameReadable s t) (hs : Inv s) (ht : Inv t) : SameReadable (getByte s) (getByte t) := by
  obtain ⟨_, rx, _, _, _, rfl, -, hrx, -⟩ := sameReadable_iff.mp h
  obtain ⟨hbyte, hafter⟩ := hrx.read (bufferInv_rx hs) (bufferInv_rx ht)
  unfold getByte
  dsimp only
  rw [hbyte]
  exact (h.setRx hafter).setLabel _

/-- R123, R125 in terms of what the read answers. -/
theorem sendNext_eq (s : State) :
    sendNext s = { s with tx := (cbRead s.cfg.cap s.tx).2, txInflight := (cbRead s.cfg.cap s.tx).1.or s.txInflight } := by
  unfold sendNext
  rcases cbRead s.cfg.cap s.tx with ⟨_ | x, c⟩
  · rfl
  · rfl

theorem SameReadable.send (h : SameReadable s t) (hb : BufferInv s.cfg.cap s.tx) (hc : BufferInv s.cfg.cap t.tx) :
    SameReadable (sendNext s) (sendNext t) := by
  obtain ⟨tx, _, _, _, _, rfl, htx, -⟩ := sameReadable_iff.mp h
  obtain ⟨hbyte, hafter⟩ := htx.read hb hc
  rw [sendNext_eq, sendNext_eq]
  dsimp only
  rw [hbyte]
  exact (h.setTx hafter).update fun u => { u with txInflight := (cbRead s.cfg.cap s.tx).1.or u.txInflight }

/-- R123, the TX part. -/
theorem SameReadable.pumpTx (h : SameReadable s t) (hs : Inv s) (ht : Inv t) : SameReadable (pumpTx s) (pumpTx t) := by
  have hstate : t.txState = s.txState := by rw [h.1]
  unfold Machine.pumpTx
  rw [hstate, h.tx_same.empty_eq]
  split
  · have hbuffer := bufferInv_tx hs
    exact (h.update ({ · with txState := .active })).send hbuffer (h.tx_inv ht)
  · exact h

/-- R123, the RX part. -/
theorem SameReadable.pumpRx (h : SameReadable s t) : SameReadable (pumpRx s) (pumpRx t) := by
  have hstate : t.rxState = s.rxState := by rw [h.1]
  unfold Machine.pumpRx
  rw [hstate, h.rx_same.full_eq]
  split
  · exact h.update fun u => startRx { u with rxState := .active }
  · exact h

/-! ### The framer and the parser -/

/-- R154, TWO_PHASE: the free space is the same. -/
theorem SameReadable.sendTwoPhase (h : SameReadable s t) (hs : Inv s) (ht : Inv t) (len : Byte) (payload : List Byte) :
    SameReadable (sendTwoPhase len payload s) (sendTwoPhase len payload t) := by
  obtain ⟨tx, _, _, _, _, rfl, htx, -⟩ := sameReadable_iff.mp h
  unfold Machine.sendTwoPhase
  dsimp only
  rw [htx.free_eq]
  split
  · exact h.setLabel _
  · exact (h.setTx (htx.writeAll _ (bufferInv_tx hs) (bufferInv_tx ht))).setLabel _

/-- R154. -/
theorem SameReadable.sendFrame (h : SameReadable s t) (hs : Inv s) (ht : Inv t) (len : Byte) (payload : List Byte) :
    SameReadable (sendFrame len payload s) (sendFrame len payload t) := by
  unfold Machine.sendFrame
  rw [h.cfg_eq]
  split
  · split
    · exact h.sendTwoPhase hs ht len payload
    · exact h.update (sendAsImplemented payload)
  · exact h.raise _ _ _

/-- R156 after the put. -/
theorem SameReadable.afterPut (h : SameReadable s t) (putFull cont : Bool) :
    SameReadable (afterPut putFull cont s) (afterPut putFull cont t) := by
  obtain ⟨busy, seq, pos, r, e⟩ := afterPut_frame putFull cont s
  refine h.update (Machine.afterPut putFull cont) (fun tx rx ps x touch => ?_) (by rw [e]) (by rw [e]; exact id)
  unfold Machine.afterPut
  dsimp only
  split
  · rfl
  · rfl

/-- R156, with room in `tx`. -/
theorem putFrameByte_of_room (hf : s.tx.full = false) :
    putFrameByte s = afterPut false true { s with tx := (cbWrite s.cfg.cap s.tx (frameByte s)).2, frPos := s.frPos + 1 } := by
  rw [putFrameByte, cbWrite_ok _ _ hf]

/-- R156, with `tx` full. -/
theorem putFrameByte_of_full (hf : s.tx.full = true) :
    putFrameByte s = afterPut true s.drawBool { s with frPos := s.frPos + 1 }.afterDraw := by
  rw [putFrameByte, cbWrite_full _ _ hf]

/-- R156. -/
theorem SameReadable.putFrame (h : SameReadable s t) (hs : Inv s) (ht : Inv t) : SameReadable (putFrameByte s) (putFrameByte t) := by
  obtain ⟨tx, _, _, _, _, rfl, htx, -⟩ := sameReadable_iff.mp h
  cases hf : s.tx.full with
  | false =>
    rw [putFrameByte_of_room hf, putFrameByte_of_room (htx.full_eq.trans hf)]
    have hafter := htx.write (bufferInv_tx hs) (bufferInv_tx ht) (frameByte s)
    exact ((h.setTx hafter).update fun u => { u with frPos := u.frPos + 1 }).afterPut _ _
  | true =>
    rw [putFrameByte_of_full hf, putFrameByte_of_full (htx.full_eq.trans hf)]
    exact (h.update fun u => { u with frPos := u.frPos + 1 }.afterDraw).afterPut _ _

/-- R171: what the parser emits is recorded and returned. -/
theorem SameReadable.emit (h : SameReadable s t) (out : Option (List Byte)) : SameReadable (emitFrame out s) (emitFrame out t) := by
  cases out with
  | none => exact h.setLabel _
  | some p => exact h.update (emitFrame (some p))

theorem parserInv_of_inv (h : Inv s) : ParserInv s.ps := by
  obtain ⟨-, -, -, -, -, -, -, -, hps, -⟩ := h
  exact hps

theorem parseNext_of_none (hr : (cbRead s.cfg.cap s.rx).1 = none) : parseNext s = s.ret .empty := by
  unfold parseNext
  rw [← Prod.eta (cbRead s.cfg.cap s.rx), hr]

theorem parseNext_of_some {x : Byte} (hr : (cbRead s.cfg.cap s.rx).1 = some x) :
    parseNext s = emitFrame (parseByte s.cfg s.ps x).2
      { s with rx := (cbRead s.cfg.cap s.rx).2, ps := (parseByte s.cfg s.ps x).1 } := by
  unfold parseNext
  rw [← Prod.eta (cbRead s.cfg.cap s.rx), hr]

/-- R171. -/
theorem SameReadable.parse (h : SameReadable s t) (hs : Inv s) (ht : Inv t) : SameReadable (parseNext s) (parseNext t) := by
  obtain ⟨_, rx, ps, _, _, rfl, -, hrx, hps, -⟩ := sameReadable_iff.mp h
  obtain ⟨hbyte, hafter⟩ := hrx.read (bufferInv_rx hs) (bufferInv_rx ht)
  cases hr : (cbRead s.cfg.cap s.rx).1 with
  | none =>
    rw [parseNext_of_none hr, parseNext_of_none (hbyte.trans hr)]
    exact h.setLabel _
  | some x =>
    obtain ⟨hout, hparser⟩ := hps.parse (parserInv_of_inv hs) (parserInv_of_inv ht) s.cfg x
    rw [parseNext_of_some hr, parseNext_of_some (hbyte.trans hr)]
    dsimp only
    rw [hout]
    exact ((h.setRx hafter).setParser hparser).emit _

/-! ### The touch detector -/

/-- R190. -/
theorem SameReadable.edge (h : SameReadable s t) (c : Channel) (now : Nat) : SameReadable (edgeOn c now s) (edgeOn c now t) := by
  rcases h.chan_cases c with ⟨hs, ht⟩ | ⟨a, b, hs, ht, hab⟩
  · simp only [edgeOn, hs, ht]
    exact h.setLabel _
  · rw [edgeOn_some hs, edgeOn_some ht, h.cfg_eq, hab.edge_eq]
    exact (h.setChan c (.refl _)).setLabel _

/-- R191. -/
theorem SameReadable.poll (h : SameReadable s t) (c : Channel) : SameReadable (pollOn c s) (pollOn c t) := by
  rcases h.chan_cases c with ⟨hs, ht⟩ | ⟨a, b, hs, ht, hab⟩
  · simp only [pollOn, hs, ht]
    exact h.setLabel _
  · obtain ⟨htouched, hchan⟩ := hab.poll s.cfg c
    rw [pollOn_some hs, pollOn_some ht, h.cfg_eq, htouched]
    exact (h.setChan c hchan).setLabel _

/-! ### The handlers and the hardware -/

/-- R125. -/
theorem SameReadable.txComplete (h : SameReadable s t) (hs : Inv s) (ht : Inv t) : SameReadable (txComplete s) (txComplete t) := by
  unfold Machine.txComplete
  rw [h.tx_same.empty_eq]
  split
  · exact h.update ({ · with txIrq := false, txState := .yielded })
  · have hbuffer := bufferInv_tx hs
    exact (h.update ({ · with txIrq := false })).send hbuffer (h.tx_inv ht)

/-- R126 after the received byte is stored. -/
theorem SameReadable.rxContinue (h : SameReadable s t) : SameReadable (rxContinue s) (rxContinue t) := by
  unfold Machine.rxContinue
  rw [h.rx_same.full_eq]
  split
  · exact h.update ({ · with rxState := .yielded })
  · exact h.update startRx

/-- R126, with room in `rx`. -/
theorem rxComplete_of_room (hf : s.rx.full = false) :
    rxComplete s = (rxContinue { s with rxIrq := false, rx := (cbWrite s.cfg.cap s.rx s.rxData).2 }).silent := by
  rw [rxComplete, cbWrite_ok _ _ hf]

/-- R126, with `rx` full. -/
theorem rxComplete_of_full (hf : s.rx.full = true) :
    rxComplete s = raiseHandler { s with rxIrq := false } .rxLost .evRxComplete (.byte s.rxData) := by
  rw [rxComplete, cbWrite_full _ _ hf]

/-- R126: the latched byte is the same, since its interrupt is pending. -/
theorem SameReadable.rxComplete (h : SameReadable s t) (hs : Inv s) (ht : Inv t) (hirq : s.rxIrq = true) :
    SameReadable (rxComplete s) (rxComplete t) := by
  obtain ⟨_, rx, _, x, _, rfl, -, hrx, -, hx, -⟩ := sameReadable_iff.mp h
  obtain rfl : x = s.rxData := hx hirq
  cases hf : s.rx.full with
  | false =>
    rw [rxComplete_of_room hf, rxComplete_of_room (hrx.full_eq.trans hf)]
    have hafter := hrx.write (bufferInv_rx hs) (bufferInv_rx ht) s.rxData
    exact (h.ackRx.setRx hafter).rxContinue.setLabel _
  | true =>
    rw [rxComplete_of_full hf, rxComplete_of_full (hrx.full_eq.trans hf)]
    exact h.ackRx.update (raiseHandler · .rxLost .evRxComplete (.byte s.rxData))

/-- R130. -/
theorem SameReadable.txDone (h : SameReadable s t) : SameReadable (txDone s) (txDone t) := by
  have hinflight : t.txInflight = s.txInflight := by rw [h.1]
  unfold Machine.txDone
  rw [hinflight]
  cases s.txInflight with
  | none => exact h.setLabel _
  | some b => exact h.update fun u => { u with wireOut := u.wireOut ++ [b], txInflight := none, txIrq := true }.silent

/-- R131. -/
theorem SameReadable.rxAccept (h : SameReadable s t) : SameReadable (rxAccept s) (rxAccept t) := by
  have hwire : t.wireIn = s.wireIn := by rw [h.1]
  unfold Machine.rxAccept
  rw [hwire]
  cases s.wireIn with
  | nil => exact h.setLabel _
  | cons b rest => exact (h.latch b).update fun u => { u with wireIn := rest, rxArmed := false }.silent

/-- R132. -/
theorem SameReadable.rxDrop (h : SameReadable s t) : SameReadable (rxDrop s) (rxDrop t) := by
  have hwire : t.wireIn = s.wireIn := by rw [h.1]
  unfold Machine.rxDrop
  rw [hwire]
  cases s.wireIn with
  | nil => exact h.setLabel _
  | cons b rest => exact h.update fun u => { u with wireLost := u.wireLost ++ [b], wireIn := rest }.silent

/-! ### Every step -/

/-- R93: no enabling condition reads the storage. -/
theorem SameReadable.enabled_eq (h : SameReadable s t) (i : Instr) : enabled i t = enabled i s := by
  have hchan : ∀ c, t.hasChan c = s.hasChan c := by
    intro c
    unfold State.hasChan
    rcases h.chan_cases c with ⟨hs, ht⟩ | ⟨a, b, hs, ht, -⟩ <;> rw [hs, ht]
    rfl
  have hfields := h.1
  cases i with
  | touchIsTouched c =>
    simp only [enabled, hchan]
    rw [hfields]
  | evTouchEdge c now =>
    simp only [enabled, hchan]
    rw [hfields]
  | _ =>
    rw [hfields]
    rfl

/-- What an enabled instruction does relates what it leaves. -/
theorem SameReadable.effect (h : SameReadable s t) (hs : Inv s) (ht : Inv t) {i : Instr} (he : enabled i s = true) :
    SameReadable (effect i s) (effect i t) := by
  cases i with
  | uartInit => exact h.init hs ht
  | uartPut d => exact h.ifReady _ fun _ => h.put hs ht d
  | uartGet => exact h.ifReady _ fun _ => h.get hs ht
  | uartPump => exact h.ifReady _ fun _ => (h.pumpTx hs ht).pumpRx.setLabel _
  | frameSend len payload => exact h.ifReady _ fun _ => h.sendFrame hs ht len payload
  | frameStep => exact h.putFrame hs ht
  | parserStep => exact h.ifReady _ fun _ => h.parse hs ht
  | touchIsTouched c => exact h.poll c
  | encGetPosition => exact h.update fun u => u.ret (.int (position u.cfg.encDiv u.encCount))
  | encResetPosition => exact h.update fun u => { u with encCount := 0 }.ret .none
  | encButtonPressed => exact h.update fun u => { u with btnLatch := false }.ret (.bool u.btnLatch)
  | evTxComplete => exact (h.txComplete hs ht).setLabel _
  | evRxComplete =>
    obtain ⟨-, -, hirq⟩ : s.refused = false ∧ s.irqEnRx = true ∧ s.rxIrq = true := by simpa [enabled] using he
    exact h.rxComplete hs ht hirq
  | evTouchEdge c now => exact h.edge c now
  | evEncEdge ab =>
    exact h.update fun u =>
      { u with encCount := lap u.cfg.encLimit (u.encCount + qdelta u.encLast ab), encLast := ab }.silent
  | evBtnPress => exact h.update fun u => { u with btnLatch := true }.silent
  | cbWrite _ _ => exact h.update (refuse · .internalOp)
  | cbRead _ => exact h.update (refuse · .internalOp)
  | hwTxDone => exact h.txDone
  | hwRxAccept => exact h.rxAccept
  | hwRxDrop => exact h.rxDrop
  | peerSend d => exact h.update fun u => { u with wireIn := u.wireIn ++ [d] }.silent
  | reset ab =>
    -- RESET draws the storage afresh, from the draw counter alone (R260).
    have hreset : resetTo ab t = resetTo ab s := by rw [h.1]; rfl
    exact .of_eq hreset

theorem SameReadable.exec (h : SameReadable s t) (hs : Inv s) (ht : Inv t) {i : Instr} {s' : State} (he : exec i s = .next s') :
    ∃ t', exec i t = .next t' ∧ SameReadable s' t' := by
  rw [exec_eq_effect] at he ⊢
  rw [h.enabled_eq]
  rcases whenEnabled_next he with ⟨hen, rfl⟩ | ⟨hen, rfl⟩
  · exact ⟨_, whenEnabled_true hen, h.effect hs ht hen⟩
  · exact ⟨_, whenEnabled_false hen, h.setLabel _⟩

/-- Fetching reads `refused`, the configuration and the schedule, so it comes to the same from both states. -/
theorem SameReadable.fetch_cases (h : SameReadable s t) :
    (fetch s = .ended ∧ fetch t = .ended)
    ∨ (∃ s' t', fetch s = .settled s' ∧ fetch t = .settled t' ∧ SameReadable s' t')
    ∨ ∃ i rest, fetch s = .run i { s with sched := rest } ∧ fetch t = .run i { t with sched := rest } := by
  obtain ⟨_, _, _, _, _, rfl, -⟩ := sameReadable_iff.mp h
  unfold fetch
  dsimp only
  split
  · exact .inl ⟨rfl, rfl⟩
  split
  case isFalse => exact .inr (.inl ⟨_, _, rfl, rfl, h.update (refuse · .badConfig)⟩)
  split
  · exact .inr (.inl ⟨_, _, rfl, rfl, h.setLabel _⟩)
  · rename_i o rest _
    have hrest := h.update ({ · with sched := rest })
    unfold takeOffer
    split
    · exact .inr (.inl ⟨_, _, rfl, rfl, hrest.update (refuse · .badOpcode)⟩)
    · split
      · exact .inr (.inr ⟨_, rest, rfl, rfl⟩)
      · exact .inr (.inl ⟨_, _, rfl, rfl, hrest.setLabel _⟩)

/-- Settles O57: both states fetch the same, and an instruction that runs reads no storage that they differ in. -/
theorem unspecifiedStorageIsInvisible : Obligations.UnspecifiedStorageIsInvisible := by
  intro s t s' hs ht h hstep
  unfold step at hstep ⊢
  rcases h.fetch_cases with ⟨efs, -⟩ | ⟨a, b, efs, eft, hab⟩ | ⟨i, rest, efs, eft⟩
  · rw [efs] at hstep
    cases hstep
  · rw [efs] at hstep
    cases hstep
    exact ⟨b, by rw [eft], hab⟩
  · rw [efs] at hstep
    rw [eft]
    exact (h.update ({ · with sched := rest })).exec (s := { s with sched := rest }) hs ht hstep

end Sys2Proof.Safety

/-! PROOF. The decoder and the encoder read the same table. A row's field bits are the low bits of the opcode byte, so the bytes a row hits
are an interval (R73, R90); and the encoder's opcode byte is the row's pattern with the operand in those bits (R74). -/
namespace Sys2Proof

/-! ### The rows of the opcode map -/

/-- R72: the field bits of a row are the low `k` bits of the opcode byte, and its pattern has zeros there. -/
theorem row_mask : ∀ r ∈ opcodeTable, ∃ k < 3, r.mask = BitVec.allOnes 8 <<< k ∧ r.mask.toNat + 2 ^ k = 256
    ∧ 2 ^ k ∣ r.pattern.toNat := by
  decide

/-- Clearing the low `k` bits of a byte. -/
theorem toNat_and_allOnes_shiftLeft (b : Byte) (k : Nat) :
    (b &&& BitVec.allOnes 8 <<< k).toNat = b.toNat / 2 ^ k * 2 ^ k := by
  have hshift : b &&& BitVec.allOnes 8 <<< k = (b >>> k) <<< k := by
    apply BitVec.eq_of_getLsbD_eq
    intro i hi
    by_cases hk : i < k
    · simp [hk]
    · simp [hk, hi, show k + (i - k) = i by omega, -BitVec.reduceAllOnes]
  have hle := Nat.div_mul_le_self b.toNat (2 ^ k)
  rw [hshift, BitVec.toNat_shiftLeft, BitVec.toNat_ushiftRight, Nat.shiftLeft_eq, Nat.shiftRight_eq_div_pow,
    Nat.mod_eq_of_lt (by omega)]

/-- R73: the bytes a row hits are an interval that starts at its pattern. -/
theorem hits_iff {r : Row} (hr : r ∈ opcodeTable) (b : Byte) :
    r.hits b = true ↔ r.pattern.toNat ≤ b.toNat ∧ b.toNat + r.mask.toNat ≤ r.pattern.toNat + 255 := by
  obtain ⟨k, -, hmask, hsum, m, hm⟩ := row_mask r hr
  have hpos : 0 < 2 ^ k := Nat.two_pow_pos k
  have hblock : r.hits b = true ↔ b.toNat / 2 ^ k = m := by
    rw [Row.hits, beq_iff_eq, ← BitVec.toNat_inj, hmask, toNat_and_allOnes_shiftLeft, hm, Nat.mul_comm (2 ^ k),
      Nat.mul_left_inj hpos.ne']
  rw [hblock, Nat.div_eq_iff hpos]
  rw [Nat.mul_comm] at hm
  omega

/-- The intervals of two rows do not meet. -/
theorem rows_apart : ∀ r₁ ∈ opcodeTable, ∀ r₂ ∈ opcodeTable,
    r₁ = r₂ ∨ r₁.pattern.toNat + 255 < r₂.pattern.toNat + r₁.mask.toNat
      ∨ r₂.pattern.toNat + 255 < r₁.pattern.toNat + r₂.mask.toNat := by
  decide

/-- Settles O3: no byte lies in two intervals that do not meet. -/
theorem opcodePatternsDisjoint : Obligations.OpcodePatternsDisjoint := by
  intro c r₁ r₂ hr₁ hr₂ hit₁ hit₂
  rw [hits_iff hr₁] at hit₁
  rw [hits_iff hr₂] at hit₂
  rcases rows_apart r₁ hr₁ r₂ hr₂ with heq | hbelow | habove
  · exact heq
  · omega
  · omega

/-! ### What the decoder answers -/

theorem row_of_lookupOp {b : Byte} {o : Op} (h : lookupOp b = some o) : ∃ r ∈ opcodeTable, r.hits b = true ∧ r.op = o := by
  obtain ⟨r, hfind, hop⟩ := Option.map_eq_some_iff.mp h
  exact ⟨r, List.mem_of_find?_eq_some hfind, List.find?_some (p := fun r : Row => r.hits b) hfind, hop⟩

theorem lookupOp_eq_none_iff {b : Byte} : lookupOp b = none ↔ ∀ r ∈ opcodeTable, ¬ r.hits b = true := by
  rw [lookupOp, Option.map_eq_none_iff, List.find?_eq_none]

theorem decode_eq_ok_iff {c : Command} {i : Instr} : decode c = .ok i ↔ ∃ o, lookupOp c.op = some o ∧ assemble o c = i := by
  cases h : lookupOp c.op <;> simp [decode, h]

/-- R90: an unassigned opcode lies in no row's interval. -/
theorem decode_eq_badOpcode_iff {c : Command} : decode c = .error .badOpcode ↔
    ∀ r ∈ opcodeTable, ¬ (r.pattern.toNat ≤ c.op.toNat ∧ c.op.toNat + r.mask.toNat ≤ r.pattern.toNat + 255) := by
  have hnone : decode c = .error .badOpcode ↔ lookupOp c.op = none := by
    cases h : lookupOp c.op <;> simp [decode, h]
  rw [hnone, lookupOp_eq_none_iff]
  exact forall₂_congr fun r hr => not_congr (hits_iff hr c.op)

/-! ### The field bits -/

theorem channelBit_channelField (b : Byte) : channelBit (channelField b) = b &&& 0x01#8 := by
  revert b; decide

theorem bufferBit_bufferField (b : Byte) : bufferBit (bufferField b) = b &&& 0x01#8 := by
  revert b; decide

theorem setWidth_pinsField (b : Byte) : (pinsField b).setWidth 8 = b &&& 0x03#8 := by
  revert b; decide

theorem channelField_or_channelBit {p : Byte} (hp : p[0] = false) (c : Channel) : channelField (p ||| channelBit c) = c := by
  cases c <;> simp [channelField, channelBit, hp]

theorem bufferField_or_bufferBit {p : Byte} (hp : p[0] = false) (u : BufSel) : bufferField (p ||| bufferBit u) = u := by
  cases u <;> simp [bufferField, bufferBit, hp]

theorem pinsField_or_setWidth {p : Byte} (hp : pinsField p = 0#2) (ab : Pins) : pinsField (p ||| ab.setWidth 8) = ab := by
  have hpins : pinsField (ab.setWidth 8) = ab := by revert ab; decide
  have hor : pinsField (p ||| ab.setWidth 8) = pinsField p ||| pinsField (ab.setWidth 8) := BitVec.extractLsb'_or
  rw [hor, hp, hpins, BitVec.zero_or]

/-! ### Decoding what was encoded -/

/-- R72, R73: the encoder's opcode byte names the instruction's own row. -/
theorem lookupOp_encode (i : Instr) : lookupOp (encode i).op = some i.op := by
  cases i with
  | uartInit => exact Laws.EncodeNamesRow.uartInit
  | uartPut d => exact Laws.EncodeNamesRow.uartPut d
  | uartGet => exact Laws.EncodeNamesRow.uartGet
  | uartPump => exact Laws.EncodeNamesRow.uartPump
  | frameSend len payload => exact Laws.EncodeNamesRow.frameSend len payload
  | frameStep => exact Laws.EncodeNamesRow.frameStep
  | parserStep => exact Laws.EncodeNamesRow.parserStep
  | touchIsTouched c => exact Laws.EncodeNamesRow.touchIsTouched c
  | encGetPosition => exact Laws.EncodeNamesRow.encGetPosition
  | encResetPosition => exact Laws.EncodeNamesRow.encResetPosition
  | encButtonPressed => exact Laws.EncodeNamesRow.encButtonPressed
  | evTxComplete => exact Laws.EncodeNamesRow.evTxComplete
  | evRxComplete => exact Laws.EncodeNamesRow.evRxComplete
  | evTouchEdge c now => exact Laws.EncodeNamesRow.evTouchEdge c now
  | evEncEdge ab => exact Laws.EncodeNamesRow.evEncEdge ab
  | evBtnPress => exact Laws.EncodeNamesRow.evBtnPress
  | cbWrite u d => exact Laws.EncodeNamesRow.cbWrite u d
  | cbRead u => exact Laws.EncodeNamesRow.cbRead u
  | hwTxDone => exact Laws.EncodeNamesRow.hwTxDone
  | hwRxAccept => exact Laws.EncodeNamesRow.hwRxAccept
  | hwRxDrop => exact Laws.EncodeNamesRow.hwRxDrop
  | peerSend d => exact Laws.EncodeNamesRow.peerSend d
  | reset ab => exact Laws.EncodeNamesRow.reset ab

/-- R74: the operands are read back, those in the field bits from an opcode whose pattern has zeros there. -/
theorem assemble_encode (i : Instr) : assemble i.op (encode i) = i := by
  cases i with
  | touchIsTouched c => exact congrArg Instr.touchIsTouched (channelField_or_channelBit rfl c)
  | evTouchEdge c now => exact congrArg (Instr.evTouchEdge · now) (channelField_or_channelBit rfl c)
  | evEncEdge ab => exact congrArg Instr.evEncEdge (pinsField_or_setWidth rfl ab)
  | cbWrite u d => exact congrArg (Instr.cbWrite · d) (bufferField_or_bufferBit rfl u)
  | cbRead u => exact congrArg Instr.cbRead (bufferField_or_bufferBit rfl u)
  | reset ab => exact congrArg Instr.reset (pinsField_or_setWidth rfl ab)
  | _ => rfl

theorem decode_encode (i : Instr) : decode (encode i) = .ok i :=
  decode_eq_ok_iff.mpr ⟨i.op, lookupOp_encode i, assemble_encode i⟩

/-! ### Encoding what was decoded -/

/-- R74: the encoder's opcode byte is the row's pattern with the operand back in the field bits. -/
theorem encode_assemble_op (c : Command) :
    ∀ r ∈ opcodeTable, (encode (assemble r.op c)).op = r.pattern ||| (c.op &&& ~~~r.mask) := by
  simp [opcodeTable, assemble, encode, channelBit_channelField, bufferBit_bufferField, setWidth_pinsField]

/-- Of an opcode byte that a row hits, the fixed bits are the row's pattern. -/
theorem pattern_or_field_of_hits {r : Row} {b : Byte} (h : r.hits b = true) : r.pattern ||| (b &&& ~~~r.mask) = b := by
  have hfixed : b &&& r.mask = r.pattern := beq_iff_eq.mp h
  rw [← hfixed]
  ext i hi
  cases hb : b[i] <;> simp [hb]

theorem encode_op_of_decode {c : Command} {i : Instr} (h : decode c = .ok i) : (encode i).op = c.op := by
  obtain ⟨o, hlookup, rfl⟩ := decode_eq_ok_iff.mp h
  obtain ⟨r, hr, hhits, rfl⟩ := row_of_lookupOp hlookup
  rw [encode_assemble_op c r hr, pattern_or_field_of_hits hhits]

/-- Settles O2. -/
theorem decodeEncodeAgree : Obligations.DecodeEncodeAgree :=
  ⟨decode_encode, fun _ _ => encode_op_of_decode⟩

/-- Settles O1: each of the twelve records is the encoder's for its instruction. -/
theorem tableRowsDecode : Obligations.TableRowsDecode :=
  ⟨decode_encode .uartInit, decode_encode (.uartPut 0x41#8), decode_encode (.frameSend 2#8 [0x41#8, 0x42#8]),
    decode_encode (.touchIsTouched .one), decode_encode .encResetPosition, decode_encode .evRxComplete,
    decode_encode (.evTouchEdge .zero 1200), decode_encode (.evEncEdge 0b10#2), decode_encode (.cbRead .rx),
    decode_encode .hwRxDrop, decode_encode (.peerSend 0xCC#8), decode_encode (.reset 0b11#2)⟩

end Sys2Proof

/-! PROOF. What becomes of the next offer of the schedule (R93, R233, R287): refused, passed over, or run. The buffer primitives are run, and
meet their refusal (R92) in `exec`. -/
namespace Sys2Proof.Machine

variable {s : State} {o : Offer} {rest : List Offer} {i : Instr}

/-! ### The offer -/

theorem mayTake_iff {a : Agent} : mayTake a i = true ↔ ∀ b, i.agent = some b → a = b := by
  cases h : i.agent <;> simp [mayTake, h]

theorem fetch_of_offer (hlive : s.refused = false) (hcfg : s.cfg.valid = true) (hsched : s.sched = o :: rest) :
    fetch s = takeOffer o { s with sched := rest } := by
  simp [fetch, hlive, hcfg, hsched]

theorem fetch_of_no_offer (hlive : s.refused = false) (hcfg : s.cfg.valid = true) (hsched : s.sched = []) :
    fetch s = .settled s.noStep := by
  simp [fetch, hlive, hcfg, hsched]

theorem takeOffer_of_badOpcode (h : decode o.cmd = .error .badOpcode) : takeOffer o s = .settled (refuse s .badOpcode) := by
  simp only [takeOffer, h]

theorem takeOffer_of_mayTake (h : decode o.cmd = .ok i) (ha : mayTake o.agent i = true) : takeOffer o s = .run i s := by
  simp only [takeOffer, h, ha, if_true]

theorem takeOffer_of_not_mayTake (h : decode o.cmd = .ok i) (ha : ¬ mayTake o.agent i = true) :
    takeOffer o s = .settled s.noStep := by
  simp only [takeOffer, h, ha, Bool.false_eq_true, if_false]

theorem step_of_run {t : State} (h : fetch s = .run i t) : step s = exec i t := by
  simp only [step, h]

/-! ### The statements -/

/-- Settles O4: the bytes R90 lists are those between the rows' intervals, and the decoder's error is looked at before the offer's agent. -/
theorem unassignedOpcodesRefused : Obligations.UnassignedOpcodesRefused := by
  rintro o n rfl
  constructor
  · have hbyte := o.cmd.op.isLt
    rw [decode_eq_badOpcode_iff]
    simp only [opcodeTable, List.mem_cons, List.not_mem_nil, or_false, not_and, not_le, forall_eq_or_imp, forall_eq,
      BitVec.toNat_ofNat, Nat.reducePow, Nat.one_mod, Nat.reduceAdd, Nat.mod_succ, Nat.reduceMod]
    omega
  · intro s rest hlive hcfg hsched hbad
    exact step_of_settled ((fetch_of_offer hlive hcfg hsched).trans (takeOffer_of_badOpcode hbad))

/-- Settles O5. -/
theorem stepRunsDecodedInstruction : Obligations.StepRunsDecodedInstruction := by
  intro s o rest i hlive hcfg hsched hdecode hmay
  exact step_of_run ((fetch_of_offer hlive hcfg hsched).trans (takeOffer_of_mayTake hdecode hmay))

/-- Settles O6. -/
theorem wrongAgentHasNoStep : Obligations.WrongAgentHasNoStep := by
  constructor
  · intro s o rest i a hlive hcfg hsched hdecode hagent hwrong
    have hmay : ¬ mayTake o.agent i = true := fun h => hwrong (mayTake_iff.mp h a hagent)
    exact step_of_settled ((fetch_of_offer hlive hcfg hsched).trans (takeOffer_of_not_mayTake hdecode hmay))
  · intro s hlive hcfg hsched
    exact step_of_settled (fetch_of_no_offer hlive hcfg hsched)

/-- Settles O10: their rows name no agent, and their meaning in a state that is not refused is the refusal. -/
theorem internalPrimitivesRefused : Obligations.InternalPrimitivesRefused := by
  intro s hlive
  have hrefuse : whenEnabled s.live s (refuse s .internalOp) = .next (refuse s .internalOp) := whenEnabled_true (live_of hlive)
  refine ⟨fun u d => ⟨?_, ?_⟩, fun a u d => ⟨?_, ?_⟩⟩
  · rw [exec_cbWrite, hrefuse]; rfl
  · rw [exec_cbRead, hrefuse]; rfl
  · simp [mayTake_iff, Instr.agent]
  · simp [mayTake_iff, Instr.agent]

end Sys2Proof.Machine

/-! PROOF. An active TX direction drains itself (R135): each TX-complete handler chains the oldest byte of `tx`, each HW_TX_DONE puts the byte
in flight on the wire, and the handler that finds `tx` empty yields. The induction is on the number of unread bytes, from a pending
interrupt on; a byte in flight is one HW_TX_DONE before that. -/
namespace Sys2Proof.Machine
open Sys2Proof.Safety

variable {s : State}

theorem execAll_cons {i : Instr} {l : List Instr} {t : State} (h : exec i s = .next t) : execAll (i :: l) s = execAll l t := by
  simp only [execAll, h]

theorem drainRounds_succ (n : Nat) : drainRounds (n + 1) = .hwTxDone :: .evTxComplete :: drainRounds n := by
  simp [drainRounds, List.replicate_succ]

/-- `t` is `s` after TX has put the bytes `sent` on the wire, emptied its buffer and yielded: no other field differs but the label. -/
structure Drained (s t : State) (sent : List Byte) : Prop where
  frame : t = { s with
    tx := t.tx, txState := .yielded, txInflight := none, txIrq := false, wireOut := s.wireOut ++ sent, label := .silent }
  empty : t.tx.empty = true

/-! ### One step -/

/-- R130. -/
theorem exec_hwTxDone_of_inflight (hlive : s.refused = false) {b : Byte} (hb : s.txInflight = some b) :
    exec .hwTxDone s
      = .next { s with wireOut := s.wireOut ++ [b], txInflight := none, txIrq := true, label := .silent } := by
  rw [exec_hwTxDone, whenEnabled_true (by simp [live_of hlive, hb])]
  simp only [txDone, hb]
  rfl

/-- R125 where the handler runs. -/
theorem exec_evTxComplete_of_pending (hlive : s.refused = false) (hen : s.irqEnTx = true) (hirq : s.txIrq = true) :
    exec .evTxComplete s = .next (txComplete s).silent := by
  rw [exec_evTxComplete, whenEnabled_true (by simp [live_of hlive, hen, hirq])]

/-! ### The rounds -/

/-- From a pending interrupt: the handler, then a round for each byte it has to chain. -/
theorem drain_of_pending (n : Nat) : ∀ {s : State}, BufferInv s.cfg.cap s.tx → s.refused = false → s.irqEnTx = true →
    s.txIrq = true → s.txInflight = none → s.tx.count s.cfg.cap = n →
    ∃ t, execAll (.evTxComplete :: drainRounds n) s = .next t ∧ Drained s t (s.tx.unread s.cfg.cap) := by
  induction n with
  | zero =>
    intro s hbuf hlive hen hirq hidle hcount
    have hempty : s.tx.empty = true := by
      obtain ⟨-, -, hzero, -⟩ := count_spec hbuf
      exact hzero.mp hcount
    rw [execAll_cons (exec_evTxComplete_of_pending hlive hen hirq), (unread_eq_nil_iff hbuf).mpr hempty]
    rcases txComplete_cases hbuf with ⟨-, e⟩ | ⟨hmore, -⟩
    · exact ⟨_, rfl, by rw [e, List.append_nil, ← hidle]; rfl, by rw [e]; exact hempty⟩
    · simp [hempty] at hmore
  | succ n ih =>
    intro s hbuf hlive hen hirq hidle hcount
    rw [execAll_cons (exec_evTxComplete_of_pending hlive hen hirq), drainRounds_succ]
    rcases txComplete_cases hbuf with ⟨hempty, -⟩ | ⟨-, x, c, e, hc, hunread, -⟩
    · obtain ⟨-, -, hzero, -⟩ := count_spec hbuf
      have := hzero.mpr hempty
      omega
    · have hleft : c.count s.cfg.cap = n := by
        have hlen := congrArg List.length hunread
        simp only [unread_length, List.length_cons] at hlen
        omega
      have hdone := exec_hwTxDone_of_inflight (s := { s with txIrq := false, tx := c, txInflight := some x }.silent) hlive rfl
      rw [e, execAll_cons hdone]
      obtain ⟨t, hrun, hframe, hempty⟩ := ih (s := { s with
        txIrq := true, tx := c, txInflight := none, wireOut := s.wireOut ++ [x], label := .silent }) hc hlive hen rfl rfl hleft
      refine ⟨t, hrun, ?_, hempty⟩
      rw [hframe, hunread]
      simp

/-- From a byte in flight: its HW_TX_DONE is the first step of the first round. -/
theorem drain_of_inflight (hbuf : BufferInv s.cfg.cap s.tx) (hlive : s.refused = false) (hen : s.irqEnTx = true) {b : Byte}
    (hb : s.txInflight = some b) :
    ∃ t, execAll (drainRounds (s.tx.count s.cfg.cap + 1)) s = .next t ∧ Drained s t (b :: s.tx.unread s.cfg.cap) := by
  rw [drainRounds_succ, execAll_cons (exec_hwTxDone_of_inflight hlive hb)]
  obtain ⟨t, hrun, hframe, hempty⟩ := drain_of_pending (s.tx.count s.cfg.cap)
    (s := { s with wireOut := s.wireOut ++ [b], txInflight := none, txIrq := true, label := .silent }) hbuf hlive hen rfl rfl rfl
  refine ⟨t, hrun, ?_, hempty⟩
  rw [hframe]
  simp

/-- R96: an active TX has a byte in flight or its interrupt pending, and DRAIN_TX starts accordingly. -/
theorem drainTx_drains (h : Inv s) (hlive : s.refused = false) (hr : s.initState = .ready) (hact : s.txState = .active) :
    ∃ t, execAll (drainTx s) s = .next t ∧ Drained s t (s.txInflight.toList ++ s.tx.unread s.cfg.cap) := by
  obtain ⟨htx, -, -, -, -, -, henTx, -⟩ := transportInv_of_inv h
  have hen : s.irqEnTx = true := henTx.mp hr
  cases hb : s.txInflight with
  | some b =>
    simp only [drainTx, hb]
    exact drain_of_inflight (bufferInv_tx h) hlive hen hb
  | none =>
    have hirq : s.txIrq = true := by simpa [hb] using htx.mp hact
    simp only [drainTx, hb, hirq, if_true]
    exact drain_of_pending _ (bufferInv_tx h) hlive hen hirq hb rfl

/-- Settles O25. -/
theorem drainTxEmptiesActiveDirection : Obligations.DrainTxEmptiesActiveDirection := by
  intro s h hlive hr hact
  obtain ⟨t, hrun, hframe, hempty⟩ := drainTx_drains h hlive hr hact
  refine ⟨t, hrun, ?_, hempty, ?_⟩
  · rw [hframe, List.append_assoc]
  · rw [hframe]
    exact ⟨rfl, rfl, rfl, rfl, rfl, rfl⟩

end Sys2Proof.Machine

/-! PROOF. The circular buffer as a bounded queue (40_circular_buffer.md R100 to R104). One write and one read are each an equation on the
unread bytes; a sequence of calls chains them, with what the call takes put behind the unread bytes and what it reads taken from their
front. The flags follow from the count, which `count_spec` ties to them. -/
namespace Sys2Proof.Machine
open Sys2Proof.Safety

section BufferQueue
variable {cap : Nat} {b : Cb}

/-! ### The count and the flags -/

theorem cap_pos_of_bufferInv (h : BufferInv cap b) : 0 < cap := by
  obtain ⟨-, hhead, -, -, -⟩ := h
  omega

theorem count_eq_zero_iff (h : BufferInv cap b) : b.count cap = 0 ↔ b.empty = true := by
  obtain ⟨-, -, hzero, -⟩ := count_spec h
  exact hzero

theorem count_eq_cap_iff (h : BufferInv cap b) : b.count cap = cap ↔ b.full = true := by
  obtain ⟨-, -, -, hcap⟩ := count_spec h
  exact hcap

/-- R104 (1). -/
theorem unread_length_le (h : BufferInv cap b) : (b.unread cap).length ≤ cap := by
  obtain ⟨hle, -⟩ := count_spec h
  rwa [unread_length]

/-- R41's formula in exact integers. -/
theorem count_cast (hpos : 0 < cap) :
    (b.count cap : Int) = if b.full then (cap : Int) else ((b.tail : Int) - b.head) % cap := by
  unfold Cb.count modN
  split
  · rfl
  · exact Int.toNat_of_nonneg (Int.emod_nonneg _ (by omega))

theorem free_add_count (h : BufferInv cap b) : b.free cap + b.count cap = cap := by
  obtain ⟨hle, -⟩ := count_spec h
  exact Nat.sub_add_cancel hle

theorem full_iff_head_eq_tail (h : BufferInv cap b) (he : b.empty = false) : b.full = true ↔ b.head = b.tail := by
  obtain ⟨-, -, -, -, heq⟩ := h
  simp [heq, he]

theorem empty_iff_head_eq_tail (h : BufferInv cap b) (hf : b.full = false) : b.empty = true ↔ b.head = b.tail := by
  obtain ⟨-, -, -, -, heq⟩ := h
  simp [heq, hf]

/-! ### One call -/

/-- R100 (a), (b): a taken write fills the buffer exactly when one slot was free. -/
theorem cbWrite_fills_iff (h : BufferInv cap b) (d : Byte) (hf : b.full = false) :
    (cbWrite cap b d).2.full = true ↔ b.count cap = cap - 1 := by
  have hpos := cap_pos_of_bufferInv h
  rw [← count_eq_cap_iff (cbWrite_inv h d), cbWrite_count h d hf]
  omega

/-- R101: a read that returns a byte empties the buffer exactly when that byte was the only one. -/
theorem cbRead_empties_iff (h : BufferInv cap b) (he : b.empty = false) :
    (cbRead cap b).2.empty = true ↔ b.count cap = 1 := by
  rw [← count_eq_zero_iff (cbRead_inv h), ← cbRead_count h he]
  omega

/-- A read never leaves a buffer full: it clears the flag, and an empty buffer was not full. -/
theorem cbRead_not_full (h : BufferInv cap b) : (cbRead cap b).2.full = false := by
  cases he : b.empty
  · rw [cbRead_ok cap he]
  · obtain ⟨-, -, -, hnotBoth, -⟩ := h
    rw [cbRead_empty cap he]
    simpa [he] using hnotBoth

/-- What a read answers is the front of the unread bytes. -/
theorem cbRead_fst_eq_head? (h : BufferInv cap b) : (cbRead cap b).1 = (b.unread cap).head? := by
  cases he : b.empty
  · obtain ⟨x, c, hread, -, hunread, -⟩ := cbRead_cases h he
    rw [hread, hunread, List.head?_cons]
  · rw [cbRead_empty cap he, (unread_eq_nil_iff h).mpr he, List.head?_nil]

/-- R61 for one write: the byte joins the unread ones exactly when it is taken. -/
theorem unread_append_taken (h : BufferInv cap b) (d : Byte) (taken : List Byte) :
    b.unread cap ++ (if (cbWrite cap b d).1 then d :: taken else taken) = (cbWrite cap b d).2.unread cap ++ taken := by
  rw [cbWrite_fst, cbWrite_unread h]
  cases b.full <;> simp

/-! ### A sequence of calls -/

theorem runCalls_inv (l : List BufferCall) (h : BufferInv cap b) : BufferInv cap (runCalls cap l b).1 := by
  induction l generalizing b with
  | nil => exact h
  | cons call l ih =>
    cases call with
    | write d => exact ih (cbWrite_inv h d)
    | read => exact ih (cbRead_inv h)

/-- R104 (2): what was unread, then what was taken, is what was read, then what is unread. -/
theorem runCalls_fifo (l : List BufferCall) (h : BufferInv cap b) :
    b.unread cap ++ (runCalls cap l b).2.1 = (runCalls cap l b).2.2 ++ (runCalls cap l b).1.unread cap := by
  induction l generalizing b with
  | nil => simp [runCalls]
  | cons call l ih =>
    cases call with
    | write d => exact (unread_append_taken h d _).trans (ih (cbWrite_inv h d))
    | read =>
      have hrest := ih (cbRead_inv h)
      simp only [runCalls]
      rw [← cbRead_unread h, List.append_assoc, List.append_assoc, hrest]

end BufferQueue

/-! ### The statements -/

/-- Settles O13. -/
theorem bufferCallsAreFifo : Obligations.BufferCallsAreFifo := by
  intro cap l b h
  exact ⟨runCalls_inv l h, unread_length_le (runCalls_inv l h), runCalls_fifo l h⟩

/-- Settles O11: `full` after the write is read from its invariant (`head = tail`) and from its count (`cap - 1` before). -/
theorem bufferWriteEnqueues : Obligations.BufferWriteEnqueues := by
  intro cap b d h
  refine ⟨cbWrite_full cap d, fun hf => ?_⟩
  have hfills := cbWrite_fills_iff h d hf
  have hlt := count_lt_of_not_full h hf
  obtain ⟨c, hwrite, hinv, hunread, hhead, htail, hempty, hother, hslot⟩ := cbWrite_cases h d hf
  rw [hwrite] at hfills
  exact ⟨c, hwrite, hinv, hslot, hother, hhead, htail, hempty, full_iff_head_eq_tail hinv hempty, hunread, hfills.symm,
    fun hone => hfills.mpr (by omega)⟩

/-- Settles O12: `empty` after the read is read from its invariant (`head = tail`) and from its count (1 before). -/
theorem bufferReadDequeues : Obligations.BufferReadDequeues := by
  intro cap b h
  refine ⟨cbRead_empty cap, fun he => ?_⟩
  have hempties := cbRead_empties_iff h he
  obtain ⟨x, c, hread, hinv, hunread, hdata, htail, hfull, hhead⟩ := cbRead_cases h he
  obtain rfl : x = b.slot b.head := by
    rw [cbRead_ok cap he] at hread
    injection hread with hbyte
    exact (Option.some.inj hbyte).symm
  rw [hread] at hempties
  exact ⟨c, hread, hinv, hdata, htail, hhead, hfull, empty_iff_head_eq_tail hinv hfull, hunread, hempties.symm⟩

/-- Settles O14: the `cap` bytes fit, so all are unread and the count is `cap`. -/
theorem fullAfterCapacityWrites : Obligations.FullAfterCapacityWrites := by
  intro cap b x l h he hlen
  have hroom : b.count cap + (x :: l).length ≤ cap := by
    rw [(count_eq_zero_iff h).mpr he, List.length_cons]
    omega
  obtain ⟨hinv, hunread⟩ := cbWriteAll_spec (x :: l) h hroom
  rw [(unread_eq_nil_iff h).mpr he, List.nil_append] at hunread
  have hcount : (cbWriteAll cap b (x :: l)).count cap = cap := by
    rw [← unread_length, hunread, List.length_cons, hlen]
  exact ⟨(count_eq_cap_iff hinv).mp hcount, hunread, by rw [cbRead_fst_eq_head? hinv, hunread, List.head?_cons],
    cbRead_not_full hinv⟩

/-- Settles O15. -/
theorem freeSpaceCountsFreeSlots : Obligations.FreeSpaceCountsFreeSlots := by
  intro cap b h
  have hsum := free_add_count h
  refine ⟨?_, ?_, ?_⟩
  · rw [← count_cast (cap_pos_of_bufferInv h)]
    omega
  · rw [← count_eq_cap_iff h]
    omega
  · rw [← count_eq_zero_iff h]
    omega

end Sys2Proof.Machine

/-! PROOF. The UART transport's steps one by one (41_uart_transport.md R120 to R133): each command, handler and hardware step answers its
effect where its enabling condition holds, and what the effect does is read off the lemmas of Laws/Transport. -/
namespace Sys2Proof.Machine
open Sys2Proof.Safety

variable {s : State}

/-! ### One step -/

/-- R21, R234: an APP command of the transport on a link that is up, with no send in progress. -/
theorem whenEnabled_whenReady (hlive : s.refused = false) (hidle : s.frBusy = false) (hr : s.initState = .ready) (op : Op)
    (t : State) : whenEnabled s.appMay s (whenReady op s t) = .next t := by
  rw [whenEnabled_true (appMay_of hlive hidle), whenReady_ready hr]

theorem exec_uartInit_of_idle (hlive : s.refused = false) (hidle : s.frBusy = false) : exec .uartInit s = .next (initLink s) := by
  rw [exec_uartInit, whenEnabled_true (appMay_of hlive hidle)]

theorem exec_uartPut_of_ready (hlive : s.refused = false) (hidle : s.frBusy = false) (hr : s.initState = .ready) (d : Byte) :
    exec (.uartPut d) s = .next (putByte d s) := by
  rw [exec_uartPut, whenEnabled_whenReady hlive hidle hr]

theorem exec_uartGet_of_ready (hlive : s.refused = false) (hidle : s.frBusy = false) (hr : s.initState = .ready) :
    exec .uartGet s = .next (getByte s) := by
  rw [exec_uartGet, whenEnabled_whenReady hlive hidle hr]

theorem exec_uartPump_of_ready (hlive : s.refused = false) (hidle : s.frBusy = false) (hr : s.initState = .ready) :
    exec .uartPump s = .next ((pumpRx (pumpTx s)).ret .none) := by
  rw [exec_uartPump, whenEnabled_whenReady hlive hidle hr]

/-- R126 where the handler runs. -/
theorem exec_evRxComplete_of_pending (hlive : s.refused = false) (hen : s.irqEnRx = true) (hirq : s.rxIrq = true) :
    exec .evRxComplete s = .next (rxComplete s) := by
  rw [exec_evRxComplete, whenEnabled_true (by simp [live_of hlive, hen, hirq])]

/-- R131 where a receive is armed and the peer has a byte. -/
theorem exec_hwRxAccept_of_armed (hlive : s.refused = false) (harmed : s.rxArmed = true) {x : Byte} {l : List Byte}
    (hwire : s.wireIn = x :: l) :
    exec .hwRxAccept s
      = .next { s with rxData := x, wireIn := l, rxArmed := false, rxIrq := true, label := .silent } := by
  rw [exec_hwRxAccept, whenEnabled_true (by simp [live_of hlive, harmed, hwire])]
  simp only [rxAccept, hwire]
  rfl

/-- R132 with MAY_DROP, where no receive is armed and the peer has a byte. -/
theorem exec_hwRxDrop_of_unarmed (hlive : s.refused = false) (hdrop : s.cfg.rxUnarmed = .mayDrop) (harmed : s.rxArmed = false)
    {x : Byte} {l : List Byte} (hwire : s.wireIn = x :: l) :
    exec .hwRxDrop s = .next { s with wireLost := s.wireLost ++ [x], wireIn := l, label := .silent } := by
  rw [exec_hwRxDrop, whenEnabled_true (by simp [live_of hlive, hdrop, harmed, hwire])]
  simp only [rxDrop, hwire]
  rfl

/-- R132 (a): with HELD no byte is dropped. -/
theorem exec_hwRxDrop_of_held (hheld : s.cfg.rxUnarmed = .held) : exec .hwRxDrop s = .next s.noStep :=
  exec_of_not_enabled (by simp [enabled, hheld])

/-! ### The statements -/

/-- Settles O16: the four cases of `initLink` exclude one another. -/
theorem uartInitBringsLinkUp : Obligations.UartInitBringsLinkUp := by
  intro s hlive hidle
  rw [exec_uartInit_of_idle hlive hidle]
  rcases initLink_cases s with ⟨hi, e⟩ | ⟨hi, e⟩ | ⟨hi, hd, e⟩ | ⟨hi, hd, e⟩ <;> rw [e]
  · exact ⟨fun _ => rfl, by simp [hi], by simp [hi], by simp [hi]⟩
  · exact ⟨by simp [hi], fun _ => rfl, by simp [hi], by simp [hi]⟩
  · exact ⟨by simp [hi], by simp [hi], fun _ _ => rfl, by simp [hd]⟩
  · exact ⟨by simp [hi], by simp [hi], by simp [hd], fun _ _ => rfl⟩

/-- Settles O17. -/
theorem uartPutQueuesByte : Obligations.UartPutQueuesByte := by
  intro s d hlive hidle hr hbuf
  rw [exec_uartPut_of_ready hlive hidle hr]
  rcases putByte_cases d hbuf with ⟨hf, e⟩ | ⟨hf, c, e, hinv, hunread, hhead, -, hslots⟩ <;> rw [e]
  · exact ⟨fun _ => rfl, by simp [hf]⟩
  · exact ⟨by simp [hf], fun _ => ⟨c, rfl, hunread, hhead, hinv, hslots⟩⟩

/-- Settles O18. -/
theorem uartGetTakesOldestByte : Obligations.UartGetTakesOldestByte := by
  intro s hlive hidle hr hbuf
  rw [exec_uartGet_of_ready hlive hidle hr]
  rcases getByte_cases hbuf with ⟨he, e⟩ | ⟨he, x, c, e, hinv, hunread, hdata, htail, -⟩ <;> rw [e]
  · exact ⟨fun _ => rfl, by simp [he]⟩
  · exact ⟨by simp [he], fun _ => ⟨x, c, rfl, hunread, hdata, htail, hinv⟩⟩

/-- R123: the two cases of the RX part, each under its own condition. -/
theorem pumpRx_arms_exactly (s : State) :
    (s.rxState = .yielded → s.rx.full = false → (pumpRx s).rxState = .active ∧ (pumpRx s).rxArmed = true)
    ∧ (s.rxState = .active ∨ s.rx.full = true → (pumpRx s).rxState = s.rxState ∧ (pumpRx s).rxArmed = s.rxArmed) := by
  rcases pumpRx_cases (s := s) with ⟨hy, hroom, e⟩ | ⟨hno, e⟩ <;> rw [e]
  · exact ⟨fun _ _ => ⟨rfl, rfl⟩, by simp [hy, hroom]⟩
  · exact ⟨fun hy hroom => by simp [hy, hroom] at hno, fun _ => ⟨rfl, rfl⟩⟩

/-- Settles O19: the TX part leaves RX alone and the RX part TX, so what each says of its own fields holds of the whole command. -/
theorem uartPumpStartsTransfers : Obligations.UartPumpStartsTransfers := by
  intro s hlive hidle hr hbuf
  refine ⟨_, exec_uartPump_of_ready hlive hidle hr, ?_⟩
  have harms := pumpRx_arms_exactly (pumpTx s)
  obtain ⟨d, a, erx⟩ := pumpRx_frame (pumpTx s)
  rw [erx] at harms ⊢
  rcases pumpTx_cases hbuf with ⟨hy, he, x, c, etx, hinv, hunread, hdata, htail⟩ | ⟨hno, etx⟩ <;> rw [etx] at harms ⊢
  · exact ⟨rfl, fun _ _ => ⟨rfl, hdata, htail, hinv, x, rfl, hunread⟩, by simp [hy, he], harms⟩
  · exact ⟨rfl, fun hy he => by simp [hy, he] at hno, fun _ => ⟨rfl, rfl, rfl⟩, harms⟩

/-- Settles O20: the handler acknowledges its interrupt in both cases. -/
theorem transmitCompleteChainsOrYields : Obligations.TransmitCompleteChainsOrYields := by
  intro s hlive hen hirq hbuf
  rw [exec_evTxComplete_of_pending hlive hen hirq]
  rcases txComplete_cases hbuf with ⟨he, e⟩ | ⟨he, x, c, e, hinv, hunread, hdata, htail⟩ <;> rw [e]
  · refine ⟨fun _ => rfl, by simp [he], ?_⟩
    rintro t ⟨⟩
    simp [enabled]
  · refine ⟨by simp [he], fun _ => ⟨x, c, rfl, hunread, hdata, htail, hinv⟩, ?_⟩
    rintro t ⟨⟩
    simp [enabled]

/-- Settles O21. -/
theorem receiveCompleteStoresByte : Obligations.ReceiveCompleteStoresByte := by
  intro s hlive hen hirq hbuf
  rw [exec_evRxComplete_of_pending hlive hen hirq]
  rcases rxComplete_cases hbuf with ⟨hf, c, hinv, hunread, hhead, -, hslots, hend⟩ | ⟨hf, e⟩
  · refine ⟨fun _ => ⟨c, hunread, hhead, hinv, hslots, ?_⟩, by simp [hf]⟩
    rcases hend with ⟨hfull, e⟩ | ⟨hroom, e⟩ <;> rw [e]
    · exact ⟨fun _ => rfl, by simp [hfull]⟩
    · exact ⟨by simp [hroom], fun _ => rfl⟩
  · exact ⟨by simp [hf], fun _ => by rw [e]; rfl⟩

/-- R128: a receive interrupt is pending only where RX is active, and then `rx` has room. -/
theorem rx_not_full_of_rxIrq (h : Inv s) (hirq : s.rxIrq = true) : s.rx.full = false := by
  obtain ⟨-, -, hactive, -, hroom, -⟩ := transportInv_of_inv h
  exact hroom (hactive.mpr (.inr hirq))

/-- Settles O22: of the handler's outcomes the fault is the one that needs a full `rx`. -/
theorem receiveNeverOverflows : Obligations.ReceiveNeverOverflows := by
  intro s h hen
  obtain ⟨-, -, hirq⟩ : s.refused = false ∧ s.irqEnRx = true ∧ s.rxIrq = true := by simpa [enabled] using hen
  refine ⟨rxComplete s, exec_of_enabled hen, ?_⟩
  rcases rxComplete_cases (bufferInv_rx h) with ⟨-, c, -, hunread, -, -, -, ⟨-, e⟩ | ⟨-, e⟩⟩ | ⟨hfull, -⟩
  · rw [e]
    exact ⟨rfl, hunread⟩
  · rw [e]
    exact ⟨rfl, hunread⟩
  · simp [rx_not_full_of_rxIrq h hirq] at hfull

/-- Settles O23. -/
theorem hardwareAndPeerMoveWireBytes : Obligations.HardwareAndPeerMoveWireBytes := by
  intro s x l hlive
  refine ⟨exec_hwTxDone_of_inflight hlive, fun harmed hwire => exec_hwRxAccept_of_armed hlive harmed hwire,
    fun hdrop harmed hwire => exec_hwRxDrop_of_unarmed hlive hdrop harmed hwire, exec_hwRxDrop_of_held, ?_⟩
  rw [exec_peerSend, whenEnabled_true (live_of hlive)]
  rfl

end Sys2Proof.Machine

/-! PROOF. Bytes reach the wire. One UART_PUMP on a yielded TX puts the oldest byte in flight, and the rounds that follow drain the rest (R135).
In a run, a byte in flight stays in flight, with the wire as it is, until HW_TX_DONE is taken: so HW_TX_DONE stays enabled, and fairness
has it taken (R134). -/
namespace Sys2Proof.Machine
open Sys2Proof.Safety

variable {s : State}

/-! ### The pump and the rounds -/

/-- R123 on a yielded TX with bytes queued: the oldest one goes into flight, and the RX part writes RX's own two fields. -/
theorem exec_uartPump_of_yielded (hbuf : BufferInv s.cfg.cap s.tx) (hlive : s.refused = false) (hidle : s.frBusy = false)
    (hr : s.initState = .ready) (hy : s.txState = .yielded) (he : s.tx.empty = false) :
    ∃ x c d a, exec .uartPump s = .next
        { s with txState := .active, tx := c, txInflight := some x, rxState := d, rxArmed := a, label := .ret .none }
      ∧ BufferInv s.cfg.cap c ∧ s.tx.unread s.cfg.cap = x :: c.unread s.cfg.cap := by
  rcases pumpTx_cases hbuf with ⟨-, -, x, c, etx, hinv, hunread, -⟩ | ⟨hno, -⟩
  · obtain ⟨d, a, erx⟩ := pumpRx_frame (pumpTx s)
    exact ⟨x, c, d, a, by rw [exec_uartPump_of_ready hlive hidle hr, erx, etx]; rfl, hinv, hunread⟩
  · simp [hy, he] at hno

/-- Settles O24: after the pump the byte in flight and the rest of `tx` need one round each. -/
theorem selfChainingDrainsTransmitBuffer : Obligations.SelfChainingDrainsTransmitBuffer := by
  intro s h hlive hidle hr hy he
  obtain ⟨-, -, -, -, -, -, henTx, -⟩ := transportInv_of_inv h
  obtain ⟨x, c, d, a, hpump, hinv, hunread⟩ := exec_uartPump_of_yielded (bufferInv_tx h) hlive hidle hr hy he
  have hcount : s.tx.count s.cfg.cap = c.count s.cfg.cap + 1 := by
    rw [← unread_length, hunread, List.length_cons, unread_length]
  obtain ⟨t, hrun, hframe, hempty⟩ := drain_of_inflight (s := { s with
    txState := .active, tx := c, txInflight := some x, rxState := d, rxArmed := a, label := .ret .none })
    hinv hlive (henTx.mp hr) rfl
  refine ⟨t, ?_, ?_, hempty, ?_⟩
  · rw [execAll_cons hpump, hcount]
    exact hrun
  · rw [hframe, hunread]
  · rw [hframe]
    exact ⟨rfl, rfl, rfl, rfl, rfl, rfl⟩

/-! ### A byte in flight -/

/-- The byte `x` is in flight and `wire` is what has left so far. -/
def InFlight (x : Byte) (wire : List Byte) (s : State) : Prop := s.txInflight = some x ∧ s.wireOut = wire

/-- The byte `x` has followed `wire` onto the wire and nothing is in flight. -/
def Arrived (x : Byte) (wire : List Byte) (s : State) : Prop := s.wireOut = wire ++ [x] ∧ s.txInflight = none

variable {x : Byte} {wire : List Byte}

/-- R42: a byte in flight is TX's, so TX is active, the link is up and no TX-complete is pending. -/
theorem link_active_of_inflight (h : Inv s) (hx : s.txInflight = some x) :
    s.txState = .active ∧ s.initState = .ready ∧ s.txIrq = false := by
  obtain ⟨htx, hone, -, -, -, hidle, -⟩ := transportInv_of_inv h
  have hact : s.txState = .active := htx.mpr (.inl (by simp [hx]))
  refine ⟨hact, ?_, by simpa [hx] using hone⟩
  by_contra hn
  obtain ⟨hy, -⟩ := hidle hn
  simp [hy] at hact

/-- R130: HW_TX_DONE ends a flight. -/
theorem txDone_arrived (hx : InFlight x wire s) : Arrived x wire (txDone s) := by
  obtain ⟨hx, rfl⟩ := hx
  simp only [txDone, hx]
  exact ⟨rfl, rfl⟩

/-- The instructions but RESET that write the byte in flight or `wire_out`. -/
def flightWriters : List Op := [.uartInit, .uartPump, .evTxComplete, .hwTxDone]

theorem inFlight_of_not_writer {t : State} {i : Instr} (hx : InFlight x wire s) (he : exec i s = .next t) (hreset : i.op ≠ .reset)
    (hi : i.op ∉ flightWriters) : InFlight x wire t := by
  simp only [flightWriters, List.mem_cons, List.not_mem_nil, or_false, not_or] at hi
  obtain ⟨hinit, hpump, hcomplete, hdone⟩ := hi
  obtain ⟨-, hlink, -, hout, -⟩ := stateChangesOnlyByItsWriters s t i he hreset
  obtain ⟨-, -, -, -, -, -, -, -, hflight, -⟩ := hlink hinit
  obtain ⟨hx, hwire⟩ := hx
  have hkept : t.txInflight = s.txInflight := by
    by_contra hne
    simp_all
  have hsame : t.wireOut = s.wireOut := by
    by_contra hne
    exact hdone (hout hne)
  exact ⟨hkept.trans hx, hsame.trans hwire⟩

/-- R120: UART_INIT changes nothing on a link that is up. -/
theorem initLink_inFlight (hr : s.initState = .ready) (hx : InFlight x wire s) : InFlight x wire (initLink s) := by
  rcases initLink_cases s with ⟨-, e⟩ | ⟨hi, -⟩ | ⟨hi, -⟩ | ⟨hi, -⟩
  case inl => rwa [e]
  all_goals simp [hr] at hi

/-- R123: the pump starts no transmit where TX is active. -/
theorem pump_inFlight (h : Inv s) (hact : s.txState = .active) (hx : InFlight x wire s) : InFlight x wire (pumpRx (pumpTx s)) := by
  obtain ⟨d, a, erx⟩ := pumpRx_frame (pumpTx s)
  rcases pumpTx_cases (bufferInv_tx h) with ⟨hy, -⟩ | ⟨-, etx⟩
  · simp [hact] at hy
  · rw [erx, etx]
    exact hx

/-- R130: the only instruction but RESET that ends a flight is HW_TX_DONE, which puts the byte on the wire. -/
theorem inFlight_or_arrived {t : State} {i : Instr} (h : Inv s) (hx : InFlight x wire s) (he : exec i s = .next t)
    (hreset : i.op ≠ .reset) : InFlight x wire t ∨ Arrived x wire t := by
  obtain ⟨hact, hr, hirq⟩ := link_active_of_inflight h hx.1
  by_cases hw : i.op ∈ flightWriters
  case neg => exact .inl (inFlight_of_not_writer hx he hreset hw)
  refine exec_elim (P := fun t => InFlight x wire t ∨ Arrived x wire t) he (fun l => .inl hx) fun hen => ?_
  cases i with
  | uartInit => exact .inl (initLink_inFlight hr hx)
  | uartPump =>
    simp only [effect, whenReady_ready hr]
    exact .inl (pump_inFlight h hact hx)
  | evTxComplete => simp [enabled, hirq] at hen
  | hwTxDone => exact .inr (txDone_arrived hx)
  | _ => simp [Instr.op, flightWriters] at hw

/-! ### Runs -/

/-- R233: a run goes on, so no state of it is refused. -/
theorem run_not_refused (r : EnvRun) (n : Nat) : (r.state n).refused = false := by
  by_contra hrefused
  rw [Bool.not_eq_false] at hrefused
  have hstep := r.follows n
  simp [step, fetch, State.offered, hrefused] at hstep

/-- The step of a run that takes an instruction runs it. -/
theorem run_exec_of_takes {r : EnvRun} {n : Nat} {i : Instr} (h : Inv (r.state n)) (htakes : r.takes i n) :
    exec i (r.state n) = .next (r.state (n + 1)) := by
  obtain ⟨hdecode, hmay⟩ := htakes
  obtain ⟨hcfg, -⟩ := h
  rw [← r.follows n]
  exact (stepRunsDecodedInstruction ((r.state n).offered (r.offer n)) (r.offer n) (r.state n).sched i (run_not_refused r n) hcfg rfl
    hdecode hmay).symm

/-- A step of a run that takes no RESET keeps the flight or ends it on the wire; one that runs no instruction keeps it. -/
theorem run_inFlight_or_arrived {r : EnvRun} {n : Nat} (h : Inv (r.state n)) (hreset : ∀ ab, ¬ r.takes (.reset ab) n)
    (hx : InFlight x wire (r.state n)) : InFlight x wire (r.state (n + 1)) ∨ Arrived x wire (r.state (n + 1)) := by
  rcases step_next (r.follows n) with ⟨l, rest, rf, e⟩ | ⟨o, rest, i, hsched, hdecode, hmay, -⟩
  · rw [e]
    exact .inl hx
  · obtain ⟨rfl, -⟩ := List.cons.inj hsched
    refine inFlight_or_arrived h hx (run_exec_of_takes h ⟨hdecode, hmay⟩) ?_
    intro hop
    cases i with
    | reset ab => exact hreset ab ⟨hdecode, hmay⟩
    | _ => simp [Instr.op] at hop

/-- Settles O60: while the byte does not arrive it stays in flight, so HW_TX_DONE stays enabled and fairness has it taken; but then the byte
arrives. -/
theorem fairHardwarePutsByteOnWire : Obligations.FairHardwarePutsByteOnWire := by
  intro r n x hfair hcompletes hinv hreset hx
  by_contra hnever
  have hflies : ∀ m, n ≤ m → InFlight x (r.state n).wireOut (r.state m) := by
    intro m hm
    induction m, hm using Nat.le_induction with
    | base => exact ⟨hx, rfl⟩
    | succ m hm ih =>
      rcases run_inFlight_or_arrived (hinv m) (hreset m hm) ih with hfly | harrived
      · exact hfly
      · exact absurd ⟨m + 1, by omega, harrived⟩ hnever
  have henabled : ∀ m, n ≤ m → enabled .hwTxDone (r.state m) = true := by
    intro m hm
    obtain ⟨hflight, -⟩ := hflies m hm
    simp [enabled, run_not_refused r m, hflight]
  obtain ⟨hfairTx, -⟩ := hfair hcompletes
  obtain ⟨m, hm, htakes⟩ := hfairTx n henabled
  have hdone := run_exec_of_takes (hinv m) htakes
  rw [exec_of_enabled (henabled m hm)] at hdone
  have harrived : Arrived x (r.state n).wireOut (r.state (m + 1)) := by
    rw [← Host.Outcome.next.inj hdone]
    exact txDone_arrived (hflies m hm)
  exact hnever ⟨m + 1, by omega, harrived⟩

end Sys2Proof.Machine

/-! PROOF. The checksum (42_packet_framer.md R150 to R152). In exact integers a step is a rotate by one bit and an add, modulo 256. Both are
one-to-one, so neither a different accumulator nor a different byte can end in the same checksum. -/
namespace Sys2Proof.Machine

/-! ### One step -/

/-- R9's rotate, in exact integers: the low bit becomes the high one. -/
theorem ror8_toNat (x : Byte) : (ror8 x).toNat = x.toNat / 2 + x.toNat % 2 * 128 := by
  revert x
  decide

/-- R151: the two shifted parts share no bit, so their sum is the rotate. -/
theorem ror8_eq_add (x : Byte) : ror8 x = (x >>> 1) + (x <<< 7) := by
  apply BitVec.eq_of_toNat_eq
  rw [ror8_toNat, BitVec.toNat_add, BitVec.toNat_ushiftRight, BitVec.toNat_shiftLeft, Nat.shiftRight_eq_div_pow, Nat.shiftLeft_eq]
  omega

theorem cksStep_eq_ror8_add (acc x : Byte) : cksStep acc x = ror8 acc + x := by rw [cksStep, ror8_eq_add]

theorem ror8_injective {a b : Byte} (h : ror8 a = ror8 b) : a = b := by
  have hnat := congrArg BitVec.toNat h
  rw [ror8_toNat, ror8_toNat] at hnat
  apply BitVec.eq_of_toNat_eq
  omega

/-- R152: for a fixed byte the step is one-to-one in the accumulator. -/
theorem cksStep_inj_acc {a b x : Byte} (h : cksStep a x = cksStep b x) : a = b := by
  rw [cksStep_eq_ror8_add, cksStep_eq_ror8_add] at h
  exact ror8_injective (add_right_cancel h)

/-- R152: for a fixed accumulator the step is one-to-one in the byte. -/
theorem cksStep_inj_byte {acc x y : Byte} (h : cksStep acc x = cksStep acc y) : x = y := by
  rw [cksStep_eq_ror8_add, cksStep_eq_ror8_add] at h
  exact add_left_cancel h

/-! ### The fold -/

/-- The bytes that follow keep two accumulators apart. -/
theorem foldl_cksStep_inj {q : List Byte} {a b : Byte} (h : q.foldl cksStep a = q.foldl cksStep b) : a = b := by
  induction q generalizing a b with
  | nil => exact h
  | cons x q ih => exact cksStep_inj_acc (ih h)

/-- Settles O29. -/
theorem checksumIsLeftFold : Obligations.ChecksumIsLeftFold :=
  ⟨fun _ _ => rfl, rfl, fun _ => rfl, fun p x => cks_append p [x]⟩

/-- Settles O30. -/
theorem checksumStepRotatesAndAdds : Obligations.ChecksumStepRotatesAndAdds := by
  intro acc x
  refine ⟨?_, cksStep_eq_ror8_add acc x⟩
  rw [cksStep_eq_ror8_add, BitVec.toNat_add, ror8_toNat]
  omega

/-- Settles O31: the bytes before the error give one accumulator, the step at the error takes it to two, and those stay apart. -/
theorem singleByteErrorChangesChecksum : Obligations.SingleByteErrorChangesChecksum := by
  intro p q x y hne h
  rw [cks_append, cks_append] at h
  exact hne (cksStep_inj_byte (foldl_cksStep_inj h))

end Sys2Proof.Machine

/-! PROOF. The packet framer's commands (42_packet_framer.md R154 to R157): FRAME_SEND under each policy and with a wrong length, FRAME_STEP with
and without room. What the two operations do is read off the lemmas of Laws/Framer. -/
namespace Sys2Proof.Machine
open Sys2Proof.Safety

variable {s : State} {len : Byte} {payload : List Byte}

/-! ### FRAME_SEND -/

theorem exec_frameSend_of_ready (hlive : s.refused = false) (hidle : s.frBusy = false) (hr : s.initState = .ready) :
    exec (.frameSend len payload) s = .next (sendFrame len payload s) := by
  rw [exec_frameSend, whenEnabled_whenReady hlive hidle hr]

theorem sendFrame_of_wrong_length (hlen : len.toNat ≠ payload.length) :
    sendFrame len payload s = raiseApp s .badLength .frameSend (.lengths len payload.length) := if_neg hlen

theorem sendFrame_of_asImplemented (hpolicy : s.cfg.sendPolicy = .asImplemented) (hlen : len.toNat = payload.length) :
    sendFrame len payload s
      = { s with frSeq := frame s.cfg payload, frPos := 0, frBusy := true, label := .silent } := by
  simp only [sendFrame, if_pos hlen, hpolicy]
  rfl

theorem free_le_cap (cap : Nat) (b : Cb) : b.free cap ≤ cap := Nat.sub_le _ _

/-- R154 under TWO_PHASE: a frame that fits leaves every slot but its own as it was. -/
theorem frame_writes_own_slots (hbuf : BufferInv s.cfg.cap s.tx)
    (hfits : payload.length + frameOverhead ≤ s.tx.free s.cfg.cap) {j : Nat}
    (hj : ∀ k, k < payload.length + frameOverhead → j ≠ (s.tx.tail + k) % s.cfg.cap) :
    (cbWriteAll s.cfg.cap s.tx (frame s.cfg payload)).slot j = s.tx.slot j := by
  have hsum := free_add_count hbuf
  refine cbWriteAll_slot _ _ _ hbuf ?_ j ?_ <;> rw [frame_length]
  · omega
  · exact hj

/-- Settles O32: of `sendFrame`'s outcomes TWO_PHASE and the right length leave two, and which it is depends on the free space alone. -/
theorem twoPhaseSendIsAllOrNothing : Obligations.TwoPhaseSendIsAllOrNothing := by
  intro s len payload hlive hidle hr hpolicy hbuf hlen
  have hcap := free_le_cap s.cfg.cap s.tx
  rw [exec_frameSend_of_ready hlive hidle hr]
  rcases sendFrame_cases len payload hbuf with ⟨hbad, -⟩ | ⟨-, -, hshort, e⟩ | ⟨-, -, hfits, c, hc, e, hinv, hunread, hhead⟩
    | ⟨-, hother, -⟩
  · exact absurd hlen hbad
  · rw [e]
    exact ⟨fun _ => rfl, fun hroom => absurd hroom (Nat.not_le.mpr hshort), fun _ => rfl⟩
  · rw [e]
    refine ⟨fun hshort => absurd hfits (Nat.not_le.mpr hshort), fun _ => ⟨c, rfl, ?_, hhead, hinv, fun j hj => ?_⟩,
      fun hlong => absurd (hfits.trans hcap) (Nat.not_le.mpr hlong)⟩
    · rw [hunread, frame_of_len _ _ _ hlen]
    · rw [hlen] at hj hfits
      rw [hc]
      exact frame_writes_own_slots hbuf hfits hj
  · simp [hpolicy] at hother

/-- Settles O33. -/
theorem badLengthIsPrecise : Obligations.BadLengthIsPrecise := by
  intro s len payload hlive hidle hr hlen
  rw [exec_frameSend_of_ready hlive hidle hr, sendFrame_of_wrong_length hlen]
  rfl

/-- R21: while a send is in progress APP may take FRAME_STEP alone. -/
theorem eq_frameStep_of_enabled {i : Instr} (hbusy : s.frBusy = true) (happ : i.agent = some .app) (hen : enabled i s = true) :
    i = .frameStep := by
  cases i with
  | frameStep => rfl
  | _ => simp [Instr.agent, enabled, hbusy] at happ hen

/-- Settles O34. -/
theorem asImplementedSendStartsSequencer : Obligations.AsImplementedSendStartsSequencer := by
  intro s len payload hlive hidle hr hpolicy hlen
  refine ⟨?_, fun t i => eq_frameStep_of_enabled⟩
  rw [exec_frameSend_of_ready hlive hidle hr, sendFrame_of_asImplemented hpolicy hlen, frame_of_len _ _ _ hlen]

/-! ### FRAME_STEP -/

theorem exec_frameStep_of_busy (hlive : s.refused = false) (hbusy : s.frBusy = true) :
    exec .frameStep s = .next (putFrameByte s) := by
  rw [exec_frameStep, whenEnabled_true (by simp [live_of hlive, hbusy])]

theorem frameByte_of_getElem? {x : Byte} (hx : s.frSeq[s.frPos]? = some x) : frameByte s = x := by
  simp [frameByte, hx]

/-- Settles O35. -/
theorem frameStepPutsOneByte : Obligations.FrameStepPutsOneByte := by
  intro s x hlive hbusy hx hbuf
  rw [exec_frameStep_of_busy hlive hbusy]
  rcases putFrameByte_cases hbuf with ⟨hroom, c, -, hunread, hhead, -, hslots, hend⟩ | ⟨hfull, hend⟩
  · refine ⟨fun _ => ⟨c, by rw [hunread, frameByte_of_getElem? hx], hhead, hslots, ?_⟩, by simp [hroom]⟩
    rcases hend with ⟨hlast, e⟩ | ⟨hmore, e⟩
    · rw [e, if_pos hlast]
    · rw [e, if_neg hmore]
  · refine ⟨by simp [hfull], fun _ => ?_⟩
    rcases hend with ⟨hover, e⟩ | ⟨hcont, hmore, e⟩
    · rw [e, if_pos hover]
    · rw [e, if_neg (by simp [hcont, hmore])]

end Sys2Proof.Machine

/-! PROOF. An AS_IMPLEMENTED send among the steps of other agents (42_packet_framer.md R155, R158). The steps that can fall between two
FRAME_STEPs leave the sequencer alone and, as long as TX-complete does not run, `tx` too; each FRAME_STEP puts the next byte. So after `k`
FRAME_STEPs either the first `k` bytes of the frame have been put, or the send is over, and then all the bytes that fit have been queued:
a send gives up on a full `tx` only. The induction is on the steps. -/
namespace Sys2Proof.Machine
open Sys2Proof.Safety

variable {s t u : State} {i : Instr}

/-! ### Steps beside the send -/

/-- A step of a handler, of the hardware or of the peer. -/
def BesideSend (i : Instr) : Prop := isHandler i = true ∨ i.agent = some .hw ∨ i.agent = some .peer

/-- The instructions that change `tx`, the sequencer or `refused`, but for TX-complete. -/
def sendWriters : List Op := [.reset, .uartInit, .uartPut, .uartPump, .frameSend, .frameStep, .cbWrite, .cbRead]

theorem BesideSend.op_not_mem (hi : BesideSend i) : i.op ∉ sendWriters := by
  cases i with
  | evTxComplete | evRxComplete | evTouchEdge _ _ | evEncEdge _ | evBtnPress | hwTxDone | hwRxAccept | hwRxDrop | peerSend _ =>
    simp [Instr.op, sendWriters]
  | _ => simp [BesideSend, isHandler, Instr.agent] at hi

/-- Neither HW_TX_DONE nor TX-complete is enabled, and so no byte can leave `tx` before the next UART_PUMP. -/
structure TxIdle (s : State) : Prop where
  inflight : s.txInflight = none
  irq : s.txIrq = false

theorem txIdle_of_yielded (h : TransportInv s) (hy : s.txState = .yielded) : TxIdle s := by
  obtain ⟨hactive, -⟩ := h
  rw [hy] at hactive
  exact ⟨by simpa using fun h => hactive.mpr (.inl h), by simpa using fun h => hactive.mpr (.inr h)⟩

/-- The fields that the send in progress consists of. -/
structure SameSend (t u : State) : Prop where
  cfg : u.cfg = t.cfg
  refused : u.refused = t.refused
  tx : u.tx = t.tx
  busy : u.frBusy = t.frBusy
  seq : u.frSeq = t.frSeq
  pos : u.frPos = t.frPos

theorem sameSend_of_not_writer (hi : i.op ∉ sendWriters) (hne : i.op ≠ .evTxComplete) (he : exec i t = .next u) : SameSend t u := by
  simp only [sendWriters, List.mem_cons, List.not_mem_nil, or_false, not_or] at hi
  obtain ⟨hreset, hinit, hput, hpump, hsend, hstep, hwrite, hread⟩ := hi
  obtain ⟨-, hlink, -, -, -, -, hseq, -, -, -, -, -, -, -, -, hrefused, hcfg, -⟩ := stateChangesOnlyByItsWriters t u i he hreset
  obtain ⟨hcontents, hhead, hflags, -⟩ := hlink hinit
  constructor
  case cfg => exact hcfg
  case tx => apply cb_eq_of_fields <;> by_contra hx <;> simp_all
  all_goals by_contra hx; simp_all

theorem sameSend_noStep (t : State) : SameSend t t.noStep := ⟨rfl, rfl, rfl, rfl, rfl, rfl⟩

/-- R155: a step of another agent leaves the send alone, TX-complete on an idle TX among them: it is not enabled. -/
theorem BesideSend.sameSend (hi : BesideSend i) (hidle : TxIdle t ∨ i ≠ .evTxComplete) (he : exec i t = .next u) : SameSend t u := by
  by_cases hcomplete : i = .evTxComplete
  · have hirq : t.txIrq = false := (hidle.resolve_right (not_not_intro hcomplete)).irq
    rw [hcomplete, exec_of_not_enabled (by simp [enabled, hirq])] at he
    rw [← Host.Outcome.next.inj he]
    exact sameSend_noStep t
  · refine sameSend_of_not_writer hi.op_not_mem (fun hop => hcomplete ?_) he
    cases i with
    | evTxComplete => rfl
    | _ => simp [Instr.op] at hop

/-- The instructions that change the byte in flight or the TX-complete interrupt. -/
def txActivity : List Op := [.reset, .uartInit, .uartPump, .evTxComplete, .hwTxDone]

theorem TxIdle.of_not_activity (h : TxIdle t) (hi : i.op ∉ txActivity) (he : exec i t = .next u) : TxIdle u := by
  simp only [txActivity, List.mem_cons, List.not_mem_nil, or_false, not_or] at hi
  obtain ⟨hreset, hinit, hpump, hcomplete, hdone⟩ := hi
  obtain ⟨-, hlink, -⟩ := stateChangesOnlyByItsWriters t u i he hreset
  obtain ⟨-, -, -, -, -, -, -, -, hflight, hpending, -⟩ := hlink hinit
  obtain ⟨hinflight, hirq⟩ := h
  constructor <;> by_contra hx <;> simp_all

theorem TxIdle.of_not_enabled (h : TxIdle t) (hen : enabled i t = false) (he : exec i t = .next u) : TxIdle u := by
  rw [exec_of_not_enabled hen] at he
  rw [← Host.Outcome.next.inj he]
  exact ⟨h.inflight, h.irq⟩

/-- A send's FRAME_STEPs and the steps beside it keep TX idle: what would change that is not enabled there. -/
theorem TxIdle.exec (h : TxIdle t) (hi : i = .frameStep ∨ BesideSend i) (he : exec i t = .next u) : TxIdle u := by
  rcases hi with rfl | hi
  · exact h.of_not_activity (by decide) he
  · by_cases hact : i.op ∈ txActivity
    case neg => exact h.of_not_activity hact he
    refine h.of_not_enabled ?_ he
    have hnot := hi.op_not_mem
    cases i with
    | evTxComplete => simp [enabled, h.irq]
    | hwTxDone => simp [enabled, h.inflight]
    | _ => simp [Instr.op, txActivity, sendWriters] at hact hnot

/-! ### What a send has queued -/

/-- `c` is `b` after puts of the bytes `l`, those that fit: nothing has left the buffer. -/
structure Queued (cap : Nat) (b : Cb) (l : List Byte) (c : Cb) : Prop where
  inv : BufferInv cap c
  head : c.head = b.head
  unread : c.unread cap = b.unread cap ++ l.take (b.free cap)

section Queue
variable {cap : Nat} {b c d : Cb} {l : List Byte}

theorem queued_nil (hb : BufferInv cap b) : Queued cap b [] b := ⟨hb, rfl, by simp⟩

/-- The buffer is full exactly when its free space before has been used up. -/
theorem Queued.full_iff (hb : BufferInv cap b) (h : Queued cap b l c) : c.full = true ↔ b.free cap ≤ l.length := by
  have hlen := congrArg List.length h.unread
  simp only [List.length_append, List.length_take, unread_length] at hlen
  have hsum := free_add_count hb
  rw [← count_eq_cap_iff h.inv]
  omega

/-- R156: a put that is taken. -/
theorem Queued.put (hb : BufferInv cap b) (h : Queued cap b l c) (hroom : c.full = false) {x : Byte} (hd : BufferInv cap d)
    (hhead : d.head = c.head) (hunread : d.unread cap = c.unread cap ++ [x]) : Queued cap b (l ++ [x]) d := by
  have hfits : l.length < b.free cap := by
    rw [← Nat.not_le, ← h.full_iff hb, hroom]
    simp
  refine ⟨hd, hhead.trans h.head, ?_⟩
  rw [hunread, h.unread, List.take_of_length_le hfits.le, List.take_of_length_le (by simpa using hfits), List.append_assoc]

/-- R156: bytes that find the buffer full are dropped. -/
theorem Queued.drop (hb : BufferInv cap b) (h : Queued cap b l c) (hfull : c.full = true) (m : List Byte) :
    Queued cap b (l ++ m) c := by
  refine ⟨h.inv, h.head, ?_⟩
  rw [h.unread, List.take_append_of_le_length ((h.full_iff hb).mp hfull)]

end Queue

/-! ### How far a send has come -/

/-- The send of the frame `f` that began in `s`, after `k` FRAME_STEPs: the first `k` bytes have been put, or it is over and the buffer has
what fits of the frame. -/
inductive SendStage (s : State) (f : List Byte) (k : Nat) (t : State) : Prop where
  | goesOn (busy : t.frBusy = true) (seq : t.frSeq = f) (pos : t.frPos = k) (more : k < f.length)
      (queued : Queued s.cfg.cap s.tx (f.take k) t.tx)
  | ended (idle : t.frBusy = false) (queued : Queued s.cfg.cap s.tx f t.tx)

/-- A stage of the send in a run that goes on under the same configuration. -/
structure SendAfter (s : State) (f : List Byte) (k : Nat) (t : State) : Prop where
  cfg : t.cfg = s.cfg
  live : t.refused = false
  stage : SendStage s f k t

variable {f : List Byte} {k : Nat}

theorem SendAfter.of_sameSend (h : SendAfter s f k t) (hsame : SameSend t u) : SendAfter s f k u := by
  refine ⟨hsame.cfg.trans h.cfg, hsame.refused.trans h.live, ?_⟩
  cases h.stage with
  | goesOn busy seq pos more queued =>
    exact .goesOn (hsame.busy.trans busy) (hsame.seq.trans seq) (hsame.pos.trans pos) more (hsame.tx ▸ queued)
  | ended idle queued => exact .ended (hsame.busy.trans idle) (hsame.tx ▸ queued)

/-- R156: a FRAME_STEP puts the next byte, and the send ends with the last byte or on a full `tx`. -/
theorem SendAfter.putFrameByte (hs : BufferInv s.cfg.cap s.tx) (h : SendAfter s f k t) (hbusy : t.frBusy = true) :
    SendAfter s f (k + 1) (putFrameByte t) := by
  obtain ⟨hcfg, hlive, hstage⟩ := h
  cases hstage with
  | ended idle _ => simp [hbusy] at idle
  | goesOn _ seq pos more queued =>
    have hbyte : f.take k ++ [frameByte t] = f.take (k + 1) := by
      rw [frameByte_of_getElem? (x := f[k]) (by simp [seq, pos, more]), List.take_append_getElem]
    rcases putFrameByte_cases (hcfg ▸ queued.inv) with ⟨hroom, c, hinv, hunread, hhead, -, -, hend⟩ | ⟨hfull, hend⟩
    · rw [hcfg] at hinv hunread
      have hput := queued.put hs hroom hinv hhead hunread
      rw [hbyte] at hput
      rw [seq, pos] at hend
      rcases hend with ⟨hlast, e⟩ | ⟨hmore, e⟩ <;> rw [e]
      · rw [hlast, List.take_length] at hput
        exact ⟨hcfg, hlive, .ended rfl hput⟩
      · exact ⟨hcfg, hlive, .goesOn hbusy rfl rfl (by omega) hput⟩
    · have hdrop := queued.drop hs hfull
      rw [seq, pos] at hend
      rcases hend with ⟨-, e⟩ | ⟨-, hmore, e⟩ <;> rw [e]
      · have hall := hdrop (f.drop k)
        rw [List.take_append_drop] at hall
        exact ⟨hcfg, hlive, .ended rfl hall⟩
      · have hnext := hdrop [frameByte t]
        rw [hbyte] at hnext
        exact ⟨hcfg, hlive, .goesOn hbusy rfl rfl (by omega) hnext⟩

theorem SendAfter.exec_frameStep (hs : BufferInv s.cfg.cap s.tx) (h : SendAfter s f k t) (he : exec .frameStep t = .next u) :
    SendAfter s f (k + 1) u := by
  cases hbusy : t.frBusy with
  | true =>
    rw [exec_frameStep_of_busy h.live hbusy] at he
    exact Host.Outcome.next.inj he ▸ h.putFrameByte hs hbusy
  | false =>
    rw [exec_of_not_enabled (by simp [enabled, hbusy])] at he
    obtain ⟨hcfg, hlive, hstage⟩ := h
    cases hstage with
    | goesOn busy _ _ _ _ => simp [hbusy] at busy
    | ended idle queued => exact Host.Outcome.next.inj he ▸ ⟨hcfg, hlive, .ended idle queued⟩

/-- R158 (2): the stage after any sequence of FRAME_STEPs and steps of other agents in which no byte leaves `tx`. -/
theorem SendAfter.execAll (hs : BufferInv s.cfg.cap s.tx) {l : List Instr} (hl : ∀ i ∈ l, i = .frameStep ∨ BesideSend i)
    (hidle : TxIdle t ∨ Instr.evTxComplete ∉ l) (h : SendAfter s f k t) :
    ∃ u, execAll l t = .next u ∧ SendAfter s f (k + l.count .frameStep) u := by
  induction l generalizing t k with
  | nil => exact ⟨t, rfl, h⟩
  | cons i l ih =>
    obtain ⟨v, he, -⟩ := stepsExactlyWhereEnabled i t
    rw [execAll_cons he]
    obtain ⟨hi, hrest⟩ := List.forall_mem_cons.mp hl
    have hkept : TxIdle v ∨ Instr.evTxComplete ∉ l :=
      hidle.imp (fun h => h.exec hi he) fun h hmem => h (List.mem_cons_of_mem i hmem)
    rcases hi with rfl | hi
    · have hlater := ih hrest hkept (h.exec_frameStep hs he)
      rwa [List.count_cons_self, Nat.add_comm _ 1, ← Nat.add_assoc]
    · have hne : i ≠ .frameStep := by
        rintro rfl
        exact hi.op_not_mem (by decide)
      have hsame := hi.sameSend (hidle.imp_right fun h heq => h (heq ▸ List.mem_cons_self)) he
      rw [List.count_cons_of_ne hne]
      exact ih hrest hkept (h.of_sameSend hsame)

/-- Settles O36: FRAME_SEND begins the send at stage 0, and the stage after the sequence says what `tx` has gained. -/
theorem asImplementedSendQueuesFramePrefix : Obligations.AsImplementedSendQueuesFramePrefix := by
  intro s len payload l hlive hnot hr hpolicy hbuf hlen hl hidle
  have hlength : (frame s.cfg payload).length = len.toNat + 6 := by rw [frame_length, hlen]; rfl
  have hbegin : SendAfter s (frame s.cfg payload) 0
      { s with frSeq := frame s.cfg payload, frPos := 0, frBusy := true, label := .silent } :=
    ⟨rfl, hlive, .goesOn rfl rfl rfl (by omega) (queued_nil hbuf)⟩
  have hrest := hidle.imp_left fun ⟨hlink, hy⟩ => txIdle_of_yielded hlink hy
  obtain ⟨t, hrun, -, -, hstage⟩ := hbegin.execAll hbuf hl
    (hrest.imp_left fun ⟨hinflight, hirq⟩ => ⟨hinflight, hirq⟩)
  rw [execAll_cons ((exec_frameSend_of_ready hlive hnot hr).trans (by rw [sendFrame_of_asImplemented hpolicy hlen]))]
  refine ⟨t, hrun, ?_⟩
  rw [Nat.zero_add] at hstage
  cases hstage with
  | goesOn busy seq pos more queued =>
    rw [hlength] at more
    rw [pos]
    exact ⟨queued.head, fun _ => ⟨more, queued.unread⟩, by simp [busy], fun hsteps => absurd more (Nat.not_lt.mpr hsteps)⟩
  | ended idle queued => exact ⟨queued.head, by simp [idle], fun _ => queued.unread, fun _ => idle⟩

end Sys2Proof.Machine

/-! PROOF. The receive-side parser over whole sequences of bytes (43_rx_frame_parser.md R171, R173, R174): one equation per state of the
transition table, then the bytes of a frame part by part. While the payload comes in, the parser has stored its first bytes
and knows how many are to come; the induction is on the bytes to come. -/
namespace Sys2Proof.Machine
open Sys2Proof.Safety

/-! ### One byte, state by state -/

section Table
variable {q : Parser} (k : Cfg) (x : Byte)

theorem parseByte_awaitHead (h : q.state = .awaitHead) :
    parseByte k q x = ({ q with state := if x = k.headByte then .awaitLength else .awaitHead }, none) := by
  simp only [parseByte, h]
  split
  · rfl
  · rw [← h]

theorem parseByte_awaitLength (h : q.state = .awaitLength) :
    parseByte k q x
      = ({ q with len := x, cnt := 0, acc := 0#8, state := if x = 0#8 then .awaitTail else .awaitPayload }, none) := by
  simp only [parseByte, h]

theorem parseByte_awaitPayload (h : q.state = .awaitPayload) :
    parseByte k q x
      = ({ q with buf := q.buf.set q.cnt x, acc := cksStep q.acc x, cnt := q.cnt + 1,
                  state := if q.cnt + 1 = q.len.toNat then .awaitTail else .awaitPayload }, none) := by
  simp only [parseByte, h]

theorem parseByte_awaitTail (h : q.state = .awaitTail) :
    parseByte k q x = ({ q with state := if x = k.tailByte then .awaitChecksum else .awaitHead }, none) := by
  simp only [parseByte, h]

theorem parseByte_awaitChecksum (h : q.state = .awaitChecksum) :
    parseByte k q x = ({ q with state := if x = q.acc then .awaitCr else .awaitHead }, none) := by
  simp only [parseByte, h]

theorem parseByte_awaitCr (h : q.state = .awaitCr) :
    parseByte k q x = ({ q with state := if x = k.crByte then .awaitLf else .awaitHead }, none) := by
  simp only [parseByte, h]

theorem parseByte_awaitLf (h : q.state = .awaitLf) :
    parseByte k q x = ({ q with state := .awaitHead }, if x = k.lfByte then some q.payload else none) := by
  simp only [parseByte, h]

/-- R173: a payload is emitted at the LF in AWAIT_LF, and nowhere else. -/
theorem parseByte_emits : (parseByte k q x).2 = if q.state = .awaitLf ∧ x = k.lfByte then some q.payload else none := by
  cases h : q.state with
  | awaitLf => simp [parseByte_awaitLf k x h]
  | _ => simp [parseByte, h]

end Table

/-! ### Sequences of bytes -/

section Sequences
variable {k : Cfg} {l m : List Byte} {q r r' : Parser} {out out' : List (List Byte)}

theorem feedParser_cons {x : Byte} {o : Option (List Byte)} (hx : parseByte k q x = (r, o)) (hl : feedParser k l r = (r', out)) :
    feedParser k (x :: l) q = (r', o.toList ++ out) := by
  simp only [feedParser, hx, hl]

theorem feedParser_append (hl : feedParser k l q = (r, out)) (hm : feedParser k m r = (r', out')) :
    feedParser k (l ++ m) q = (r', out ++ out') := by
  induction l generalizing q out with
  | nil =>
    obtain ⟨rfl, rfl⟩ := Prod.mk.inj hl
    exact hm
  | cons x l ih =>
    cases hx : parseByte k q x with
    | mk q' o =>
      rw [feedParser_cons hx rfl] at hl
      obtain ⟨rfl, rfl⟩ := Prod.mk.inj hl
      rw [List.cons_append, feedParser_cons hx (ih rfl), List.append_assoc]

/-- R174: in AWAIT_HEAD the parser skips every byte that is not the head byte. -/
theorem feedParser_of_no_head (hq : q.state = .awaitHead) (hl : ∀ x ∈ l, x ≠ k.headByte) : feedParser k l q = (q, []) := by
  induction l with
  | nil => rfl
  | cons x l ih =>
    obtain ⟨hx, hl⟩ := List.forall_mem_cons.mp hl
    have hskip : parseByte k q x = (q, none) := by rw [parseByte_awaitHead k x hq, if_neg hx, ← hq]
    exact feedParser_cons hskip (ih hl)

end Sequences

/-! ### The payload -/

section Payload
variable {k : Cfg} {p done todo : List Byte} {q : Parser}

/-- The parser in the middle of a payload: it has stored `done` and expects `todo`. -/
structure Collecting (done todo : List Byte) (q : Parser) : Prop where
  inv : ParserInv q
  stored : q.buf.take q.cnt = done
  len : q.len.toNat = (done ++ todo).length
  state : q.state = if todo = [] then .awaitTail else .awaitPayload

theorem Collecting.cnt_le_buf (h : Collecting done todo q) : q.cnt ≤ q.buf.length := by
  obtain ⟨hbuf, hcnt, -⟩ := h.inv
  have := q.len.isLt
  unfold maxPayload at hbuf
  omega

theorem Collecting.cnt_eq (h : Collecting done todo q) : q.cnt = done.length := by
  rw [← h.stored, List.length_take, Nat.min_eq_left h.cnt_le_buf]

/-- R150: the accumulator is the checksum of what has been stored. -/
theorem Collecting.acc_eq (h : Collecting done todo q) : q.acc = cks done := by
  obtain ⟨-, -, -, -, hacc⟩ := h.inv
  rw [hacc, h.stored]

/-- R171: the length byte of a payload starts the collection. -/
theorem parseByte_length_starts (hq : q.state = .awaitLength) (hbuf : q.buf.length = maxPayload) (hp : p.length ≤ maxPayload) :
    ∃ r, parseByte k q (BitVec.ofNat 8 p.length) = (r, none) ∧ Collecting [] p r := by
  have hlen : (BitVec.ofNat 8 p.length).toNat = p.length := by
    unfold maxPayload at hp
    rw [BitVec.toNat_ofNat]
    omega
  have hzero : BitVec.ofNat 8 p.length = 0#8 ↔ p = [] := by
    rw [← BitVec.toNat_inj, hlen]
    exact List.length_eq_zero_iff
  refine ⟨_, parseByte_awaitLength k _ hq, ?_, rfl, hlen, by simp only [hzero]⟩
  refine ⟨hbuf, Nat.zero_le _, fun hs => ?_, fun hs => ?_, rfl⟩ <;> simp only [hzero] at hs ⊢
  · rw [hlen, List.length_pos_iff]
    rintro rfl
    simp at hs
  · rw [hlen, eq_comm, List.length_eq_zero_iff]
    by_contra hnil
    simp [hnil] at hs

/-- R171: each payload byte is stored behind the ones before it. -/
theorem Collecting.storeByte {x : Byte} (h : Collecting done (x :: todo) q) (k : Cfg) :
    ∃ r, parseByte k q x = (r, none) ∧ Collecting (done ++ [x]) todo r := by
  have hstate : q.state = .awaitPayload := h.state
  have hcnt := h.cnt_eq
  have hlen : q.len.toNat = done.length + 1 + todo.length := by
    rw [h.len, List.length_append, List.length_cons]
    omega
  have hroom : q.cnt < q.buf.length := by
    obtain ⟨hbuf, -⟩ := h.inv
    have := q.len.isLt
    unfold maxPayload at hbuf
    omega
  have hnext := parseByte_awaitPayload k x hstate
  have hinv := parseByte_inv h.inv k x
  rw [hnext] at hinv
  refine ⟨_, hnext, hinv, ?_, ?_, ?_⟩
  · show (q.buf.set q.cnt x).take (q.cnt + 1) = done ++ [x]
    rw [List.take_succ_eq_append_getElem (by simpa using hroom), List.take_set_of_le le_rfl, h.stored, List.getElem_set_self]
  · show q.len.toNat = _
    rw [h.len, List.append_assoc, List.singleton_append]
  · have hlast : q.cnt + 1 = q.len.toNat ↔ todo = [] := by
      rw [← List.length_eq_zero_iff]
      omega
    simp only [hlast]

theorem Collecting.feedPayload (h : Collecting done todo q) (k : Cfg) :
    ∃ r, feedParser k todo q = (r, []) ∧ Collecting (done ++ todo) [] r := by
  induction todo generalizing done q with
  | nil => exact ⟨q, rfl, by rwa [List.append_nil]⟩
  | cons x todo ih =>
    obtain ⟨q', hx, hq'⟩ := h.storeByte k
    obtain ⟨r, hl, hr⟩ := ih hq'
    exact ⟨r, feedParser_cons hx hl, by rwa [List.append_assoc, List.singleton_append] at hr⟩

/-- R171: the payload the parser emits is what it has stored of it. -/
theorem Collecting.payload_eq (h : Collecting done [] q) : q.payload = done := by
  have hcnt : q.cnt = q.len.toNat := by rw [h.cnt_eq, h.len, List.append_nil]
  refine List.ext_getElem (by simp [Parser.payload, ← hcnt, h.cnt_eq]) fun i hi _ => ?_
  have hlt : i < q.buf.length := by
    have := h.cnt_le_buf
    simp only [Parser.payload, List.length_map, List.length_range] at hi
    omega
  simp [Parser.payload, Parser.slot, ← h.stored, hlt]

/-- R173: behind a whole payload, the trailer up to the CR leads to AWAIT_LF. -/
theorem Collecting.feedTrailer (h : Collecting done [] q) (k : Cfg) :
    feedParser k [k.tailByte, cks done, k.crByte] q = ({ q with state := .awaitLf }, []) := by
  have htail := parseByte_awaitTail k k.tailByte h.state
  have hcks := parseByte_awaitChecksum (q := { q with state := .awaitChecksum }) k (cks done) rfl
  have hcr := parseByte_awaitCr (q := { q with state := .awaitCr }) k k.crByte rfl
  rw [if_pos rfl] at htail hcr
  rw [if_pos h.acc_eq.symm] at hcks
  exact feedParser_cons htail (feedParser_cons hcks (feedParser_cons hcr rfl))

end Payload

/-! ### The frame -/

section Frame
variable {k : Cfg} {p : List Byte} {q : Parser}

/-- A frame up to its last byte. -/
def frameBody (k : Cfg) (p : List Byte) : List Byte :=
  [k.headByte, BitVec.ofNat 8 p.length] ++ p ++ [k.tailByte, cks p, k.crByte]

theorem frame_eq_frameBody_append (k : Cfg) (p : List Byte) : frame k p = frameBody k p ++ [k.lfByte] := by
  simp [frame, frameBody]

theorem frameBody_length (k : Cfg) (p : List Byte) : (frameBody k p).length = p.length + 5 := by
  simp [frameBody]

/-- R174: before its LF a frame emits nothing, and then the parser holds its payload. -/
theorem feedParser_frameBody (hq : q.state = .awaitHead) (hbuf : q.buf.length = maxPayload) (hp : p.length ≤ maxPayload) :
    ∃ r, feedParser k (frameBody k p) q = (r, []) ∧ r.state = .awaitLf ∧ r.payload = p := by
  have hhead := parseByte_awaitHead k k.headByte hq
  rw [if_pos rfl] at hhead
  obtain ⟨c, hlength, hc⟩ := parseByte_length_starts (q := { q with state := .awaitLength }) (k := k) rfl hbuf hp
  obtain ⟨d, hpayload, hd⟩ := hc.feedPayload k
  have hstart : feedParser k [k.headByte, BitVec.ofNat 8 p.length] q = (c, []) :=
    feedParser_cons hhead (feedParser_cons hlength rfl)
  exact ⟨_, feedParser_append (feedParser_append hstart hpayload) (hd.feedTrailer k), rfl, hd.payload_eq⟩

/-- R173: the LF of a frame emits the payload that the parser holds. -/
theorem parseByte_lf (hq : q.state = .awaitLf) (hp : q.payload = p) :
    parseByte k q k.lfByte = ({ q with state := .awaitHead }, some p) := by
  rw [parseByte_awaitLf k k.lfByte hq, if_pos rfl, hp]

end Frame

/-- Settles O38: up to its LF the frame makes the parser collect `p`, and the LF emits it. -/
theorem parserInvertsFrame : Obligations.ParserInvertsFrame := by
  intro k q hq hbuf
  refine ⟨fun p hp => ?_, fun l => feedParser_of_no_head hq⟩
  obtain ⟨r, hbody, hr, hpayload⟩ := feedParser_frameBody (k := k) hq hbuf hp
  have hframe := feedParser_append (m := [k.lfByte]) hbody (feedParser_cons (parseByte_lf hr hpayload) rfl)
  rw [frame_eq_frameBody_append, hframe]
  exact ⟨rfl, rfl⟩

end Sys2Proof.Machine

/-! PROOF. PARSER_STEP on the machine (43_rx_frame_parser.md R171, R174): one step feeds the parser the oldest byte of `rx`, so a run of them
over the bytes `l` does to the parser what `feedParser` does over `l`. -/
namespace Sys2Proof.Machine
open Sys2Proof.Safety

variable {s : State} {x : Byte} {rest : List Byte}

/-! ### One step -/

/-- R171: the result of a PARSER_STEP that consumed a byte. -/
def parseResult : Option (List Byte) → Result
  | some p => .frame p
  | none => .ok

/-- The state `s` after PARSER_STEP has fed the parser a byte: `rx` is then `c`, and `out` is what the parser answered. -/
def State.parsed (s : State) (c : Cb) (out : Parser × Option (List Byte)) : State :=
  { s with rx := c, ps := out.1, rxFrames := s.rxFrames ++ out.2.toList, label := .ret (parseResult out.2) }

theorem exec_parserStep_of_empty (hlive : s.refused = false) (hidle : s.frBusy = false) (hr : s.initState = .ready)
    (hempty : s.rx.empty = true) : exec .parserStep s = .next { s with label := .ret .empty } := by
  rw [exec_parserStep, whenEnabled_whenReady hlive hidle hr, parseNext, cbRead_empty _ hempty]
  rfl

theorem exec_parserStep_of_byte (hlive : s.refused = false) (hidle : s.frBusy = false) (hr : s.initState = .ready)
    (hbuf : BufferInv s.cfg.cap s.rx) (hx : s.rx.unread s.cfg.cap = x :: rest) :
    ∃ c : Cb, exec .parserStep s = .next (s.parsed c (parseByte s.cfg s.ps x)) ∧ BufferInv s.cfg.cap c
      ∧ c.unread s.cfg.cap = rest ∧ c.data = s.rx.data ∧ c.tail = s.rx.tail := by
  rw [exec_parserStep, whenEnabled_whenReady hlive hidle hr]
  rcases parseNext_cases hbuf with ⟨hempty, -⟩ | ⟨-, y, c, hinv, hunread, hdata, htail, -, hstep⟩
  · rw [(unread_eq_nil_iff hbuf).mpr hempty] at hx
    cases hx
  · obtain ⟨rfl, rfl⟩ := List.cons.inj (hunread.symm.trans hx)
    refine ⟨c, ?_, hinv, rfl, hdata, htail⟩
    rcases hstep with ⟨p, hout, e⟩ | ⟨hout, e⟩
    · rw [e, State.parsed, hout]; rfl
    · rw [e, State.parsed, hout, Option.toList_none, List.append_nil]; rfl

theorem Parser.slot_set_self {q : Parser} {i : Nat} (h : i < q.buf.length) : ({ q with buf := q.buf.set i x } : Parser).slot i = x := by
  simp [Parser.slot, h]

theorem Parser.slot_set_ne {q : Parser} {i j : Nat} (h : j ≠ i) : ({ q with buf := q.buf.set i x } : Parser).slot j = q.slot j := by
  simp [Parser.slot, List.getD_eq_getElem?_getD, List.getElem?_set_ne h.symm]

/-- Settles O37: the parser's next fields are `parseByte`'s, read off its equation for each state. -/
theorem parserFollowsTransitionTable : Obligations.ParserFollowsTransitionTable := by
  intro s hlive hidle hr hbuf
  refine ⟨exec_parserStep_of_empty hlive hidle hr, fun x rest hx => ?_⟩
  obtain ⟨c, e, -, hunread, hdata, htail⟩ := exec_parserStep_of_byte hlive hidle hr hbuf hx
  refine ⟨c, (parseByte s.cfg s.ps x).1, hunread, hdata, htail, ?_, ?_⟩
  · rw [e, State.parsed, parseByte_emits]
    split
    · rfl
    · rw [Option.toList_none, List.append_nil]; rfl
  · cases hs : s.ps.state with
    | awaitHead => rw [parseByte_awaitHead _ _ hs]
    | awaitLength => rw [parseByte_awaitLength _ _ hs]
    | awaitPayload =>
      rw [parseByte_awaitPayload _ _ hs]
      exact ⟨rfl, Parser.slot_set_self, fun j => Parser.slot_set_ne⟩
    | awaitTail => rw [parseByte_awaitTail _ _ hs]
    | awaitChecksum => rw [parseByte_awaitChecksum _ _ hs]
    | awaitCr => rw [parseByte_awaitCr _ _ hs]
    | awaitLf => rw [parseByte_awaitLf _ _ hs]

/-! ### A run of steps -/

theorem execAll_append {l m : List Instr} {t : State} (h : execAll l s = .next t) : execAll (l ++ m) s = execAll m t := by
  induction l generalizing s with
  | nil => rw [List.nil_append, Host.Outcome.next.inj h]
  | cons i l ih =>
    cases hi : exec i s with
    | next u =>
      rw [execAll_cons hi] at h
      rw [List.cons_append, execAll_cons hi, ih h]
    | fault f => simp [execAll, hi] at h
    | refused r => simp [execAll, hi] at h

/-- R171: PARSER_STEPs over the oldest bytes `l` of `rx` feed them to the parser, and change nothing else but the records of the payloads
and the label. -/
theorem execAll_parserSteps {l : List Byte} {q : Parser} {out : List (List Byte)} (hlive : s.refused = false)
    (hidle : s.frBusy = false) (hr : s.initState = .ready) (hbuf : BufferInv s.cfg.cap s.rx)
    (hl : s.rx.unread s.cfg.cap = l ++ rest) (hfeed : feedParser s.cfg l s.ps = (q, out)) :
    ∃ (c : Cb) (lab : Label), execAll (List.replicate l.length .parserStep) s
        = .next { s with rx := c, ps := q, rxFrames := s.rxFrames ++ out, label := lab }
      ∧ BufferInv s.cfg.cap c ∧ c.unread s.cfg.cap = rest := by
  induction l generalizing s out with
  | nil =>
    obtain ⟨rfl, rfl⟩ := Prod.mk.inj hfeed
    exact ⟨s.rx, s.label, by rw [List.append_nil]; rfl, hbuf, hl⟩
  | cons x l ih =>
    obtain ⟨rfl, rfl⟩ := Prod.mk.inj hfeed
    obtain ⟨c, e, hinv, hunread, -, -⟩ := exec_parserStep_of_byte hlive hidle hr hbuf hl
    obtain ⟨d, lab, hrun, hd⟩ := ih (s := s.parsed c (parseByte s.cfg s.ps x)) hlive hidle hr hinv hunread rfl
    refine ⟨d, lab, ?_, hd⟩
    rw [List.length_cons, List.replicate_succ, execAll_cons e, hrun, State.parsed, List.append_assoc]

/-- Settles O39: the steps up to the frame's LF emit nothing and leave the parser holding `p`; the step over the LF answers FRAME(p). -/
theorem parserStepsEmitFrame : Obligations.ParserStepsEmitFrame := by
  intro s p rest hinv hlive hidle hr hq hp hl
  obtain ⟨hpsbuf, -⟩ := parserInv_of_inv hinv
  obtain ⟨q, hbody, hlf, hpayload⟩ := feedParser_frameBody (k := s.cfg) hq hpsbuf hp
  rw [frame_eq_frameBody_append, List.append_assoc, List.singleton_append] at hl
  obtain ⟨c, lab, hrun, hc, hunread⟩ := execAll_parserSteps hlive hidle hr (bufferInv_rx hinv) hl hbody
  rw [List.append_nil] at hrun
  obtain ⟨d, hlast, -, hrest, -, -⟩ := exec_parserStep_of_byte (s := { s with rx := c, ps := q, label := lab })
    hlive hidle hr hc hunread
  rw [parseByte_lf hlf hpayload] at hlast
  have hsteps := (execAll_append (m := [.parserStep]) hrun).trans (execAll_cons hlast)
  rw [← List.replicate_succ', frameBody_length] at hsteps
  exact ⟨_, hsteps, rfl, rfl, rfl, hrest, rfl, rfl⟩

end Sys2Proof.Machine

/-! PROOF. The touch detector (44_touch_detector.md R190 to R193). The window is a ring whose oldest sample is at `idx`: read from there it is
a queue, of which a later edge drops the oldest sample and to which it adds the elapsed time. -/
namespace Sys2Proof.Machine
open Sys2Proof.Safety

variable {s : State} {k : Cfg} {t : Touch} {c : Channel} {now : Nat}

/-! ### One edge -/

theorem touchEdge_of_first (hf : t.first = true) (hnow : now < 2 ^ k.tsW) :
    touchEdge k t now = { t with prevTs := now, first := false } := by
  simp only [touchEdge, hf, if_true, uN_of_lt hnow]

theorem touchEdge_of_later (hf : t.first = false) (hnow : now < 2 ^ k.tsW) :
    touchEdge k t now = addSample k { t with prevTs := now } (elapsed k t.prevTs now) := by
  simp only [touchEdge, hf, Bool.false_eq_true, if_false, uN_of_lt hnow]

/-- R190: what a later edge does, with exact sums. -/
theorem touchEdge_later_spec (h : TouchInv k t) (hf : t.first = false) (hnow : now < 2 ^ k.tsW) :
    TouchInv k (touchEdge k t now) ∧ (touchEdge k t now).win = t.win.set t.idx (elapsed k t.prevTs now)
      ∧ (touchEdge k t now).sum + t.slot t.idx = t.sum + elapsed k t.prevTs now
      ∧ touchEdge k t now = { t with
          prevTs := now, win := (touchEdge k t now).win, sum := (touchEdge k t now).sum, idx := nextIndex k.winN t.idx
          avg := (touchEdge k t now).avg } := by
  obtain ⟨hwin, hidx, hsum, havg, hsamples, -⟩ := h
  obtain ⟨hinv, hset, hmove, -⟩ := addSample_spec (t := { t with prevTs := now }) ⟨hwin, hidx, hsum, havg, hsamples, hnow⟩
    (elapsed_lt k t.prevTs now)
  rw [touchEdge_of_later hf hnow]
  exact ⟨hinv, hset, hmove, rfl⟩

theorem Touch.slot_of_win_set_self {u : Touch} {i d : Nat} (h : u.win = t.win.set i d) (hi : i < t.win.length) : u.slot i = d := by
  simp [Touch.slot, h, hi]

theorem Touch.slot_of_win_set_ne {u : Touch} {i j d : Nat} (h : u.win = t.win.set i d) (hj : j ≠ i) : u.slot j = t.slot j := by
  simp [Touch.slot, h, List.getD_eq_getElem?_getD, List.getElem?_set_ne hj.symm]

/-! ### On the machine -/

theorem exec_evTouchEdge_of_chan (hlive : s.refused = false) (ht : s.chan c = some t) (now : Nat) :
    exec (.evTouchEdge c now) s
      = .next { s with touch := s.touch.set c.index (touchEdge s.cfg t now), label := .silent } := by
  rw [exec_evTouchEdge, whenEnabled_true (by simp [live_of hlive, State.hasChan, ht]), edgeOn_some ht]
  rfl

theorem exec_evTouchEdge_of_no_chan (ht : s.chan c = none) (now : Nat) :
    exec (.evTouchEdge c now) s = .next { s with label := .noStep } := by
  rw [exec_evTouchEdge, whenEnabled_false (by simp [State.hasChan, ht])]
  rfl

theorem exec_touchIsTouched_of_chan (hlive : s.refused = false) (hidle : s.frBusy = false) (ht : s.chan c = some t) :
    exec (.touchIsTouched c) s
      = .next { s with
          touch := s.touch.set c.index (touchPoll s.cfg c t), label := .ret (.bool (touchPoll s.cfg c t).touched) } := by
  rw [exec_touchIsTouched, whenEnabled_true (by simp [appMay_of hlive hidle, State.hasChan, ht]), pollOn_some ht]
  rfl

theorem exec_touchIsTouched_of_no_chan (ht : s.chan c = none) :
    exec (.touchIsTouched c) s = .next { s with label := .noStep } := by
  rw [exec_touchIsTouched, whenEnabled_false (by simp [State.hasChan, ht])]
  rfl

/-- R192: a poll stores the comparison, whatever was stored before. -/
theorem touchPoll_eq (k : Cfg) (c : Channel) (t : Touch) :
    touchPoll k c t = { t with touched := decide (thresh k c ≤ t.avg) } := by
  rw [touchPoll, touchedAfterPoll_eq]

theorem thresh_of_lt (h : c.index < k.nCh) : thresh k c = (k.thresh[c.index]).toNat := by
  simp only [thresh, Vector.getElem?_eq_getElem h]

/-- Settles O40: the first edge is `touchEdge_of_first`, a later one `touchEdge_later_spec`. -/
theorem touchEdgeUpdatesWindow : Obligations.TouchEdgeUpdatesWindow := by
  intro s c now hlive hnow
  refine ⟨fun t ht hinv => ⟨fun hf => ?_, fun hf => ?_⟩, fun ht => exec_evTouchEdge_of_no_chan ht now⟩
  · rw [exec_evTouchEdge_of_chan hlive ht, touchEdge_of_first hf hnow]
  · obtain ⟨hinv', hset, hmove, hframe⟩ := touchEdge_later_spec hinv hf hnow
    obtain ⟨hwin, hidx, -, -, -, hprev⟩ := hinv
    have hself := Touch.slot_of_win_set_self hset (hidx.trans_eq hwin.symm)
    have ⟨_, _, _, havg, _⟩ := hinv'
    refine ⟨_, exec_evTouchEdge_of_chan hlive ht now, hframe, ?_, fun j => Touch.slot_of_win_set_ne hset, ?_, havg, hinv'⟩
    · rw [hself, elapsed_eq hprev]
    · rw [hself, hmove]

/-- Settles O41. -/
theorem touchPollComparesAverage : Obligations.TouchPollComparesAverage := by
  intro s c hlive hidle
  refine ⟨fun t ht => ?_, exec_touchIsTouched_of_no_chan, thresh_of_lt⟩
  rw [exec_touchIsTouched_of_chan hlive hidle ht, touchPoll_eq]

/-! ### The window as a queue -/

/-- The samples of a channel's window, newest first: `idx` is where the oldest one stands. -/
def Touch.recent (t : Touch) : List Nat := (t.win.rotate t.idx).reverse

theorem Touch.recent_length (t : Touch) : t.recent.length = t.win.length := by
  simp [Touch.recent]

theorem Touch.recent_sum (t : Touch) : t.recent.sum = t.win.sum := by
  rw [Touch.recent, List.sum_reverse, (List.rotate_perm t.win t.idx).sum_eq]

/-- Read from one place further on, a ring whose entry at `i` was replaced has lost its oldest entry and gained a newest one. -/
theorem rotate_set_nextIndex {w : List Nat} {i : Nat} (d : Nat) (hi : i < w.length) :
    (w.set i d).rotate (nextIndex w.length i) = (w.rotate i ++ [d]).tail := by
  have hmod : (w.set i d).rotate (nextIndex w.length i) = (w.set i d).rotate (i + 1) := by
    rw [nextIndex, ← List.length_set (as := w) (i := i) (a := d), List.rotate_mod]
  rw [hmod, List.rotate_eq_drop_append_take (by simpa using hi), List.rotate_eq_drop_append_take hi.le,
    List.drop_set_of_lt (Nat.lt_succ_self i), List.drop_eq_getElem_cons hi, List.cons_append, List.cons_append, List.tail_cons,
    List.append_assoc, List.take_succ_eq_append_getElem (by simpa using hi), List.take_set_of_le le_rfl, List.getElem_set_self]

/-- R190: a later edge pushes the elapsed time to the front and lets the oldest sample go. -/
theorem touchEdge_recent (h : TouchInv k t) (hf : t.first = false) (hnow : now < 2 ^ k.tsW) :
    (touchEdge k t now).recent = (elapsed k t.prevTs now :: t.recent).take k.winN := by
  obtain ⟨-, hset, -, hframe⟩ := touchEdge_later_spec h hf hnow
  obtain ⟨hwin, hidx, -⟩ := h
  have hnext : (touchEdge k t now).idx = nextIndex k.winN t.idx := by rw [hframe]
  have hlen : t.recent.length = k.winN := t.recent_length.trans hwin
  calc (touchEdge k t now).recent
      = (t.win.rotate t.idx ++ [elapsed k t.prevTs now]).tail.reverse := by
        rw [Touch.recent, hset, hnext, ← hwin, rotate_set_nextIndex _ (hidx.trans_eq hwin.symm)]
    _ = (elapsed k t.prevTs now :: t.recent).dropLast := by
        rw [← List.dropLast_reverse, List.reverse_append]; rfl
    _ = (elapsed k t.prevTs now :: t.recent).take k.winN := by
        rw [List.dropLast_eq_take, List.length_cons, hlen, Nat.add_sub_cancel]

/-- R193: edges after the first leave the last `WIN_N` samples in the window, the elapsed times before the older ones. -/
theorem feedEdges_recent {times : List Nat} (h : TouchInv k t) (hf : t.first = false) (htimes : ∀ x ∈ times, x < 2 ^ k.tsW) :
    (feedEdges k t times).recent = ((deltas k t.prevTs times).reverse ++ t.recent).take k.winN := by
  induction times generalizing t with
  | nil =>
    obtain ⟨hwin, -⟩ := h
    exact (List.take_of_length_le (t.recent_length.trans hwin).le).symm
  | cons now l ih =>
    obtain ⟨hnow, hl⟩ := List.forall_mem_cons.mp htimes
    obtain ⟨hinv, -, -, hframe⟩ := touchEdge_later_spec h hf hnow
    have hfirst : (touchEdge k t now).first = false := by rw [hframe, hf]
    have hprev : (touchEdge k t now).prevTs = now := by rw [hframe]
    calc (feedEdges k t (now :: l)).recent
        = (feedEdges k (touchEdge k t now) l).recent := rfl
      _ = ((deltas k now l).reverse ++ (elapsed k t.prevTs now :: t.recent).take k.winN).take k.winN := by
          rw [ih hinv hfirst hl, hprev, touchEdge_recent h hf hnow]
      _ = ((deltas k now l).reverse ++ elapsed k t.prevTs now :: t.recent).take k.winN := by
          rw [List.take_append, List.take_append, List.take_take, Nat.min_eq_left (Nat.sub_le _ _)]
      _ = ((deltas k t.prevTs (now :: l)).reverse ++ t.recent).take k.winN := by
          rw [deltas, List.reverse_cons, List.append_assoc, List.singleton_append]

theorem feedEdges_inv {times : List Nat} (h : TouchInv k t) : TouchInv k (feedEdges k t times) := by
  induction times generalizing t with
  | nil => exact h
  | cons now l ih => exact ih (touchEdge_inv h now)

/-! ### From the reset values -/

/-- A channel at reset after a first edge at the clock reading `now`. -/
def baselineAt (k : Cfg) (now : Nat) : Touch := { Touch.afterReset k.winN now with first := false }

/-- R190: at the first edge the channel forgets the `prev_ts` it was reset with. -/
theorem touchEdge_afterReset (prev : Nat) (hnow : now < 2 ^ k.tsW) :
    touchEdge k (Touch.afterReset k.winN prev) now = baselineAt k now :=
  touchEdge_of_first rfl hnow

theorem baselineAt_recent (k : Cfg) (now : Nat) : (baselineAt k now).recent = List.replicate k.winN 0 := by
  simp only [Touch.recent, baselineAt, Touch.afterReset, List.rotate_zero, List.reverse_replicate]

theorem sum_take_append_zeros (l : List Nat) (n m : Nat) : ((l ++ List.replicate m 0).take n).sum = (l.take n).sum := by
  simp [List.take_append, List.take_replicate]

/-- Settles O42: after the first edge the window holds zeros, and the edges after it push their elapsed times into it. -/
theorem touchAverageIsWindowMean : Obligations.TouchAverageIsWindowMean := by
  intro k prev t0 times hvalid ht0 htimes
  obtain ⟨-, hpos, -⟩ := (cfg_valid_iff k).mp hvalid
  have hbase : TouchInv k (baselineAt k t0) := touchInv_afterReset hpos ht0
  obtain ⟨-, -, hsum, havg, -⟩ := feedEdges_inv (times := times) hbase
  have hrecent : (feedEdges k (baselineAt k t0) times).recent
      = ((deltas k t0 times).reverse ++ List.replicate k.winN 0).take k.winN := by
    rw [feedEdges_recent hbase rfl htimes, baselineAt_recent]
    rfl
  calc (feedEdges k (Touch.afterReset k.winN prev) (t0 :: times)).avg
      = (feedEdges k (baselineAt k t0) times).avg := by rw [← touchEdge_afterReset prev ht0]; rfl
    _ = (feedEdges k (baselineAt k t0) times).recent.sum / k.winN := by rw [havg, hsum, Touch.recent_sum]
    _ = ((deltas k t0 times).reverse.take k.winN).sum / k.winN := by rw [hrecent, sum_take_append_zeros]

end Sys2Proof.Machine

/-! PROOF. The quadrature decoder and the button (45_quadrature_decoder.md R210 to R219): the lap reset does nothing to a count in its
range, so edges of one class move the count evenly as long as it stays there. -/
namespace Sys2Proof.Machine
open Sys2Proof.Safety

variable {s : State} {limit div : Nat} {count : Int}

/-! ### The transition's class and the lap reset -/

/-- R211, with membership in R81's sets written out. -/
theorem qdelta_eq (p n : Pins) :
    qdelta p n =
      if (p = 0b00#2 ∧ n = 0b01#2) ∨ (p = 0b01#2 ∧ n = 0b11#2) ∨ (p = 0b11#2 ∧ n = 0b10#2) ∨ (p = 0b10#2 ∧ n = 0b00#2) then 1
      else if (p = 0b00#2 ∧ n = 0b10#2) ∨ (p = 0b10#2 ∧ n = 0b11#2) ∨ (p = 0b11#2 ∧ n = 0b01#2) ∨ (p = 0b01#2 ∧ n = 0b00#2) then -1
      else 0 := by
  simp only [qdelta, fwd, rev, List.mem_cons, Prod.mk.injEq, List.not_mem_nil, or_false]

theorem qdelta_bounds (p n : Pins) : -1 ≤ qdelta p n ∧ qdelta p n ≤ 1 := by
  unfold qdelta
  split_ifs <;> decide

theorem lap_of_beyond (h : count ≤ -(limit : Int) ∨ count ≥ (limit : Int)) : lap limit count = 0 := if_pos h

theorem lap_of_inv (h : EncoderInv limit count) : lap limit count = count := if_neg (by omega)

/-- R210, R214: one transition takes a count in its range at most to the limit itself, so the lap reset acts exactly there. -/
theorem lap_add_of_inv {d : Int} (h : EncoderInv limit count) (hd : -1 ≤ d ∧ d ≤ 1) :
    lap limit (count + d) = if count + d = (limit : Int) ∨ count + d = -(limit : Int) then 0 else count + d := by
  split
  next hat => exact lap_of_beyond (by omega)
  next hoff => exact lap_of_inv (by omega)

/-- Settles O43. -/
theorem quadratureDeltaClasses : Obligations.QuadratureDeltaClasses := qdelta_eq

/-- Settles O44: a count strictly between the limits is one in its range (`lap_of_inv`). -/
theorem lapResetsToZero : Obligations.LapResetsToZero :=
  ⟨fun _ _ => ⟨lap_of_beyond, fun hin => lap_of_inv (by omega)⟩, rfl, fun _ => lap_of_beyond⟩

/-! ### The position -/

/-- R213: truncation toward zero divides the magnitudes. -/
theorem abs_position (div : Nat) (count : Int) : |position div count| = ((count.natAbs / div : Nat) : Int) := by
  rw [position, Int.abs_eq_natAbs, Int.natAbs_tdiv, Int.natAbs_natCast]
  rfl

/-- R213 (a), (b). -/
theorem abs_position_bounds (hdiv : 1 ≤ div) (count : Int) :
    (div : Int) * |position div count| ≤ |count| ∧ |count| < (div : Int) * (|position div count| + 1) := by
  have hle : div * (count.natAbs / div) ≤ count.natAbs := Nat.mul_div_le _ _
  have hlt : count.natAbs < div * (count.natAbs / div + 1) := Nat.lt_mul_div_succ _ hdiv
  rw [abs_position, Int.abs_eq_natAbs]
  exact ⟨by exact_mod_cast hle, by exact_mod_cast hlt⟩

/-- R213 (c): the position never has the sign opposite to the count's. -/
theorem position_mul_count_nonneg (div : Nat) (count : Int) : 0 ≤ position div count * count := by
  rcases le_total 0 count with hpos | hneg
  · exact mul_nonneg (Int.tdiv_nonneg hpos (Int.natCast_nonneg div)) hpos
  · have hquot : 0 ≤ position div (-count) := Int.tdiv_nonneg (by omega) (Int.natCast_nonneg div)
    rw [position, Int.neg_tdiv] at hquot
    exact mul_nonneg_of_nonpos_of_nonpos (Int.neg_nonneg.mp hquot) hneg

/-- Settles O47: the default range follows from the bound on the magnitude. -/
theorem positionRangeAndTruncation : Obligations.PositionRangeAndTruncation := by
  intro limit div count hdiv hinv
  obtain ⟨hle, hlt⟩ := abs_position_bounds hdiv count
  refine ⟨hle, hlt, position_mul_count_nonneg div count, ?_⟩
  rintro rfl rfl
  have hcount : |count| ≤ 95 := abs_le.mpr hinv
  exact abs_le.mp (show |position 4 count| ≤ 23 by omega)

/-! ### On the machine -/

theorem exec_evEncEdge_of_live (hlive : s.refused = false) (ab : Pins) :
    exec (.evEncEdge ab) s
      = .next { s with encCount := lap s.cfg.encLimit (s.encCount + qdelta s.encLast ab), encLast := ab, label := .silent } := by
  rw [exec_evEncEdge, whenEnabled_true (live_of hlive)]
  rfl

/-- Settles O45: the edge's lap reset is `lap_add_of_inv`, and any lap reset ends in the range (`lap_inv`). -/
theorem encoderEdgeCountsAndLaps : Obligations.EncoderEdgeCountsAndLaps := by
  intro s ab hlive hlimit hinv
  exact ⟨_, exec_evEncEdge_of_live hlive ab, lap_inv hlimit _, lap_add_of_inv hinv (qdelta_bounds _ _)⟩

/-- Settles O46: each of the four is enabled, and its effect is the stated update. -/
theorem encoderAndButtonCommands : Obligations.EncoderAndButtonCommands := by
  intro s hlive
  refine ⟨?_, fun hidle => ⟨?_, ?_, ?_⟩⟩
  · rw [exec_evBtnPress, whenEnabled_true (live_of hlive)]
    rfl
  · rw [exec_encGetPosition, whenEnabled_true (appMay_of hlive hidle)]
    rfl
  · rw [exec_encResetPosition, whenEnabled_true (appMay_of hlive hidle)]
    rfl
  · rw [exec_encButtonPressed, whenEnabled_true (appMay_of hlive hidle)]
    rfl

/-! ### Edges of one class -/

/-- R210: an edge of the class `d` that keeps the count in its range adds `d`. -/
theorem exec_evEncEdge_of_class {d : Int} {ab : Pins} (hlive : s.refused = false) (hclass : qdelta s.encLast ab = d)
    (hstay : EncoderInv s.cfg.encLimit (s.encCount + d)) :
    exec (.evEncEdge ab) s = .next { s with encCount := s.encCount + d, encLast := ab, label := .silent } := by
  rw [exec_evEncEdge_of_live hlive, hclass, lap_of_inv hstay]

/-- R210: edges that all have the class `d` add `d` each, as long as the count stays in its range all the way. -/
theorem execAll_evEncEdge_of_class {d : Int} {ab : Pins} {l : List Pins} (hlive : s.refused = false)
    (hclass : (s.encLast :: ab :: l).IsChain (fun p n => qdelta p n = d))
    (hstay : ∀ k ≤ l.length, EncoderInv s.cfg.encLimit (s.encCount + (k + 1) * d)) :
    execAll ((ab :: l).map .evEncEdge) s
      = .next { s with encCount := s.encCount + (l.length + 1) * d, encLast := l.getLastD ab, label := .silent } := by
  induction l generalizing s ab with
  | nil =>
    obtain ⟨hd, -⟩ := List.isChain_cons_cons.mp hclass
    have hfirst : EncoderInv s.cfg.encLimit (s.encCount + d) := by simpa using hstay 0 le_rfl
    rw [List.map_cons, execAll_cons (exec_evEncEdge_of_class hlive hd hfirst)]
    simp [execAll]
  | cons n l ih =>
    obtain ⟨hd, hrest⟩ := List.isChain_cons_cons.mp hclass
    have hfirst : EncoderInv s.cfg.encLimit (s.encCount + d) := by simpa using hstay 0 (Nat.zero_le _)
    have hshift (k : Int) : s.encCount + d + (k + 1) * d = s.encCount + (k + 1 + 1) * d := by ring
    have hlater (k : Nat) (hk : k ≤ l.length) : EncoderInv s.cfg.encLimit (s.encCount + d + (k + 1) * d) := by
      simpa only [hshift, Nat.cast_succ] using hstay (k + 1) (Nat.succ_le_succ hk)
    rw [List.map_cons, execAll_cons (exec_evEncEdge_of_class hlive hd hfirst),
      ih (s := { s with encCount := s.encCount + d, encLast := ab, label := .silent }) hlive hrest hlater]
    simp only [hshift, List.length_cons, Nat.cast_succ, List.getLastD_cons]

/-- R219: sixteen edges of one class from count 0, back to the pins they began at. -/
theorem execAll_evEncEdge_sixteen {d : Int} {ab : Pins} {l : List Pins} (hlive : s.refused = false) (hcount : s.encCount = 0)
    (hlimit : 16 < s.cfg.encLimit) (hd : d = 1 ∨ d = -1) (hlen : l.length = 15) (hback : l.getLastD ab = s.encLast)
    (hclass : (s.encLast :: ab :: l).IsChain (fun p n => qdelta p n = d)) :
    execAll ((ab :: l).map .evEncEdge) s = .next { s with encCount := 16 * d, label := .silent } := by
  have hstay (k : Nat) (hk : k ≤ l.length) : EncoderInv s.cfg.encLimit (s.encCount + (k + 1) * d) := by
    rcases hd with rfl | rfl <;> constructor <;> omega
  rw [execAll_evEncEdge_of_class hlive hclass hstay, hcount, hlen, hback, zero_add]
  rfl

/-- Settles O48: the sixteen transitions of either direction are all of one class. -/
theorem fullCyclesCountSixteen : Obligations.FullCyclesCountSixteen := by
  intro s hlive hcount hlast hlimit
  refine ⟨?_, ?_, rfl, rfl⟩
  · exact execAll_evEncEdge_sixteen (d := 1) (ab := 0b01#2)
      (l := [0b11#2, 0b10#2, 0b00#2] ++ (List.replicate 3 [0b01#2, 0b11#2, 0b10#2, 0b00#2]).flatten)
      hlive hcount hlimit (.inl rfl) rfl hlast.symm (by rw [hlast]; decide)
  · exact execAll_evEncEdge_sixteen (d := -1) (ab := 0b10#2)
      (l := [0b11#2, 0b01#2, 0b00#2] ++ (List.replicate 3 [0b10#2, 0b11#2, 0b01#2, 0b00#2]).flatten)
      hlive hcount hlimit (.inr rfl) rfl hlast.symm (by rw [hlast]; decide)

end Sys2Proof.Machine

/-! PROOF. Faults and refusals (60_exceptions.md R230 to R236). A refused state has no step. NOT_READY is raised before a transport
command touches the state, and the table of R234 has one row for each place that raises. -/
namespace Sys2Proof.Machine
open Sys2Proof.Safety

variable {s t : State} {i : Instr} {f : FaultRecord}

/-! ### A refused run -/

theorem fetch_of_refused (h : s.refused = true) : fetch s = .ended := if_pos h

theorem enabled_of_refused (h : s.refused = true) (i : Instr) : enabled i s = false := by simp [enabled, h]

/-- Settles O8. -/
theorem refusedRunEnds : Obligations.RefusedRunEnds := by
  intro s h
  exact ⟨by simp only [step, fetch_of_refused h], fun i => exec_of_not_enabled (enabled_of_refused h i)⟩

/-! ### NOT_READY -/

/-- R234: the commands that raise NOT_READY. -/
def IsTransportOp (o : Op) : Prop := o = .uartPut ∨ o = .uartGet ∨ o = .uartPump ∨ o = .frameSend ∨ o = .parserStep

/-- R21, R234: a transport command's effect stands behind both checks. -/
theorem exec_transport_guarded (hop : IsTransportOp i.op) (s : State) :
    ∃ t, exec i s = whenEnabled s.appMay s (whenReady i.op s t) := by
  cases i with
  | uartPut d => exact ⟨_, exec_uartPut s d⟩
  | uartGet => exact ⟨_, exec_uartGet s⟩
  | uartPump => exact ⟨_, exec_uartPump s⟩
  | frameSend len payload => exact ⟨_, exec_frameSend s len payload⟩
  | parserStep => exact ⟨_, exec_parserStep s⟩
  | _ => simp [IsTransportOp, Instr.op] at hop

/-- Settles O26: where the first check passes and the second does not, what the command would do is not reached. -/
theorem notReadyIsPrecise : Obligations.NotReadyIsPrecise := by
  intro s i hlive hidle hnot hop
  obtain ⟨t, he⟩ := exec_transport_guarded hop s
  rw [he, whenEnabled_true (appMay_of hlive hidle), whenReady_notReady hnot]
  rfl

/-! ### The fault table -/

/-- R234: the table's row for `f`, raised by `i` in `s`. -/
def FaultRow (s : State) (i : Instr) (f : FaultRecord) : Prop :=
  (f.code = .notReady ∧ f.code.number = 1 ∧ s.initState ≠ .ready ∧ f.info = .mnemonic i.op ∧ IsTransportOp i.op)
  ∨ (f.code = .initFailed ∧ f.code.number = 2 ∧ i = .uartInit ∧ s.initState = .uninit ∧ s.drawBool = false ∧ f.info = .none)
  ∨ (f.code = .badLength ∧ f.code.number = 3 ∧ ∃ len payload, i = .frameSend len payload ∧ len.toNat ≠ payload.length
      ∧ f.info = .lengths len payload.length)
  ∨ (f.code = .rxLost ∧ f.code.number = 4 ∧ i = .evRxComplete ∧ s.rx.full = true ∧ f.info = .byte s.rxData)

/-- R231: the record's operation is the raiser, and the table has a row for it. -/
def RaisedBy (s : State) (i : Instr) (f : FaultRecord) : Prop := f.op = i.op ∧ FaultRow s i f

/-- From `s` to `t` no record is lost, and each one added is raised by `i` in `s`. -/
def FaultsFollow (s : State) (i : Instr) (t : State) : Prop :=
  (∀ f ∈ s.faults, f ∈ t.faults) ∧ ∀ f ∈ t.faults, f ∉ s.faults → RaisedBy s i f

theorem FaultsFollow.of_eq (h : t.faults = s.faults) : FaultsFollow s i t :=
  ⟨fun _ hf => h ▸ hf, fun _ hf hnew => absurd (h ▸ hf) hnew⟩

/-- R232: raising adds the one record. -/
theorem FaultsFollow.of_add (h : t.faults = (s.addFault f).faults) (hrow : RaisedBy s i f) : FaultsFollow s i t := by
  have hmem (g : FaultRecord) : g ∈ t.faults ↔ g ∈ s.faults ∨ g = f := by rw [h, mem_addFault]
  refine ⟨fun g hg => (hmem g).mpr (.inl hg), fun g hg hnew => ?_⟩
  obtain rfl : g = f := ((hmem g).mp hg).resolve_left hnew
  exact hrow

theorem raisedBy_notReady (hnot : s.initState ≠ .ready) (hop : IsTransportOp i.op) :
    RaisedBy s i ⟨.notReady, i.op, .mnemonic i.op⟩ :=
  ⟨rfl, .inl ⟨rfl, rfl, hnot, rfl, hop⟩⟩

theorem raisedBy_initFailed (hu : s.initState = .uninit) (hd : s.drawBool = false) :
    RaisedBy s .uartInit ⟨.initFailed, .uartInit, .none⟩ :=
  ⟨rfl, .inr (.inl ⟨rfl, rfl, rfl, hu, hd, rfl⟩)⟩

theorem raisedBy_badLength {len : Byte} {payload : List Byte} (hlen : len.toNat ≠ payload.length) :
    RaisedBy s (.frameSend len payload) ⟨.badLength, .frameSend, .lengths len payload.length⟩ :=
  ⟨rfl, .inr (.inr (.inl ⟨rfl, rfl, len, payload, rfl, hlen, rfl⟩))⟩

theorem raisedBy_rxLost (hfull : s.rx.full = true) : RaisedBy s .evRxComplete ⟨.rxLost, .evRxComplete, .byte s.rxData⟩ :=
  ⟨rfl, .inr (.inr (.inr ⟨rfl, rfl, rfl, hfull, rfl⟩))⟩

/-- R234: a transport command on a link that is not up raises NOT_READY; on one that is up, what it does is what counts. -/
theorem faultsFollow_whenReady (hop : IsTransportOp i.op) (ht : FaultsFollow s i t) : FaultsFollow s i (whenReady i.op s t) :=
  whenReady_elim (fun hnot => .of_add rfl (raisedBy_notReady hnot hop)) fun _ => ht

theorem faultsFollow_initLink (s : State) : FaultsFollow s .uartInit (initLink s) := by
  rcases initLink_cases s with ⟨-, e⟩ | ⟨-, e⟩ | ⟨-, -, e⟩ | ⟨hu, hd, e⟩ <;> rw [e]
  · exact .of_eq rfl
  · exact .of_eq rfl
  · exact .of_eq rfl
  · exact .of_add rfl (raisedBy_initFailed hu hd)

/-- R154: a send whose length is right raises nothing. -/
theorem sendFrame_faults {len : Byte} {payload : List Byte} (hlen : len.toNat = payload.length) :
    (sendFrame len payload s).faults = s.faults := by
  rw [sendFrame, if_pos hlen]
  cases s.cfg.sendPolicy with
  | asImplemented => rfl
  | twoPhase =>
    show (sendTwoPhase len payload s).faults = s.faults
    unfold sendTwoPhase
    split <;> rfl

theorem faultsFollow_sendFrame (len : Byte) (payload : List Byte) (s : State) :
    FaultsFollow s (.frameSend len payload) (sendFrame len payload s) := by
  by_cases hlen : len.toNat = payload.length
  · exact .of_eq (sendFrame_faults hlen)
  · rw [sendFrame_of_wrong_length hlen]
    exact .of_add rfl (raisedBy_badLength hlen)

theorem faultsFollow_rxComplete (s : State) : FaultsFollow s .evRxComplete (rxComplete s) := by
  cases hf : s.rx.full with
  | false =>
    obtain ⟨d, a, e⟩ := rxContinue_frame { s with rxIrq := false, rx := (cbWrite s.cfg.cap s.rx s.rxData).2 }
    rw [rxComplete_of_room hf, e]
    exact .of_eq rfl
  | true =>
    rw [rxComplete_of_full hf]
    exact .of_add rfl (raisedBy_rxLost hf)

/-- Settles O56: the instructions that can write `faults` are O55's; each either leaves them or raises one record of the table. -/
theorem faultRecordsFollowFaultTable : Obligations.FaultRecordsFollowFaultTable := by
  intro s t i he hreset
  show FaultsFollow s i t
  by_cases hsame : t.faults = s.faults
  · exact .of_eq hsame
  obtain ⟨-, -, -, -, -, -, -, -, -, -, -, -, -, -, hwriters, -⟩ := stateChangesOnlyByItsWriters s t i he hreset
  have hop := hwriters hsame
  refine exec_elim (P := FaultsFollow s i) he (fun _ => .of_eq rfl) fun _ => ?_
  cases i with
  | uartInit => exact faultsFollow_initLink s
  | uartPut d => exact faultsFollow_whenReady (i := .uartPut d) (.inl rfl) (.of_eq rfl)
  | uartGet => exact faultsFollow_whenReady (i := .uartGet) (.inr (.inl rfl)) (.of_eq rfl)
  | uartPump =>
    obtain ⟨d, c, o, d', a, e, -⟩ := pump_frame s
    exact faultsFollow_whenReady (i := .uartPump) (.inr (.inr (.inl rfl))) (.of_eq (by rw [e]))
  | frameSend len payload =>
    exact faultsFollow_whenReady (i := .frameSend len payload) (.inr (.inr (.inr (.inl rfl)))) (faultsFollow_sendFrame len payload s)
  | parserStep =>
    obtain ⟨c, p, fs, r, e, -⟩ := parseNext_frame s
    exact faultsFollow_whenReady (i := .parserStep) (.inr (.inr (.inr (.inr rfl)))) (.of_eq (by rw [e]))
  | evRxComplete => exact faultsFollow_rxComplete s
  | _ => simp [Instr.op] at hop

end Sys2Proof.Machine

/-! PROOF. Handlers of different agents commute (60_exceptions.md R242). Each handler's effect is written as one update of the fields that
its agent owns, whose new values read no field another handler owns; so two of them are updates of different fields, or of different
touch channels. -/
namespace Sys2Proof.Machine
open Sys2Proof.Safety

variable {s : State} {i j : Instr}

/-! ### Each handler as one update -/

/-- R125, R126, R190, R210, R216: what each handler does where it is enabled; `handlerUpdate_eq_effect` ties it to the model. -/
def handlerUpdate (i : Instr) (s : State) : State :=
  match i with
  | .evTxComplete =>
    { s with
      txIrq := false, txState := if s.tx.empty then .yielded else s.txState, tx := (cbRead s.cfg.cap s.tx).2
      txInflight := (cbRead s.cfg.cap s.tx).1.or s.txInflight, label := .silent }
  | .evRxComplete =>
    let after := (cbWrite s.cfg.cap s.rx s.rxData).2
    { s with
      rxIrq := false, rx := after, rxState := if !s.rx.full && after.full then .yielded else s.rxState
      rxArmed := s.rxArmed || !after.full
      faults := if s.rx.full then (s.addFault ⟨.rxLost, .evRxComplete, .byte s.rxData⟩).faults else s.faults
      label := .silent }
  | .evTouchEdge c now => { s with touch := s.touch.modify c.index (touchEdge s.cfg · now), label := .silent }
  | .evEncEdge ab =>
    { s with encCount := lap s.cfg.encLimit (s.encCount + qdelta s.encLast ab), encLast := ab, label := .silent }
  | .evBtnPress => { s with btnLatch := true, label := .silent }
  | _ => s

/-- R125: a read of an empty `tx` leaves the buffer and the byte in flight. -/
theorem handlerUpdate_evTxComplete (s : State) : handlerUpdate .evTxComplete s = (txComplete s).silent := by
  unfold txComplete
  cases he : s.tx.empty with
  | true => simp only [handlerUpdate, he, cbRead_empty _ he]; rfl
  | false => simp only [handlerUpdate, he, sendNext_eq]; rfl

/-- R126: a byte that does not fit leaves the buffer as it was, which is full. -/
theorem handlerUpdate_evRxComplete (s : State) : handlerUpdate .evRxComplete s = rxComplete s := by
  cases hf : s.rx.full with
  | true =>
    rw [rxComplete_of_full hf]
    simp [handlerUpdate, hf, cbWrite_full _ _ hf, raiseHandler_eq]
  | false =>
    rw [rxComplete_of_room hf, rxContinue]
    cases hc : (cbWrite s.cfg.cap s.rx s.rxData).2.full <;>
      simp [handlerUpdate, hf, hc, startRx, State.silent, State.setLabel]

/-- R190: the edge's channel is there. -/
theorem handlerUpdate_evTouchEdge {c : Channel} (hc : s.hasChan c = true) (now : Nat) :
    handlerUpdate (.evTouchEdge c now) s = edgeOn c now s := by
  obtain ⟨t, ht⟩ := hasChan_iff.mp hc
  have hslot : s.touch[c.index]? = some t := ht
  simp [handlerUpdate, edgeOn_some ht, List.modify_eq_set_getElem?, hslot, State.setChan, State.silent, State.setLabel]

theorem handlerUpdate_eq_effect (hi : isHandler i = true) (he : enabled i s = true) : handlerUpdate i s = effect i s := by
  cases i with
  | evTxComplete => exact handlerUpdate_evTxComplete s
  | evRxComplete => exact handlerUpdate_evRxComplete s
  | evTouchEdge c now =>
    obtain ⟨-, hc⟩ : s.refused = false ∧ s.hasChan c = true := by simpa [enabled] using he
    exact handlerUpdate_evTouchEdge hc now
  | evEncEdge ab => rfl
  | evBtnPress => rfl
  | _ => cases hi

theorem exec_handler (hi : isHandler i = true) (he : enabled i s = true) : exec i s = .next (handlerUpdate i s) := by
  rw [exec_of_enabled he, handlerUpdate_eq_effect hi he]

/-! ### Two handlers -/

/-- R190: an edge keeps every channel there is. -/
theorem handlerUpdate_evTouchEdge_hasChan (c c' : Channel) (now : Nat) (s : State) :
    (handlerUpdate (.evTouchEdge c now) s).hasChan c' = s.hasChan c' := by
  simp [handlerUpdate, State.hasChan, State.chan, List.getElem?_modify]

/-- R242: no handler writes what another agent's handler is enabled by. -/
theorem enabled_handlerUpdate (hi : isHandler i = true) (hj : isHandler j = true) (hne : i.agent ≠ j.agent) :
    enabled j (handlerUpdate i s) = enabled j s := by
  cases j with
  | evTxComplete =>
    cases i with
    | evTxComplete => exact absurd rfl hne
    | evRxComplete | evTouchEdge _ _ | evEncEdge _ | evBtnPress => rfl
    | _ => cases hi
  | evRxComplete =>
    cases i with
    | evRxComplete => exact absurd rfl hne
    | evTxComplete | evTouchEdge _ _ | evEncEdge _ | evBtnPress => rfl
    | _ => cases hi
  | evTouchEdge c now =>
    cases i with
    | evTouchEdge c' now' => exact congrArg (!s.refused && ·) (handlerUpdate_evTouchEdge_hasChan c' c now' s)
    | evTxComplete | evRxComplete | evEncEdge _ | evBtnPress => rfl
    | _ => cases hi
  | evEncEdge ab | evBtnPress =>
    cases i with
    | evTxComplete | evRxComplete | evTouchEdge _ _ | evEncEdge _ | evBtnPress => rfl
    | _ => cases hi
  | _ => cases hj

theorem handlerUpdate_comm (hi : isHandler i = true) (hj : isHandler j = true) (hne : i.agent ≠ j.agent) :
    handlerUpdate j (handlerUpdate i s) = handlerUpdate i (handlerUpdate j s) := by
  cases i with
  | evTouchEdge c now =>
    cases j with
    | evTouchEdge c' now' =>
      have hindex : c.index ≠ c'.index := fun h => hne (by rw [Channel.index_inj h]; rfl)
      simp only [handlerUpdate, List.modify_modify_ne _ _ _ hindex]
    | evTxComplete | evRxComplete | evEncEdge _ | evBtnPress => rfl
    | _ => cases hj
  | evTxComplete =>
    cases j with
    | evTxComplete => exact absurd rfl hne
    | evRxComplete | evTouchEdge _ _ | evEncEdge _ | evBtnPress => rfl
    | _ => cases hj
  | evRxComplete =>
    cases j with
    | evRxComplete => exact absurd rfl hne
    | evTxComplete | evTouchEdge _ _ | evEncEdge _ | evBtnPress => rfl
    | _ => cases hj
  | evEncEdge ab =>
    cases j with
    | evEncEdge _ => exact absurd rfl hne
    | evTxComplete | evRxComplete | evTouchEdge _ _ | evBtnPress => rfl
    | _ => cases hj
  | evBtnPress =>
    cases j with
    | evBtnPress => exact absurd rfl hne
    | evTxComplete | evRxComplete | evTouchEdge _ _ | evEncEdge _ => rfl
    | _ => cases hj
  | _ => cases hi

/-- Settles O54: neither handler disables the other, and their updates commute. -/
theorem handlersCommute : Obligations.HandlersCommute := by
  intro s i j hi hj hne hei hej
  have hji : enabled j (handlerUpdate i s) = true := (enabled_handlerUpdate hi hj hne).trans hej
  have hij : enabled i (handlerUpdate j s) = true := (enabled_handlerUpdate hj hi hne.symm).trans hei
  exact ⟨_, _, _, exec_handler hi hei, exec_handler hj hej, exec_handler hj hji,
    (exec_handler hi hij).trans (congrArg _ (handlerUpdate_comm hj hi hne.symm))⟩

end Sys2Proof.Machine

/-! PROOF. RESET (70_reset_and_hazards.md R260, R263): the state after it is the reset values over drawn storage of the right sizes, and of the
state before it only the configuration and the model's record of the environment are read. -/
namespace Sys2Proof.Machine

theorem exec_reset_of_live {s : State} (hlive : s.refused = false) (ab : Pins) : exec (.reset ab) s = .next (resetTo ab s) := by
  rw [exec_reset, whenEnabled_true (live_of hlive)]

/-! ### The drawn storage -/

theorem drawUnspecified_prev_length (k : Cfg) (base : Nat) : (drawUnspecified k base).prev.length = k.nCh := by
  simp [drawUnspecified]

/-- R260: a drawn `prev_ts` is cut to `TS_W` bits. -/
theorem drawUnspecified_prev_lt {k : Cfg} {base p : Nat} (hp : p ∈ (drawUnspecified k base).prev) : p < 2 ^ k.tsW := by
  obtain ⟨i, -, rfl⟩ := List.mem_map.mp hp
  exact uN_lt _ _

/-- R40: channels at reset differ at most in `prev_ts`. -/
theorem forall₂_touch_afterReset {n : Nat} {l m : List Nat} (h : l.length = m.length) :
    List.Forall₂ (fun a b : Touch => b = { a with prevTs := b.prevTs })
      (l.map (Touch.afterReset n)) (m.map (Touch.afterReset n)) := by
  rw [List.forall₂_map_left_iff, List.forall₂_map_right_iff, List.forall₂_iff_zip]
  exact ⟨h, fun _ => rfl⟩

/-! ### The statements -/

/-- Settles O49: the unspecified storage is what `drawUnspecified` draws. -/
theorem resetRestoresEveryField : Obligations.ResetRestoresEveryField := by
  intro s ab hlive
  exact ⟨_, _, _, _, _, _, drawBytes_length _ _, drawBytes_length _ _, drawBytes_length _ _,
    drawUnspecified_prev_length s.cfg s.drawCount, fun p hp => drawUnspecified_prev_lt hp, exec_reset_of_live hlive ab⟩

/-- Settles O50: what RESET draws fills the unspecified storage alone, and the two draws have the same number of channels. -/
theorem nothingPersistsAcrossReset : Obligations.NothingPersistsAcrossReset := by
  intro s s' ab hlive hlive' hcfg
  refine ⟨resetTo ab s, resetTo ab s', exec_reset_of_live hlive ab, exec_reset_of_live hlive' ab, ?_, ?_⟩
  · simp only [resetTo, hcfg]
    rfl
  · simp only [resetTo, State.afterReset, hcfg]
    exact forall₂_touch_afterReset (by simp only [drawUnspecified_prev_length])

end Sys2Proof.Machine

/-! PROOF. Quiescence and the end state of a program (70_reset_and_hazards.md R286). Under the invariant TX is active exactly while a byte is in
flight or its interrupt is pending, and each of these enables a step. The end state of a pump is reached round by round: each
HW_TX_DONE puts the byte in flight on the wire, and the handler after it chains the next byte or yields (R135). -/
namespace Sys2Proof.Machine
open Sys2Proof.Safety

variable {s t : State}

/-! ### Quiescence -/

theorem quiescent_iff : quiescent s = true ↔ s.txState = .yielded ∧ s.tx.empty = true ∧ s.wireIn = []
    ∧ enabled .evRxComplete s = false ∧ enabled .hwRxAccept s = false ∧ enabled .evTxComplete s = false := by
  simp [quiescent, txQuiescent, rxQuiescent, and_assoc]

/-- R42: TX is yielded exactly where neither of the steps that go on with a transmit is enabled. -/
theorem yielded_iff_not_enabled (h : Inv s) (hlive : s.refused = false) :
    s.txState = .yielded ↔ enabled .hwTxDone s = false ∧ enabled .evTxComplete s = false := by
  obtain ⟨hact, -, -, -, -, hdown, henTx, -⟩ := transportInv_of_inv h
  constructor
  · intro hy
    obtain ⟨hinflight, hirq⟩ := txIdle_of_yielded (transportInv_of_inv h) hy
    simp [enabled, hinflight, hirq]
  · rintro ⟨hdone, hcomplete⟩
    cases hs : s.txState with
    | yielded => rfl
    | active =>
      have hready : s.initState = .ready := by
        by_contra hr
        obtain ⟨hy, -⟩ := hdown hr
        simp [hs] at hy
      rcases hact.mp hs with hinflight | hirq
      · simp [enabled, hlive, hinflight] at hdone
      · simp [enabled, hlive, henTx.mp hready, hirq] at hcomplete

/-- Settles O58: with no byte at the peer neither hardware receive step is enabled, and TX is yielded as `yielded_iff_not_enabled` says. -/
theorem quiescentMeansNoLinkStepLeft : Obligations.QuiescentMeansNoLinkStepLeft := by
  intro s h hlive
  rw [quiescent_iff, yielded_iff_not_enabled h hlive]
  constructor
  · rintro ⟨⟨hdone, -⟩, hempty, hwire, hrx, haccept, hcomplete⟩
    have hdrop : enabled .hwRxDrop s = false := by simp [enabled, hwire]
    exact ⟨hempty, hwire, hdone, haccept, hdrop, hcomplete, hrx⟩
  · rintro ⟨hempty, hwire, hdone, haccept, -, hcomplete, hrx⟩
    exact ⟨⟨hdone, hcomplete⟩, hempty, hwire, hrx, haccept, hcomplete⟩

/-! ### Taking the steps of a schedule -/

/-- R93: the next offer is a step of the core where its agent is the instruction's own and the instruction answers a step. -/
theorem takeSteps_cons {a : Agent} {i : Instr} {rest : List Offer} (hlive : s.refused = false) (hcfg : s.cfg.valid = true)
    (hsched : s.sched = { agent := a, cmd := encode i } :: rest) (ha : i.agent = some a)
    (he : exec i { s with sched := rest } = .next t) (hl : t.label ≠ .noStep) :
    takeSteps s.sched.length s = takeSteps rest.length t := by
  have hmay : mayTake a i = true := mayTake_iff.mpr fun b hb => Option.some.inj (ha.symm.trans hb)
  have hstep := stepRunsDecodedInstruction s _ rest i hlive hcfg hsched (decode_encode i) hmay
  rw [hsched, List.length_cons]
  simp only [takeSteps, hstep, he, if_neg hl]

/-- The offers of `n` rounds of HW_TX_DONE by HW and EV_TX_COMPLETE by ISR_TX. -/
def roundOffers (n : Nat) : List Offer :=
  (List.replicate n (offersBy .hw [.hwTxDone] ++ offersBy .isrTx [.evTxComplete])).flatten

theorem roundOffers_succ (n : Nat) : roundOffers (n + 1)
    = { agent := .hw, cmd := encode .hwTxDone } :: { agent := .isrTx, cmd := encode .evTxComplete } :: roundOffers n := by
  simp [roundOffers, offersBy, List.replicate_succ]

/-- `s` after HW_TX_DONE on the byte `b` (R130), with the offers `rest` still to come. -/
def afterTxDone (s : State) (b : Byte) (rest : List Offer) : State :=
  { s with wireOut := s.wireOut ++ [b], txInflight := none, txIrq := true, label := .silent, sched := rest }

@[simp] theorem afterTxDone_label (s : State) (b : Byte) (rest : List Offer) : (afterTxDone s b rest).label = .silent := rfl

section Round
variable {b : Byte} {rest : List Offer}

theorem takeSteps_hwTxDone (hlive : s.refused = false) (hcfg : s.cfg.valid = true) (hb : s.txInflight = some b)
    (hsched : s.sched = { agent := .hw, cmd := encode .hwTxDone } :: rest) :
    takeSteps s.sched.length s = takeSteps rest.length (afterTxDone s b rest) :=
  takeSteps_cons hlive hcfg hsched rfl (exec_hwTxDone_of_inflight (s := { s with sched := rest }) hlive hb) (by simp)

theorem takeSteps_evTxComplete (hlive : s.refused = false) (hcfg : s.cfg.valid = true) (hen : s.irqEnTx = true)
    (hirq : s.txIrq = true) (hsched : s.sched = { agent := .isrTx, cmd := encode .evTxComplete } :: rest) :
    takeSteps s.sched.length s = takeSteps rest.length (txComplete { s with sched := rest }).silent :=
  takeSteps_cons hlive hcfg hsched rfl (exec_evTxComplete_of_pending (s := { s with sched := rest }) hlive hen hirq) (by simp)

/-- One round on a byte in flight: the byte is on the wire, and TX-complete has gone on from there. -/
theorem takeSteps_round (hlive : s.refused = false) (hcfg : s.cfg.valid = true) (hen : s.irqEnTx = true) (hb : s.txInflight = some b)
    (hsched : s.sched = { agent := .hw, cmd := encode .hwTxDone } :: { agent := .isrTx, cmd := encode .evTxComplete } :: rest) :
    takeSteps s.sched.length s = takeSteps rest.length (txComplete (afterTxDone s b rest)).silent :=
  (takeSteps_hwTxDone hlive hcfg hb hsched).trans
    (takeSteps_evTxComplete (s := afterTxDone s b _) hlive hcfg hen rfl rfl)

/-- R125: the round of the last byte yields. -/
theorem txComplete_afterTxDone_of_empty (he : s.tx.empty = true) : (txComplete (afterTxDone s b rest)).silent
    = { s with wireOut := s.wireOut ++ [b], txInflight := none, txIrq := false, txState := .yielded, label := .silent, sched := rest } := by
  simp only [txComplete, afterTxDone, he, if_true]
  rfl

/-- R125: any other round chains the oldest byte of `tx`. -/
theorem txComplete_afterTxDone_chains (hbuf : BufferInv s.cfg.cap s.tx) (he : s.tx.empty = false) :
    ∃ x c, (txComplete (afterTxDone s b rest)).silent
        = { s with wireOut := s.wireOut ++ [b], tx := c, txInflight := some x, txIrq := false, label := .silent, sched := rest }
      ∧ BufferInv s.cfg.cap c ∧ s.tx.unread s.cfg.cap = x :: c.unread s.cfg.cap := by
  rcases txComplete_cases (s := afterTxDone s b rest) hbuf with ⟨hempty, -⟩ | ⟨-, x, c, e, hc, hunread, -⟩
  · exact absurd (he.symm.trans hempty) (by simp)
  · exact ⟨x, c, by rw [e]; rfl, hc, hunread⟩

end Round

/-- R135: a byte in flight and the unread bytes of `tx` take one round each, and all steps of the rounds are taken. -/
theorem takeSteps_rounds {b : Byte} {n : Nat} (hbuf : BufferInv s.cfg.cap s.tx) (hlive : s.refused = false)
    (hcfg : s.cfg.valid = true) (hen : s.irqEnTx = true) (hb : s.txInflight = some b) (hcount : s.tx.count s.cfg.cap = n)
    (hsched : s.sched = roundOffers (n + 1)) :
    ∃ t, takeSteps s.sched.length s = some t ∧ Drained { s with sched := [] } t (b :: s.tx.unread s.cfg.cap) := by
  induction n generalizing s b with
  | zero =>
    obtain ⟨-, -, hzero, -⟩ := count_spec hbuf
    have hempty : s.tx.empty = true := hzero.mp hcount
    rw [takeSteps_round hlive hcfg hen hb (hsched.trans (roundOffers_succ _)), txComplete_afterTxDone_of_empty hempty,
      (unread_eq_nil_iff hbuf).mpr hempty]
    exact ⟨_, rfl, rfl, hempty⟩
  | succ n ih =>
    obtain ⟨-, -, hzero, -⟩ := count_spec hbuf
    have hmore : s.tx.empty = false := by
      rw [← Bool.not_eq_true, ← hzero]
      omega
    obtain ⟨x, c, e, hc, hunread⟩ := txComplete_afterTxDone_chains (b := b) (rest := roundOffers (n + 1)) hbuf hmore
    have hleft : c.count s.cfg.cap = n := by
      have hlen := congrArg List.length hunread
      simp only [unread_length, List.length_cons] at hlen
      omega
    rw [takeSteps_round hlive hcfg hen hb (hsched.trans (roundOffers_succ _)), e]
    obtain ⟨t, hrun, hframe, hempty⟩ := ih (b := x) (s := { s with
      wireOut := s.wireOut ++ [b], tx := c, txInflight := some x, txIrq := false, label := .silent
      sched := roundOffers (n + 1) }) hc hlive hcfg hen rfl hleft rfl
    refine ⟨t, hrun, ?_, hempty⟩
    rw [hframe, hunread]
    simp

/-! ### The end state -/

theorem roundOffers_agent (n : Nat) : ∀ o ∈ roundOffers n, o.agent = .hw ∨ o.agent = .isrTx := by
  induction n with
  | zero => simp [roundOffers]
  | succ n ih => simpa [roundOffers_succ] using ih

/-- The rounds hold no command of APP's or PEER's program. -/
theorem commandsOf_roundOffers {a : Agent} (hhw : a ≠ .hw) (hisr : a ≠ .isrTx) (n : Nat) : commandsOf a (roundOffers n) = [] := by
  have hnone : (roundOffers n).filter (fun o => o.agent == a) = [] := by
    refine List.filter_eq_nil_iff.mpr fun o ho => ?_
    rcases roundOffers_agent n o ho with e | e <;> simp [e, hhw.symm, hisr.symm]
  simp [commandsOf, hnone]

theorem scheduleFor_pump (n : Nat) : ScheduleFor [.uartPump] [] (offersBy .app [.uartPump] ++ roundOffers n) := by
  have happend : ∀ a, commandsOf a (offersBy .app [.uartPump] ++ roundOffers n)
      = commandsOf a (offersBy .app [.uartPump]) ++ commandsOf a (roundOffers n) := by
    simp [commandsOf]
  constructor
  · rw [happend, commandsOf_roundOffers (by simp) (by simp)]
    rfl
  · rw [happend, commandsOf_roundOffers (by simp) (by simp)]
    rfl

theorem endState_of_quiescent (h : takeSteps s.sched.length s = some t) (hq : quiescent t = true) : endState s = some t := by
  simp only [endState, h, hq, if_true]

/-- A drained link on which nothing arrives is quiescent. -/
theorem Drained.quiescent {sent : List Byte} (h : Drained s t sent) (hwire : s.wireIn = []) (hrx : s.rxIrq = false) :
    quiescent t = true := by
  obtain ⟨hframe, hempty⟩ := h
  have hy : t.txState = .yielded := by rw [hframe]
  have hirq : t.txIrq = false := by rw [hframe]
  have hin : t.wireIn = [] := by rw [hframe]; exact hwire
  have hpending : t.rxIrq = false := by rw [hframe]; exact hrx
  exact quiescent_iff.mpr ⟨hy, hempty, hin, by simp [enabled, hpending], by simp [enabled, hin], by simp [enabled, hirq]⟩

/-- Settles O59: the pump puts the oldest byte in flight, and the rounds drain it and the rest. -/
theorem scheduleReachesEndState : Obligations.ScheduleReachesEndState := by
  intro s h hlive hidle hr hy he hwire hrx hsched
  have hcfg : s.cfg.valid = true := h.1
  obtain ⟨-, -, -, -, -, -, henTx, -⟩ := transportInv_of_inv h
  obtain ⟨x, c, d, a, hpump, hinv, hunread⟩ := exec_uartPump_of_yielded
    (s := { s with sched := roundOffers (s.tx.count s.cfg.cap) }) (bufferInv_tx h) hlive hidle hr hy he
  have hcount : s.tx.count s.cfg.cap = c.count s.cfg.cap + 1 := by
    rw [← unread_length, hunread, List.length_cons, unread_length]
  obtain ⟨t, hrun, hdrained⟩ := takeSteps_rounds (s := { s with
    txState := .active, tx := c, txInflight := some x, rxState := d, rxArmed := a, label := .ret .none
    sched := roundOffers (s.tx.count s.cfg.cap) }) hinv hlive hcfg (henTx.mp hr) rfl rfl (congrArg roundOffers hcount)
  have htaken : takeSteps s.sched.length s = some t := (takeSteps_cons hlive hcfg hsched rfl hpump (by simp)).trans hrun
  have hquiet : quiescent t = true := hdrained.quiescent hwire hrx
  obtain ⟨hframe, -⟩ := hdrained
  refine ⟨t, ⟨hsched ▸ scheduleFor_pump _, endState_of_quiescent htaken hquiet⟩, ?_, hquiet, ?_, ?_⟩ <;> rw [hframe]
  exact congrArg (s.wireOut ++ ·) hunread.symm

end Sys2Proof.Machine
